-- ==== Sys2Proof/Word.lean ====
section
/-! DEFINITION. The word types of the codec (00_scope.md R6, R7). -/

namespace Sys2Proof

/-- An octet: 8 bits, bit 0 least significant (R7). -/
abbrev Octet := BitVec 8

/-- A logical value, the accumulator, the remaining value: 64 bits, unsigned (R6). -/
abbrev U64 := BitVec 64

/-- The `n` operand port and the prefix-width registers: 4 bits (R6, R30). -/
abbrev Width := BitVec 4

/-- `U64MAX` = 2^64 - 1 (00_scope.md section 4). -/
def u64Max : Nat := 2 ^ 64 - 1

end Sys2Proof
end

