-- ==== Sys2Proof/Config.lean ====
section
/-! DEFINITION. The free values: what the spec calls unspecified while the machine goes on.
They have no body, so no proof can learn a value of them. `LENW` (R6) is no constant here:
lengths and counts are natural numbers (notes/assumptions/9.md). -/

namespace Sys2Proof

/-- The value on `val_out` at the end of an operation that does not specify it (10_state.md R31,
41_decoder.md R114): a draw, indexed by the number of operations ended so far.
notes/assumptions/6.md, DESIGN CHOICE. -/
opaque Config.freeValOut : Nat → U64

/-- The content of `E.rem` once the encoder is Done (10_state.md R27), indexed likewise.
notes/assumptions/7.md, DESIGN CHOICE. -/
opaque Config.freeRem : Nat → U64

end Sys2Proof
end

