-- ==== Sys2Proof/Syntax.lean ====
section
/-! DEFINITION. The instructions: one constructor per row of spec/opcode_table.json.
Format CMD: the eight operations the host issues (30_encoding.md R80), operands in the order of R84.
Format MICRO: the five micro-steps (R81). Formats OCTET0 and CONT: the wire-format octets
(R71, R72, R76), `f` the flag bits, `v` the value field, `p` the payload. -/

namespace Sys2Proof

inductive Instr where
  /-- `MPV n` (R90). -/
  | mpv (n : Width)
  /-- `ROCT value, n` (R91). -/
  | roct (value : U64) (n : Width)
  /-- `DEC.INIT n` (R100). -/
  | decInit (n : Width)
  /-- `DEC.RUN [b0 b1 ..]`: the source view as its octets (R110, R84). -/
  | decRun (view : List Octet)
  /-- `ENC.INIT value, n` (R130). -/
  | encInit (value : U64) (n : Width)
  /-- `ENC.RUN dst+off, cap`: the destination view as offset and capacity (R136, R84). -/
  | encRun (off cap : Nat)
  /-- `DEC1 n, [b0 b1 ..]` (R160). -/
  | dec1 (n : Width) (view : List Octet)
  /-- `ENC1 value, n, dst+off, cap` (R161). -/
  | enc1 (value : U64) (n : Width) (off cap : Nat)
  /-- Micro-step D.FIRST (R104). -/
  | dFirst
  /-- Micro-step D.CONT (R105, R106). -/
  | dCont
  /-- Micro-step E.FIRST (R138). -/
  | eFirst
  /-- Micro-step E.CONT (R139). -/
  | eCont
  /-- Micro-step E.FINAL (R140). -/
  | eFinal
  /-- Octet 0 under prefix width 1, layout only (R71). -/
  | octet0N1 (f : BitVec 7) (v : BitVec 1)
  /-- Octet 0 under prefix width 1, class LONG: the value field holds the sentinel (R76). -/
  | octet0N1Long (f : BitVec 7)
  /-- Octet 0 under prefix width 1, class SHORT: the value field is below the sentinel (R76). -/
  | octet0N1Short (f : BitVec 7) (v : BitVec 1)
  /-- Octet 0 under prefix width 2, layout only (R71). -/
  | octet0N2 (f : BitVec 6) (v : BitVec 2)
  /-- Octet 0 under prefix width 2, class LONG: the value field holds the sentinel (R76). -/
  | octet0N2Long (f : BitVec 6)
  /-- Octet 0 under prefix width 2, class SHORT: the value field is below the sentinel (R76). -/
  | octet0N2Short (f : BitVec 6) (v : BitVec 2)
  /-- Octet 0 under prefix width 3, layout only (R71). -/
  | octet0N3 (f : BitVec 5) (v : BitVec 3)
  /-- Octet 0 under prefix width 3, class LONG: the value field holds the sentinel (R76). -/
  | octet0N3Long (f : BitVec 5)
  /-- Octet 0 under prefix width 3, class SHORT: the value field is below the sentinel (R76). -/
  | octet0N3Short (f : BitVec 5) (v : BitVec 3)
  /-- Octet 0 under prefix width 4, layout only (R71). -/
  | octet0N4 (f : BitVec 4) (v : BitVec 4)
  /-- Octet 0 under prefix width 4, class LONG: the value field holds the sentinel (R76). -/
  | octet0N4Long (f : BitVec 4)
  /-- Octet 0 under prefix width 4, class SHORT: the value field is below the sentinel (R76). -/
  | octet0N4Short (f : BitVec 4) (v : BitVec 4)
  /-- Octet 0 under prefix width 5, layout only (R71). -/
  | octet0N5 (f : BitVec 3) (v : BitVec 5)
  /-- Octet 0 under prefix width 5, class LONG: the value field holds the sentinel (R76). -/
  | octet0N5Long (f : BitVec 3)
  /-- Octet 0 under prefix width 5, class SHORT: the value field is below the sentinel (R76). -/
  | octet0N5Short (f : BitVec 3) (v : BitVec 5)
  /-- Octet 0 under prefix width 6, layout only (R71). -/
  | octet0N6 (f : BitVec 2) (v : BitVec 6)
  /-- Octet 0 under prefix width 6, class LONG: the value field holds the sentinel (R76). -/
  | octet0N6Long (f : BitVec 2)
  /-- Octet 0 under prefix width 6, class SHORT: the value field is below the sentinel (R76). -/
  | octet0N6Short (f : BitVec 2) (v : BitVec 6)
  /-- Octet 0 under prefix width 7, layout only (R71). -/
  | octet0N7 (f : BitVec 1) (v : BitVec 7)
  /-- Octet 0 under prefix width 7, class LONG: the value field holds the sentinel (R76). -/
  | octet0N7Long (f : BitVec 1)
  /-- Octet 0 under prefix width 7, class SHORT: the value field is below the sentinel (R76). -/
  | octet0N7Short (f : BitVec 1) (v : BitVec 7)
  /-- Octet 0 under prefix width 8, layout only (R71). -/
  | octet0N8 (v : BitVec 8)
  /-- Octet 0 under prefix width 8, class LONG: the value field holds the sentinel (R76). -/
  | octet0N8Long
  /-- Octet 0 under prefix width 8, class SHORT: the value field is below the sentinel (R76). -/
  | octet0N8Short (v : BitVec 8)
  /-- Continuation octet with bit 7 set: another follows (R72). -/
  | contMore (p : BitVec 7)
  /-- Continuation octet with bit 7 clear: the last of the integer (R72). -/
  | contLast (p : BitVec 7)
  deriving DecidableEq, Repr

end Sys2Proof
end

