-- ==== Sys2Proof/WellFormed.lean ====
section
/-! DEFINITION. Which instructions are well formed. Every value of every operand port may be issued
(R82: a bad `n` is answered by the operation itself), and every octet has a class (R78); the one
thing a term can get wrong is to call an octet SHORT whose value field holds the sentinel
(30_encoding.md R76: the comparison is strict). -/

namespace Sys2Proof

/-- The value field is not the sentinel: not all ones (R71, R76). -/
def belowSentinel {n : Nat} (v : BitVec n) : Bool := v != BitVec.allOnes n

def Instr.wellFormed : Instr → Bool
  | .mpv _ => true
  | .roct _ _ => true
  | .decInit _ => true
  | .decRun _ => true
  | .encInit _ _ => true
  | .encRun _ _ => true
  | .dec1 _ _ => true
  | .enc1 _ _ _ _ => true
  | .dFirst => true
  | .dCont => true
  | .eFirst => true
  | .eCont => true
  | .eFinal => true
  | .octet0N1 _ _ => true
  | .octet0N1Long _ => true
  | .octet0N1Short _ v => belowSentinel v
  | .octet0N2 _ _ => true
  | .octet0N2Long _ => true
  | .octet0N2Short _ v => belowSentinel v
  | .octet0N3 _ _ => true
  | .octet0N3Long _ => true
  | .octet0N3Short _ v => belowSentinel v
  | .octet0N4 _ _ => true
  | .octet0N4Long _ => true
  | .octet0N4Short _ v => belowSentinel v
  | .octet0N5 _ _ => true
  | .octet0N5Long _ => true
  | .octet0N5Short _ v => belowSentinel v
  | .octet0N6 _ _ => true
  | .octet0N6Long _ => true
  | .octet0N6Short _ v => belowSentinel v
  | .octet0N7 _ _ => true
  | .octet0N7Long _ => true
  | .octet0N7Short _ v => belowSentinel v
  | .octet0N8 _ => true
  | .octet0N8Long => true
  | .octet0N8Short v => belowSentinel v
  | .contMore _ => true
  | .contLast _ => true

end Sys2Proof
end

