-- ==== Sys2Proof/Decode.lean ====
section
/-! DEFINITION. The decoder of instructions, total, rejecting by name; and the encoder.
The spec has no packed command word (30_encoding.md R80): what selects a row of the opcode table is
the op port (format CMD), a unit's state tag (format MICRO), or an octet's bits under the prefix
width or in a continuation (formats OCTET0, CONT; R86). An `InstrWord` says which of them the bits
stand in. notes/assumptions/1.md, DESIGN CHOICE. -/

namespace Sys2Proof

/-- The operand ports, sampled when an operation is issued (10_state.md R30): `op`, `n`, `val_in`,
`len`, and the view: its octets where it is a source view, its place in the host's buffer where it
is a destination view. -/
structure Ports where
  op    : BitVec 3
  n     : Width
  valIn : U64
  len   : Nat
  src   : List Octet
  dst   : Nat
  deriving DecidableEq, Repr

/-- Where an instruction's bits stand, with the bits. -/
inductive InstrWord where
  /-- A command on the operand ports (R80). -/
  | cmd (p : Ports)
  /-- The decoder unit's state tag, selecting a micro-step (R81, R46). -/
  | decTag (t : BitVec 3)
  /-- The encoder unit's state tag, selecting a micro-step (R81, R46). -/
  | encTag (t : BitVec 3)
  /-- An octet 0 under prefix width `N`, read by its layout only (R71). -/
  | layout (N : Width) (b : Octet)
  /-- An octet 0 under prefix width `N`, read by its class (R76). -/
  | octet0 (N : Width) (b : Octet)
  /-- A continuation octet (R72). -/
  | cont (b : Octet)
  deriving DecidableEq, Repr

/-- Why a word is no instruction. -/
inductive DecodeError where
  /-- The `len` port is not the number of octets of the source view (R30). -/
  | viewLength
  /-- A state tag that a unit can hold but that selects no micro-step: Idle, Done, Failed (R46, R81). -/
  | noMicroStep
  /-- A state tag that is never held (R46). -/
  | tagNeverHeld
  /-- An octet 0 cannot be read under a prefix width outside 1..8 (R22, R71). -/
  | noSuchWidth
  /-- A number of the opcode table's form that is wider than the table's rows. -/
  | tooWide
  deriving DecidableEq, Repr

/-- The command on the ports (R80). Ports that an operation does not list are ignored (R82). -/
def decodeCmd (p : Ports) : Except DecodeError Instr :=
  match p.op with
  | 0 => .ok (.mpv p.n)
  | 1 => .ok (.roct p.valIn p.n)
  | 2 => .ok (.decInit p.n)
  | 3 => if p.len = p.src.length then .ok (.decRun p.src) else .error .viewLength
  | 4 => .ok (.encInit p.valIn p.n)
  | 5 => .ok (.encRun p.dst p.len)
  | 6 => if p.len = p.src.length then .ok (.dec1 p.n p.src) else .error .viewLength
  | 7 => .ok (.enc1 p.valIn p.n p.dst p.len)

/-- The micro-step a decoder tag selects: First is 1, Continuation is 2 (R46, R81). -/
def decodeDecTag (t : BitVec 3) : Except DecodeError Instr :=
  match t with
  | 0 => .error .noMicroStep
  | 1 => .ok .dFirst
  | 2 => .ok .dCont
  | 3 => .error .noMicroStep
  | 4 => .error .noMicroStep
  | 5 => .error .tagNeverHeld
  | 6 => .error .tagNeverHeld
  | 7 => .error .tagNeverHeld

/-- The micro-step an encoder tag selects: First 1, Continuation 2, Final 3 (R46, R81). -/
def decodeEncTag (t : BitVec 3) : Except DecodeError Instr :=
  match t with
  | 0 => .error .noMicroStep
  | 1 => .ok .eFirst
  | 2 => .ok .eCont
  | 3 => .ok .eFinal
  | 4 => .error .noMicroStep
  | 5 => .error .tagNeverHeld
  | 6 => .error .tagNeverHeld
  | 7 => .error .tagNeverHeld

/-- The low `k` bits of an octet: the value field under prefix width `k` (R71). -/
def lowBits (k : Nat) (b : Octet) : BitVec k := b.extractLsb' 0 k

/-- The bits of an octet from bit `k` up: the flag bits under prefix width `k` (R71). -/
def highBits (k : Nat) (b : Octet) : BitVec (8 - k) := b.extractLsb' k (8 - k)

/-- Octet 0 by its layout (R71). -/
def decodeLayout (N : Width) (b : Octet) : Except DecodeError Instr :=
  match N with
  | 1 => .ok (.octet0N1 (highBits 1 b) (lowBits 1 b))
  | 2 => .ok (.octet0N2 (highBits 2 b) (lowBits 2 b))
  | 3 => .ok (.octet0N3 (highBits 3 b) (lowBits 3 b))
  | 4 => .ok (.octet0N4 (highBits 4 b) (lowBits 4 b))
  | 5 => .ok (.octet0N5 (highBits 5 b) (lowBits 5 b))
  | 6 => .ok (.octet0N6 (highBits 6 b) (lowBits 6 b))
  | 7 => .ok (.octet0N7 (highBits 7 b) (lowBits 7 b))
  | 8 => .ok (.octet0N8 (lowBits 8 b))
  | _ => .error .noSuchWidth

/-- Octet 0 by its class: SHORT if the value field is below the sentinel, else LONG (R76). -/
def decodeOctet0 (N : Width) (b : Octet) : Except DecodeError Instr :=
  match N with
  | 1 => .ok (if belowSentinel (lowBits 1 b) then .octet0N1Short (highBits 1 b) (lowBits 1 b) else .octet0N1Long (highBits 1 b))
  | 2 => .ok (if belowSentinel (lowBits 2 b) then .octet0N2Short (highBits 2 b) (lowBits 2 b) else .octet0N2Long (highBits 2 b))
  | 3 => .ok (if belowSentinel (lowBits 3 b) then .octet0N3Short (highBits 3 b) (lowBits 3 b) else .octet0N3Long (highBits 3 b))
  | 4 => .ok (if belowSentinel (lowBits 4 b) then .octet0N4Short (highBits 4 b) (lowBits 4 b) else .octet0N4Long (highBits 4 b))
  | 5 => .ok (if belowSentinel (lowBits 5 b) then .octet0N5Short (highBits 5 b) (lowBits 5 b) else .octet0N5Long (highBits 5 b))
  | 6 => .ok (if belowSentinel (lowBits 6 b) then .octet0N6Short (highBits 6 b) (lowBits 6 b) else .octet0N6Long (highBits 6 b))
  | 7 => .ok (if belowSentinel (lowBits 7 b) then .octet0N7Short (highBits 7 b) (lowBits 7 b) else .octet0N7Long (highBits 7 b))
  | 8 => .ok (if belowSentinel (lowBits 8 b) then .octet0N8Short (lowBits 8 b) else .octet0N8Long)
  | _ => .error .noSuchWidth

/-- A continuation octet: bit 7 says whether another follows (R72). -/
def decodeCont (b : Octet) : Instr :=
  if b.getLsbD 7 then .contMore (lowBits 7 b) else .contLast (lowBits 7 b)

/-- The instruction a word stands for. -/
def decode : InstrWord → Except DecodeError Instr
  | .cmd p => decodeCmd p
  | .decTag t => decodeDecTag t
  | .encTag t => decodeEncTag t
  | .layout N b => decodeLayout N b
  | .octet0 N b => decodeOctet0 N b
  | .cont b => .ok (decodeCont b)

/-! ## The encoder -/

/-- A command on the ports; a port the operation does not list holds 0 (R80). -/
def cmdWord (op : BitVec 3) (n : Width := 0) (valIn : U64 := 0) (len : Nat := 0)
    (src : List Octet := []) (dst : Nat := 0) : InstrWord :=
  .cmd { op := op, n := n, valIn := valIn, len := len, src := src, dst := dst }

/-- The word of an instruction, from R80, R46, R71, R72. -/
def encode : Instr → InstrWord
  | .mpv n => cmdWord 0 (n := n)
  | .roct value n => cmdWord 1 (n := n) (valIn := value)
  | .decInit n => cmdWord 2 (n := n)
  | .decRun view => cmdWord 3 (len := view.length) (src := view)
  | .encInit value n => cmdWord 4 (n := n) (valIn := value)
  | .encRun off cap => cmdWord 5 (len := cap) (dst := off)
  | .dec1 n view => cmdWord 6 (n := n) (len := view.length) (src := view)
  | .enc1 value n off cap => cmdWord 7 (n := n) (valIn := value) (len := cap) (dst := off)
  | .dFirst => .decTag 1
  | .dCont => .decTag 2
  | .eFirst => .encTag 1
  | .eCont => .encTag 2
  | .eFinal => .encTag 3
  | .octet0N1 f v => .layout 1 (f ++ v)
  | .octet0N1Long f => .octet0 1 (f ++ BitVec.allOnes 1)
  | .octet0N1Short f v => .octet0 1 (f ++ v)
  | .octet0N2 f v => .layout 2 (f ++ v)
  | .octet0N2Long f => .octet0 2 (f ++ BitVec.allOnes 2)
  | .octet0N2Short f v => .octet0 2 (f ++ v)
  | .octet0N3 f v => .layout 3 (f ++ v)
  | .octet0N3Long f => .octet0 3 (f ++ BitVec.allOnes 3)
  | .octet0N3Short f v => .octet0 3 (f ++ v)
  | .octet0N4 f v => .layout 4 (f ++ v)
  | .octet0N4Long f => .octet0 4 (f ++ BitVec.allOnes 4)
  | .octet0N4Short f v => .octet0 4 (f ++ v)
  | .octet0N5 f v => .layout 5 (f ++ v)
  | .octet0N5Long f => .octet0 5 (f ++ BitVec.allOnes 5)
  | .octet0N5Short f v => .octet0 5 (f ++ v)
  | .octet0N6 f v => .layout 6 (f ++ v)
  | .octet0N6Long f => .octet0 6 (f ++ BitVec.allOnes 6)
  | .octet0N6Short f v => .octet0 6 (f ++ v)
  | .octet0N7 f v => .layout 7 (f ++ v)
  | .octet0N7Long f => .octet0 7 (f ++ BitVec.allOnes 7)
  | .octet0N7Short f v => .octet0 7 (f ++ v)
  | .octet0N8 v => .layout 8 v
  | .octet0N8Long => .octet0 8 (BitVec.allOnes 8)
  | .octet0N8Short v => .octet0 8 v
  | .contMore p => .cont (1#1 ++ p)
  | .contLast p => .cont (0#1 ++ p)

/-! ## Numbers as spec/opcode_table.json numbers them -/

/-- The word a number of the opcode table stands for. The table's formats share bit patterns (the
pattern 1 is ROCT, D.FIRST, E.FIRST and an octet 0): a number below 8 is a command on the 3-bit op
port with every other port 0; a larger number is an octet, read by the row with the most fixed bits
that it meets (LONG under the widest prefix, then the two continuation rows).
notes/assumptions/1.md, DESIGN CHOICE. -/
def tableWord (nbits w : Nat) : Except DecodeError InstrWord :=
  let b : Octet := BitVec.ofNat 8 w
  if 2 ^ nbits ≤ w ∨ 256 ≤ w then .error .tooWide
  else if w < 8 then .ok (cmdWord (BitVec.ofNat 3 w))
  else if !belowSentinel (lowBits 8 b) then .ok (.octet0 8 b)
  else if !belowSentinel (lowBits 7 b) then .ok (.octet0 7 b)
  else if !belowSentinel (lowBits 6 b) then .ok (.octet0 6 b)
  else if !belowSentinel (lowBits 5 b) then .ok (.octet0 5 b)
  else if !belowSentinel (lowBits 4 b) then .ok (.octet0 4 b)
  else if !belowSentinel (lowBits 3 b) then .ok (.octet0 3 b)
  else if !belowSentinel (lowBits 2 b) then .ok (.octet0 2 b)
  else .ok (.cont b)

/-- The instruction the decoder reads from a number of the opcode table. -/
def decodeTableWord (nbits w : Nat) : Option Instr :=
  match tableWord nbits w with
  | .error _ => none
  | .ok word =>
    match decode word with
    | .error _ => none
    | .ok i => some i

end Sys2Proof
end

