-- ==== Sys2Proof/Machine/State.lean ====
section
/-! DEFINITION. The state of the codec: the seven registers (10_state.md R20), the result ports
(R31), the invocation in progress on each unit with its cursor (R41), the host's buffer (R51, R57),
and what the host does next (R14). Plain data throughout. -/

namespace Sys2Proof.Machine

/-- The decoder's state tag (R21). -/
inductive DecTag where
  | idle | first | continuation | done | failed
  deriving DecidableEq, Repr

/-- The encoder's state tag (R25). -/
inductive EncTag where
  | idle | first | continuation | final | done
  deriving DecidableEq, Repr

/-- The decoder unit's registers `D.state`, `D.N`, `D.v`, `D.M` (R20). -/
structure Decoder where
  state : DecTag
  N     : Width
  v     : U64
  M     : Nat
  deriving DecidableEq, Repr

/-- The encoder unit's registers `E.state`, `E.N`, `E.rem` (R20). -/
structure Encoder where
  state : EncTag
  N     : Width
  rem   : U64
  deriving DecidableEq, Repr

/-- What the `err` port says (60_exceptions.md R171). -/
inductive Err where
  | none | needsMore | tooLarge | preconditionViolation
  deriving DecidableEq, Repr

/-- The result ports `cnt`, `val_out`, `err`, `done` (R31). -/
structure Results where
  cnt    : Nat
  valOut : U64
  err    : Err
  done   : Bool
  deriving DecidableEq, Repr

/-- The host's buffer as a list of written octets: addresses strictly rising (`Memory.wf`). An
address that is not listed was never written and holds no value (notes/assumptions/5.md). -/
abbrev Memory := List Host.Cell

/-- A `DEC.RUN` in progress: its source view (20_memory.md R50) and the cursor `i` (R41). -/
structure DecFlight where
  view   : List Octet
  cursor : Nat
  deriving DecidableEq, Repr

/-- An `ENC.RUN` in progress: where its destination view lies in the host's buffer (R51, R57), its
capacity, and the cursor `w` (R41). -/
structure EncFlight where
  off    : Nat
  cap    : Nat
  cursor : Nat
  deriving DecidableEq, Repr

inductive UnitId where
  | decoder | encoder
  deriving DecidableEq, Repr

/-- One thing that happens next, as the host orders it (00_scope.md R14; notes/assumptions/2.md, 3.md). -/
inductive HostAct where
  /-- The host issues the operation on these ports; it is carried out whole (R9). -/
  | issue (p : Ports)
  /-- The host issues the operation on these ports, to be carried out micro-step by micro-step: the
  other granularity R9 allows. -/
  | issueStepwise (p : Ports)
  /-- The unit takes the next micro-step of its operation in progress. -/
  | tick (u : UnitId)
  /-- The host writes an octet of its own buffer (70_reset_and_hazards.md R202, R208). -/
  | hostWrite (a : Nat) (b : Octet)
  deriving DecidableEq, Repr

structure State where
  /-- The decoder unit. -/
  dec       : Decoder
  /-- The encoder unit. -/
  enc       : Encoder
  /-- The result ports. -/
  out       : Results
  /-- The host's buffer. -/
  mem       : Memory
  /-- The decoder unit's operation in progress, if any. -/
  decFlight : Option DecFlight
  /-- The encoder unit's operation in progress, if any. -/
  encFlight : Option EncFlight
  /-- What the host does next, oldest first. -/
  pending   : List HostAct
  /-- The model's own: operations ended so far, the index of the free values (notes/assumptions/6.md). -/
  draws     : Nat
  deriving DecidableEq, Repr

/-- What stops the machine with a fault. -/
inductive Fault where
  /-- Raised by E.FIRST (so by `ENC.RUN`, `ENC1` and the micro-step itself) when `N < 8` and the
  destination octet was never written: a fault of the host (70_reset_and_hazards.md R208, 93 U9).
  Safe: the hardware goes on with whatever the octet holds. notes/assumptions/5.md. -/
  | unwrittenOctet
  deriving DecidableEq, Repr

/-- What the model gives no move. -/
inductive Refusal where
  /-- Raised by `exec` for an instruction without a meaning; no arm uses it now. Safe. -/
  | notModelled (mnemonic : String)
  /-- Raised by the sequencer for ports or a tag that are no instruction (R30, R46). Safe. -/
  | undecodable (e : DecodeError)
  /-- Raised by a micro-step or an octet class that the unit's state does not select: the host cannot
  issue one directly (30_encoding.md R81). Safe. notes/assumptions/11.md. -/
  | notSelected
  /-- Raised by an operation on a unit whose operation is in progress (20_memory.md R65,
  70_reset_and_hazards.md R207, 93 U6: no move). Safe. notes/assumptions/12.md. -/
  | unitBusy
  /-- Raised by a host write to, or an `ENC1` over, the destination view of an operation in progress
  (R65, R207: no move). Safe. notes/assumptions/12.md. -/
  | viewInUse
  deriving DecidableEq, Repr

/-- The outcome of an instruction or a step. -/
abbrev Out := Host.Outcome State Fault Refusal

/-- After reset (10_state.md R45, 70_reset_and_hazards.md R200): both units Idle, `err` None, `done`
0, no operation in progress, memory untouched, the host has issued nothing. The other registers and
ports are unspecified there; they hold 0 here (notes/assumptions/8.md, DESIGN CHOICE). -/
def State.reset : State where
  dec := { state := .idle, N := 0, v := 0, M := 0 }
  enc := { state := .idle, N := 0, rem := 0 }
  out := { cnt := 0, valOut := 0, err := .none, done := false }
  mem := []
  decFlight := none
  encFlight := none
  pending := []
  draws := 0

end Sys2Proof.Machine
end

