-- ==== Sys2Proof/Machine/Flags.lean ====
section
/-! DEFINITION. The status outputs and their codes: `err`, `done` (10_state.md R31, R32,
60_exceptions.md R171) and the state tags (R46). The block has no condition codes (R32). -/

namespace Sys2Proof.Machine

/-- The code on the 2-bit `err` port (R171). -/
def Err.code : Err → BitVec 2
  | .none => 0
  | .needsMore => 1
  | .tooLarge => 2
  | .preconditionViolation => 3

/-- The code of `D.state` (R46). -/
def DecTag.code : DecTag → BitVec 3
  | .idle => 0
  | .first => 1
  | .continuation => 2
  | .done => 3
  | .failed => 4

/-- The code of `E.state` (R46). -/
def EncTag.code : EncTag → BitVec 3
  | .idle => 0
  | .first => 1
  | .continuation => 2
  | .final => 3
  | .done => 4

/-- `done` after `DEC.RUN`: 1 if and only if `D.state` = Done (R31). -/
def decDone (d : Decoder) : Bool := d.state == .done

/-- `done` after `ENC.RUN`: 1 if and only if `E.state` = Done (R31). -/
def encDone (e : Encoder) : Bool := e.state == .done

/-- `done` after `DEC1`, `ENC1`: 1 if and only if `err` = None (R31). -/
def oneShotDone (err : Err) : Bool := err == .none

/-- What `val_out` shows of a decoder: `D.v` when Done, otherwise unspecified (R114). -/
def decValue (d : Decoder) : Option U64 := if decDone d then some d.v else none

end Sys2Proof.Machine
end

