-- ==== Sys2Proof/Machine/Operands.lean ====
section
/-! DEFINITION. The operand forms: prefix widths with their mask, sentinel and comparison
(40_prefix_helper.md R90, R94), the fields of an octet (30_encoding.md R71, R72), destination views
(20_memory.md R51). -/

namespace Sys2Proof.Machine

/-- A prefix width outside 1..8 (R82, R174). -/
def badWidth (n : Width) : Bool := n.toNat < 1 || 8 < n.toNat

/-- `maxp(N)` = 2^N - 1, the sentinel (R90). -/
def maxp (n : Width) : Nat := 2 ^ n.toNat - 1

/-- The mask `maxp(N)` as an octet: ones in bits N-1..0 (R94 (a)). -/
def prefixMask (n : Width) : Octet := BitVec.ofNat 8 (maxp n)

/-- The flag mask `~maxp(N) & 0xFF`: ones in bits 7..N (R94 (b)). -/
def flagMask (n : Width) : Octet := ~~~ prefixMask n

/-- The value field of octet 0: `B & maxp(N)` (R104). -/
def prefixField (n : Width) (b : Octet) : Octet := b &&& prefixMask n

/-- The payload of a continuation octet: `B & 0x7F` (R72). -/
def payload (b : Octet) : Nat := (b &&& 0x7F#8).toNat

/-- The more-follow flag of a continuation octet: bit 7 (R72). -/
def moreFollow (b : Octet) : Bool := b.getLsbD 7

/-- `c <- (B & 0x7F) << M`, unbounded (41_decoder.md R107). -/
def contribution (b : Octet) (M : Nat) : Nat := payload b * 2 ^ M

/-- Two destination views share an octet of the host's buffer (R207). -/
def viewsOverlap (off cap off' cap' : Nat) : Bool :=
  0 < cap && 0 < cap' && off < off' + cap' && off' < off + cap

end Sys2Proof.Machine
end

