-- ==== Sys2Proof/Machine/Ops.lean ====
section
/-! DEFINITION. The shared operations: memory (20_memory.md), the end of an operation and raising a
condition (60_exceptions.md R176), the micro-steps and loops both the resumable and the one-shot
operations run (41_decoder.md, 42_encoder.md). -/

namespace Sys2Proof.Machine

/-! ## Memory -/

/-- The canonical form: addresses strictly rising. An unlisted address holds no value, so no entry
can equal what it reads as. -/
abbrev Memory.wf (m : Memory) : Prop := m.Pairwise (fun x y => x.1 < y.1)

/-- The octet at an address of the host's buffer; none if it was never written (R54, R208). -/
def Memory.read : Memory → Nat → Option Octet
  | [], _ => none
  | c :: m, a => if c.1 = a then some c.2 else Memory.read m a

/-- Replaces the octet at an address (R55). -/
def Memory.write : Memory → Nat → Octet → Memory
  | [], a, b => [(a, b)]
  | c :: m, a, b =>
    if a < c.1 then (a, b) :: c :: m
    else if a = c.1 then (a, b) :: m
    else c :: Memory.write m a b

/-! ## The end of an operation -/

/-- `return (cnt, val, err)`: the result ports take these values (00_scope.md section 4). A `val` the
spec does not give is a free value (R31, R114). No register and no memory is touched. -/
def finish (cnt : Nat) (val : Option U64) (err : Err) (done : Bool) (s : State) : State :=
  { s with
    out := { cnt := cnt, valOut := val.getD (Config.freeValOut s.draws), err := err, done := done }
    draws := s.draws + 1 }

/-- `raise PreconditionViolation`: the operation ends with `cnt = 0` (R174); control goes nowhere, no
mode, mask or saved register exists (R176). -/
def raisePrecondition (s : State) : State := finish 0 none .preconditionViolation false s

/-! ## The decoder's micro-steps on its registers -/

/-- D.FIRST on the octet `b` (R104). -/
def dFirstOn (b : Octet) (d : Decoder) : Decoder :=
  let p := prefixField d.N b
  if p.toNat < maxp d.N then { d with v := p.zeroExtend 64, state := .done }
  else { d with v := p.zeroExtend 64, M := 0, state := .continuation }

/-- The sum of accumulator and contribution exceeds `U64MAX` (R106). -/
def overflows (b : Octet) (d : Decoder) : Bool := u64Max < d.v.toNat + contribution b d.M

/-- D.CONT on the octet `b`, accepting case (R105). -/
def dContOn (b : Octet) (d : Decoder) : Decoder :=
  { d with
    v := BitVec.ofNat 64 (d.v.toNat + contribution b d.M)
    M := d.M + 7
    state := if moreFollow b then .continuation else .done }

/-- D.CONT, overflow case: Failed, `D.v` and `D.M` unchanged (R106). -/
def dFail (d : Decoder) : Decoder := { d with state := .failed }

/-! ## DEC.RUN on a decoder context -/

/-- What a run of the decoder ends with: the registers, `cnt`, `err`. -/
structure DecResult where
  d   : Decoder
  cnt : Nat
  err : Err
  deriving DecidableEq, Repr

/-- The loop of R110 from cursor `i`, the list being the octets of the view from offset `i` on. -/
def decLoop : List Octet → Nat → Decoder → DecResult
  | [], i, d => if d.state = .done then ⟨d, i, .none⟩ else ⟨d, i, .needsMore⟩
  | b :: bs, i, d =>
    if d.state = .done then ⟨d, i, .none⟩
    else if d.state = .first then decLoop bs (i + 1) (dFirstOn b d)
    else if overflows b d then ⟨dFail d, i, .tooLarge⟩
    else decLoop bs (i + 1) (dContOn b d)

/-- The checks made before any octet is read, in the order of R110 (R101 to R103): the condition that
ends the operation at once, if one does. -/
def decPrecheck (view : List Octet) (d : Decoder) : Option Err :=
  if d.state = .idle then some .preconditionViolation
  else if d.state = .failed then some .tooLarge
  else if view = [] then some .needsMore
  else if d.state = .done then some .none
  else none

/-- `DEC.RUN view` carried out on the context `d` (R110). -/
def decRunOn (view : List Octet) (d : Decoder) : DecResult :=
  match decPrecheck view d with
  | some err => ⟨d, 0, err⟩
  | none => decLoop view 0 d

/-- A decoder fresh from construction under a legal `n` (R100). -/
def freshDecoder (n : Width) : Decoder := { state := .first, N := n, v := 0, M := 0 }

/-- The results of a `DEC.RUN` that ended with `r` (R31, R110). -/
def finishDec (r : DecResult) (s : State) : State :=
  finish r.cnt (decValue r.d) r.err (decDone r.d) s

/-! ## The encoder's micro-steps on its registers and the memory

`r` is the free value `E.rem` takes when the encoder becomes Done (R27), `a` the address of the octet
under the cursor. -/

/-- What a micro-step of the encoder leaves: the registers and the host's buffer. -/
structure EncStep where
  e   : Encoder
  mem : Memory
  deriving DecidableEq, Repr

/-- The encoder is Done; `E.rem` is unspecified there (R27). -/
def eDone (r : U64) (e : Encoder) : Encoder := { e with rem := r, state := .done }

/-- The old octet E.FIRST keeps bits of: read only if `E.N < 8`, else 0 (R138, R54). -/
def oldFirstOctet (n : Width) (m : Memory) (a : Nat) : Option Octet :=
  if n.toNat < 8 then m.read a else some 0

/-- E.FIRST (R138). -/
def eFirstOn (r : U64) (a : Nat) (e : Encoder) (m : Memory) : Except Fault EncStep :=
  match oldFirstOctet e.N m a with
  | none => .error .unwrittenOctet
  | some old =>
    let keep := old &&& flagMask e.N
    if e.rem.toNat < maxp e.N then
      .ok ⟨eDone r e, m.write a (keep ||| e.rem.truncate 8)⟩
    else
      .ok ⟨{ e with rem := BitVec.ofNat 64 (e.rem.toNat - maxp e.N), state := .continuation },
        m.write a (keep ||| prefixMask e.N)⟩

/-- E.CONT with `E.rem >= 128`: writes `(E.rem % 128) + 128`, divides by 128 (R139). -/
def eMoreOn (a : Nat) (e : Encoder) (m : Memory) : EncStep :=
  ⟨{ e with rem := BitVec.ofNat 64 (e.rem.toNat / 128) },
    m.write a (BitVec.ofNat 8 (e.rem.toNat % 128 + 128))⟩

/-- E.CONT with `E.rem < 128`: to Final, no octet (R139). Any other state is kept. -/
def eSettle (e : Encoder) : Encoder :=
  if e.state = .continuation ∧ e.rem.toNat < 128 then { e with state := .final } else e

/-- E.FINAL with room: writes `E.rem[6:0]`, bit 7 clear (R140). -/
def eFinalOn (r : U64) (a : Nat) (e : Encoder) (m : Memory) : EncStep :=
  ⟨eDone r e, m.write a (BitVec.ofNat 8 (e.rem.toNat % 128))⟩

/-- The micro-step that writes one octet, by the state tag (R136). -/
def eOctetOn (r : U64) (a : Nat) (e : Encoder) (m : Memory) : Except Fault EncStep :=
  match e.state with
  | .first => eFirstOn r a e m
  | .continuation => .ok (eMoreOn a e m)
  | .final => .ok (eFinalOn r a e m)
  | .idle => .ok ⟨e, m⟩
  | .done => .ok ⟨e, m⟩

/-! ## ENC.RUN on an encoder context -/

/-- What a run of the encoder ends with: the registers, the host's buffer, `cnt`, `err`. -/
structure EncResult where
  e   : Encoder
  mem : Memory
  cnt : Nat
  err : Err
  deriving DecidableEq, Repr

/-- The loop of R136 with `room` octets of capacity left, the next octet to write being the one at
address `a`, `w` octets written so far. The octet-less pass of E.CONT is `eSettle`. -/
def encLoop (r : U64) : (room : Nat) → (a w : Nat) → Encoder → Memory → Except Fault EncResult
  | 0, _, w, e, m =>
    if e.state = .done then .ok ⟨e, m, w, .none⟩ else .ok ⟨eSettle e, m, w, .needsMore⟩
  | room + 1, a, w, e, m =>
    if e.state = .done then .ok ⟨e, m, w, .none⟩
    else
      match eOctetOn r a (eSettle e) m with
      | .error f => .error f
      | .ok x => encLoop r room (a + 1) (w + 1) x.e x.mem

/-- The checks made before any octet is written, in the order of R136 (R133 to R135). -/
def encPrecheck (cap : Nat) (e : Encoder) : Option Err :=
  if e.state = .idle then some .preconditionViolation
  else if e.state = .done then some .none
  else if cap = 0 then some .needsMore
  else none

/-- `ENC.RUN` over the view of `cap` octets at `off`, carried out on the context `e` (R136). -/
def encRunOn (r : U64) (off cap : Nat) (e : Encoder) (m : Memory) : Except Fault EncResult :=
  match encPrecheck cap e with
  | some err => .ok ⟨e, m, 0, err⟩
  | none => encLoop r cap off 0 e m

/-- An encoder fresh from construction under a legal `n` (R130). -/
def freshEncoder (value : U64) (n : Width) : Encoder := { state := .first, N := n, rem := value }

/-- The results of an `ENC.RUN` that ended with `err` after `cnt` octets (R31, R136). -/
def finishEnc (e : Encoder) (cnt : Nat) (err : Err) (s : State) : State :=
  finish cnt none err (encDone e) s

end Sys2Proof.Machine
end

