-- ==== Sys2Proof/Machine/DecoderOps.lean ====
section
/-! DEFINITION. The decoder family (41_decoder.md): DEC.INIT, DEC.RUN, and the micro-steps D.FIRST,
D.CONT on the invocation in progress. -/

namespace Sys2Proof.Machine

/-- `DEC.INIT n` (R100): allowed in every state of the unit; a bad `n` leaves it Idle. No move while an
operation is in progress on the unit (R207). -/
def execDecInit (n : Width) (s : State) : Out :=
  if s.decFlight.isSome then .refused .unitBusy
  else if badWidth n then .next (raisePrecondition { s with dec := { s.dec with state := .idle } })
  else .next (finish 0 none .none false { s with dec := freshDecoder n })

/-- `DEC.RUN view` (R110). -/
def execDecRun (view : List Octet) (s : State) : Out :=
  if s.decFlight.isSome then .refused .unitBusy
  else
    let r := decRunOn view s.dec
    .next (finishDec r { s with dec := r.d })

/-- The return of the `DEC.RUN` in progress (R110). -/
def retireDec (r : DecResult) (s : State) : State :=
  finishDec r { s with dec := r.d, decFlight := none }

/-- The micro-step the decoder takes on the octet `b` read at the cursor of `f`: D.FIRST in First (R104),
D.CONT in Continuation (R105; R106, which ends the operation, the octet not counted). -/
def decMicro (b : Octet) (f : DecFlight) (s : State) : State :=
  if s.dec.state = .first then
    { s with dec := dFirstOn b s.dec, decFlight := some { f with cursor := f.cursor + 1 } }
  else if overflows b s.dec then retireDec ⟨dFail s.dec, f.cursor, .tooLarge⟩ s
  else { s with dec := dContOn b s.dec, decFlight := some { f with cursor := f.cursor + 1 } }

/-- A micro-step selected by the tag `t` on the octet under the cursor; taken only when the cursor is
inside the view (41_decoder.md section 3), not selected otherwise (R81). -/
def decMicroAtCursor (t : DecTag) (s : State) : Out :=
  match s.decFlight with
  | none => .refused .notSelected
  | some f =>
    match f.view[f.cursor]? with
    | none => .refused .notSelected
    | some b => if s.dec.state = t then .next (decMicro b f s) else .refused .notSelected

/-- Micro-step D.FIRST (R104). -/
def execDFirst (s : State) : Out := decMicroAtCursor .first s

/-- Micro-step D.CONT (R105, R106). -/
def execDCont (s : State) : Out := decMicroAtCursor .continuation s

end Sys2Proof.Machine
end

