-- ==== Sys2Proof/Machine/EncoderOps.lean ====
section
/-! DEFINITION. The encoder family (42_encoder.md): ENC.INIT, ENC.RUN, and the micro-steps E.FIRST,
E.CONT, E.FINAL on the invocation in progress. -/

namespace Sys2Proof.Machine

/-- `ENC.INIT value, n` (R130): allowed in every state of the unit; a bad `n` leaves it Idle. No move
while an operation is in progress on the unit (R207). -/
def execEncInit (value : U64) (n : Width) (s : State) : Out :=
  if s.encFlight.isSome then .refused .unitBusy
  else if badWidth n then .next (raisePrecondition { s with enc := { s.enc with state := .idle } })
  else .next (finish 0 none .none false { s with enc := freshEncoder value n })

/-- `ENC.RUN dst+off, cap` (R136). -/
def execEncRun (off cap : Nat) (s : State) : Out :=
  if s.encFlight.isSome then .refused .unitBusy
  else
    match encRunOn (Config.freeRem s.draws) off cap s.enc s.mem with
    | .error f => .fault f
    | .ok r => .next (finishEnc r.e r.cnt r.err { s with enc := r.e, mem := r.mem })

/-- The return of the `ENC.RUN` in progress (R136). -/
def retireEnc (cnt : Nat) (err : Err) (s : State) : State :=
  finishEnc s.enc cnt err { s with encFlight := none }

/-- The effect of a micro-step that wrote the octet under the cursor: `w <- w + 1`. -/
def afterOctet (x : EncStep) (f : EncFlight) (s : State) : State :=
  { s with enc := x.e, mem := x.mem, encFlight := some { f with cursor := f.cursor + 1 } }

/-- Micro-step E.FIRST (R138): needs `w < len`. -/
def execEFirst (s : State) : Out :=
  match s.encFlight with
  | none => .refused .notSelected
  | some f =>
    if s.enc.state = .first ∧ f.cursor < f.cap then
      match eFirstOn (Config.freeRem s.draws) (f.off + f.cursor) s.enc s.mem with
      | .error e => .fault e
      | .ok x => .next (afterOctet x f s)
    else .refused .notSelected

/-- Micro-step E.CONT (R139): below 128 it moves to Final, whatever the capacity; else it writes an
octet, or raises NeedsMore when the capacity is used up. -/
def execECont (s : State) : Out :=
  match s.encFlight with
  | none => .refused .notSelected
  | some f =>
    if s.enc.state = .continuation then
      if s.enc.rem.toNat < 128 then .next { s with enc := eSettle s.enc }
      else if f.cursor < f.cap then .next (afterOctet (eMoreOn (f.off + f.cursor) s.enc s.mem) f s)
      else .next (retireEnc f.cursor .needsMore s)
    else .refused .notSelected

/-- Micro-step E.FINAL (R140): writes the last octet, or raises NeedsMore when there is no room. -/
def execEFinal (s : State) : Out :=
  match s.encFlight with
  | none => .refused .notSelected
  | some f =>
    if s.enc.state = .final then
      if f.cursor < f.cap then
        .next (afterOctet (eFinalOn (Config.freeRem s.draws) (f.off + f.cursor) s.enc s.mem) f s)
      else .next (retireEnc f.cursor .needsMore s)
    else .refused .notSelected

end Sys2Proof.Machine
end

