-- ==== Sys2Proof/Machine/Helper.lean ====
section
/-! DEFINITION. The two pure functions (40_prefix_helper.md): MPV, ROCT. They may be issued at any
time, in any state of either unit (R96). -/

namespace Sys2Proof.Machine

/-- The loop of R91: divide by 128 until below 128, one octet a division. The first argument bounds
the divisions; a 64-bit remainder needs at most 9 (R92). -/
def roctLoop : Nat → Nat → Nat → Nat
  | 0, _, c => c
  | fuel + 1, r, c => if 128 ≤ r then roctLoop fuel (r / 128) (c + 1) else c

/-- `required_octets(value, n)` (R91). -/
def requiredOctets (value : U64) (n : Width) : Nat :=
  if value.toNat < maxp n then 1 else roctLoop 10 (value.toNat - maxp n) 2

/-- `MPV n` (R90, R95). -/
def execMpv (n : Width) (s : State) : Out :=
  if badWidth n then .next (raisePrecondition s)
  else .next (finish (maxp n) none .none false s)

/-- `ROCT value, n` (R91, R95). -/
def execRoct (value : U64) (n : Width) (s : State) : Out :=
  if badWidth n then .next (raisePrecondition s)
  else .next (finish (requiredOctets value n) none .none false s)

end Sys2Proof.Machine
end

