-- ==== Sys2Proof/Machine/Octets.lean ====
section
/-! DEFINITION. The wire format's rows (30_encoding.md R71, R72, R76): what the decoder unit does when
the octet at its cursor is of the given layout or class. An octet 0 row applies to a decoder in First
bound to the row's width, a continuation row to one in Continuation (R75); another octet, width or tag
does not select the row (R81). -/

namespace Sys2Proof.Machine

/-- The octet `b` is at the cursor of the decoder's operation in progress and the tag is `t`. -/
def takeOctet (t : DecTag) (b : Octet) (s : State) : Out :=
  match s.decFlight with
  | none => .refused .notSelected
  | some f =>
    if s.dec.state = t ∧ f.cursor < f.view.length then .next (decMicro b f s)
    else .refused .notSelected

/-- An octet 0 read under the prefix width `n` (R71, R104). -/
def takeOctet0 (n : Width) (b : Octet) (s : State) : Out :=
  if s.dec.N = n then takeOctet .first b s else .refused .notSelected

/-- An octet 0 of class SHORT: one whose value field `v` is below the sentinel (R76). -/
def takeShort {k : Nat} (n : Width) (v : BitVec k) (b : Octet) (s : State) : Out :=
  if belowSentinel v then takeOctet0 n b s else .refused .notSelected

/-- OCTET0.N1 (R71). -/
def execOctet0N1 (f : BitVec 7) (v : BitVec 1) (s : State) : Out :=
  takeOctet0 1 (f ++ v) s

/-- OCTET0.N1.LONG (R76). -/
def execOctet0N1Long (f : BitVec 7) (s : State) : Out :=
  takeOctet0 1 (f ++ BitVec.allOnes 1) s

/-- OCTET0.N1.SHORT (R76). -/
def execOctet0N1Short (f : BitVec 7) (v : BitVec 1) (s : State) : Out :=
  takeShort 1 v (f ++ v) s

/-- OCTET0.N2 (R71). -/
def execOctet0N2 (f : BitVec 6) (v : BitVec 2) (s : State) : Out :=
  takeOctet0 2 (f ++ v) s

/-- OCTET0.N2.LONG (R76). -/
def execOctet0N2Long (f : BitVec 6) (s : State) : Out :=
  takeOctet0 2 (f ++ BitVec.allOnes 2) s

/-- OCTET0.N2.SHORT (R76). -/
def execOctet0N2Short (f : BitVec 6) (v : BitVec 2) (s : State) : Out :=
  takeShort 2 v (f ++ v) s

/-- OCTET0.N3 (R71). -/
def execOctet0N3 (f : BitVec 5) (v : BitVec 3) (s : State) : Out :=
  takeOctet0 3 (f ++ v) s

/-- OCTET0.N3.LONG (R76). -/
def execOctet0N3Long (f : BitVec 5) (s : State) : Out :=
  takeOctet0 3 (f ++ BitVec.allOnes 3) s

/-- OCTET0.N3.SHORT (R76). -/
def execOctet0N3Short (f : BitVec 5) (v : BitVec 3) (s : State) : Out :=
  takeShort 3 v (f ++ v) s

/-- OCTET0.N4 (R71). -/
def execOctet0N4 (f : BitVec 4) (v : BitVec 4) (s : State) : Out :=
  takeOctet0 4 (f ++ v) s

/-- OCTET0.N4.LONG (R76). -/
def execOctet0N4Long (f : BitVec 4) (s : State) : Out :=
  takeOctet0 4 (f ++ BitVec.allOnes 4) s

/-- OCTET0.N4.SHORT (R76). -/
def execOctet0N4Short (f : BitVec 4) (v : BitVec 4) (s : State) : Out :=
  takeShort 4 v (f ++ v) s

/-- OCTET0.N5 (R71). -/
def execOctet0N5 (f : BitVec 3) (v : BitVec 5) (s : State) : Out :=
  takeOctet0 5 (f ++ v) s

/-- OCTET0.N5.LONG (R76). -/
def execOctet0N5Long (f : BitVec 3) (s : State) : Out :=
  takeOctet0 5 (f ++ BitVec.allOnes 5) s

/-- OCTET0.N5.SHORT (R76). -/
def execOctet0N5Short (f : BitVec 3) (v : BitVec 5) (s : State) : Out :=
  takeShort 5 v (f ++ v) s

/-- OCTET0.N6 (R71). -/
def execOctet0N6 (f : BitVec 2) (v : BitVec 6) (s : State) : Out :=
  takeOctet0 6 (f ++ v) s

/-- OCTET0.N6.LONG (R76). -/
def execOctet0N6Long (f : BitVec 2) (s : State) : Out :=
  takeOctet0 6 (f ++ BitVec.allOnes 6) s

/-- OCTET0.N6.SHORT (R76). -/
def execOctet0N6Short (f : BitVec 2) (v : BitVec 6) (s : State) : Out :=
  takeShort 6 v (f ++ v) s

/-- OCTET0.N7 (R71). -/
def execOctet0N7 (f : BitVec 1) (v : BitVec 7) (s : State) : Out :=
  takeOctet0 7 (f ++ v) s

/-- OCTET0.N7.LONG (R76). -/
def execOctet0N7Long (f : BitVec 1) (s : State) : Out :=
  takeOctet0 7 (f ++ BitVec.allOnes 7) s

/-- OCTET0.N7.SHORT (R76). -/
def execOctet0N7Short (f : BitVec 1) (v : BitVec 7) (s : State) : Out :=
  takeShort 7 v (f ++ v) s

/-- OCTET0.N8 (R71). -/
def execOctet0N8 (v : BitVec 8) (s : State) : Out :=
  takeOctet0 8 v s

/-- OCTET0.N8.LONG (R76). -/
def execOctet0N8Long (s : State) : Out :=
  takeOctet0 8 (BitVec.allOnes 8) s

/-- OCTET0.N8.SHORT (R76). -/
def execOctet0N8Short (v : BitVec 8) (s : State) : Out :=
  takeShort 8 v v s

/-- CONT.MORE (R72, R105, R106). -/
def execContMore (p : BitVec 7) (s : State) : Out := takeOctet .continuation (1#1 ++ p) s

/-- CONT.LAST (R72, R105, R106). -/
def execContLast (p : BitVec 7) (s : State) : Out := takeOctet .continuation (0#1 ++ p) s

end Sys2Proof.Machine
end

