-- ==== Sys2Proof/Machine/OneShot.lean ====
section
/-! DEFINITION. The one-shot pair (43_oneshot.md): DEC1, ENC1. Each runs the resumable operation on a
scratch context of its own; no register of either unit is read or written. -/

namespace Sys2Proof.Machine

/-- `DEC1 n, view` (R160). -/
def execDec1 (n : Width) (view : List Octet) (s : State) : Out :=
  if badWidth n then .next (raisePrecondition s)
  else
    let r := decRunOn view (freshDecoder n)
    .next (finish r.cnt (decValue r.d) r.err (oneShotDone r.err) s)

/-- The view meets the destination view of an `ENC.RUN` in progress (R207). -/
def destinationInUse (off cap : Nat) (s : State) : Bool :=
  match s.encFlight with
  | none => false
  | some f => viewsOverlap off cap f.off f.cap

/-- `ENC1 value, n, dst+off, cap` (R161). No move over the view of an operation in progress (R207). -/
def execEnc1 (value : U64) (n : Width) (off cap : Nat) (s : State) : Out :=
  if badWidth n then .next (raisePrecondition s)
  else if destinationInUse off cap s then .refused .viewInUse
  else
    match encRunOn (Config.freeRem s.draws) off cap (freshEncoder value n) s.mem with
    | .error f => .fault f
    | .ok r => .next (finish r.cnt none r.err (oneShotDone r.err) { s with mem := r.mem })

end Sys2Proof.Machine
end

