-- ==== Sys2Proof/Machine/Dispatch.lean ====
section
/-! DEFINITION. One arm per constructor of Instr, one per row of spec/opcode_table.json. -/

namespace Sys2Proof.Machine

/-- The meaning of an instruction. -/
def exec (i : Instr) (s : State) : Host.Outcome State Fault Refusal :=
  match i with
  | .mpv n => Sys2Proof.Machine.execMpv n s
  | .roct value n => Sys2Proof.Machine.execRoct value n s
  | .decInit n => Sys2Proof.Machine.execDecInit n s
  | .decRun view => Sys2Proof.Machine.execDecRun view s
  | .encInit value n => Sys2Proof.Machine.execEncInit value n s
  | .encRun off cap => Sys2Proof.Machine.execEncRun off cap s
  | .dec1 n view => Sys2Proof.Machine.execDec1 n view s
  | .enc1 value n off cap => Sys2Proof.Machine.execEnc1 value n off cap s
  | .dFirst => Sys2Proof.Machine.execDFirst s
  | .dCont => Sys2Proof.Machine.execDCont s
  | .eFirst => Sys2Proof.Machine.execEFirst s
  | .eCont => Sys2Proof.Machine.execECont s
  | .eFinal => Sys2Proof.Machine.execEFinal s
  | .octet0N1 f v => Sys2Proof.Machine.execOctet0N1 f v s
  | .octet0N1Long f => Sys2Proof.Machine.execOctet0N1Long f s
  | .octet0N1Short f v => Sys2Proof.Machine.execOctet0N1Short f v s
  | .octet0N2 f v => Sys2Proof.Machine.execOctet0N2 f v s
  | .octet0N2Long f => Sys2Proof.Machine.execOctet0N2Long f s
  | .octet0N2Short f v => Sys2Proof.Machine.execOctet0N2Short f v s
  | .octet0N3 f v => Sys2Proof.Machine.execOctet0N3 f v s
  | .octet0N3Long f => Sys2Proof.Machine.execOctet0N3Long f s
  | .octet0N3Short f v => Sys2Proof.Machine.execOctet0N3Short f v s
  | .octet0N4 f v => Sys2Proof.Machine.execOctet0N4 f v s
  | .octet0N4Long f => Sys2Proof.Machine.execOctet0N4Long f s
  | .octet0N4Short f v => Sys2Proof.Machine.execOctet0N4Short f v s
  | .octet0N5 f v => Sys2Proof.Machine.execOctet0N5 f v s
  | .octet0N5Long f => Sys2Proof.Machine.execOctet0N5Long f s
  | .octet0N5Short f v => Sys2Proof.Machine.execOctet0N5Short f v s
  | .octet0N6 f v => Sys2Proof.Machine.execOctet0N6 f v s
  | .octet0N6Long f => Sys2Proof.Machine.execOctet0N6Long f s
  | .octet0N6Short f v => Sys2Proof.Machine.execOctet0N6Short f v s
  | .octet0N7 f v => Sys2Proof.Machine.execOctet0N7 f v s
  | .octet0N7Long f => Sys2Proof.Machine.execOctet0N7Long f s
  | .octet0N7Short f v => Sys2Proof.Machine.execOctet0N7Short f v s
  | .octet0N8 v => Sys2Proof.Machine.execOctet0N8 v s
  | .octet0N8Long => Sys2Proof.Machine.execOctet0N8Long s
  | .octet0N8Short v => Sys2Proof.Machine.execOctet0N8Short v s
  | .contMore p => Sys2Proof.Machine.execContMore p s
  | .contLast p => Sys2Proof.Machine.execContLast p s

end Sys2Proof.Machine
end

