-- ==== Sys2Proof/Machine/Sequencer.lean ====
section
/-! DEFINITION. What step carries out: the host's next act (00_scope.md R14), and the passes of an
operation in progress (41_decoder.md R110, 42_encoder.md R136). -/

namespace Sys2Proof.Machine

/-- Runs the instruction a word stands for. -/
def runWord (w : InstrWord) (s : State) : Out :=
  match decode w with
  | .error e => .refused (.undecodable e)
  | .ok i => exec i s

/-- The word the decoder reads from the octet `b` at its cursor: an octet 0 under `D.N` in First, a
continuation octet in Continuation (R75); in any other state its tag, which selects nothing. -/
def octetWord (b : Octet) (d : Decoder) : InstrWord :=
  match d.state with
  | .first => .octet0 d.N b
  | .continuation => .cont b
  | .idle => .decTag (DecTag.code .idle)
  | .done => .decTag (DecTag.code .done)
  | .failed => .decTag (DecTag.code .failed)

/-- One pass of the loop of R110: return if Done or if the view is used up (R111), else fetch the octet
under the cursor and run it. A unit with no operation in progress takes no step (R8). -/
def tickDec (s : State) : Out :=
  match s.decFlight with
  | none => .next s
  | some f =>
    if s.dec.state = .done then .next (retireDec ⟨s.dec, f.cursor, .none⟩ s)
    else
      match f.view[f.cursor]? with
      | none => .next (retireDec ⟨s.dec, f.cursor, .needsMore⟩ s)
      | some b => runWord (octetWord b s.dec) s

/-- One pass of the loop of R136: return if Done, else the micro-step the tag selects (R81). -/
def tickEnc (s : State) : Out :=
  match s.encFlight with
  | none => .next s
  | some f =>
    if s.enc.state = .done then .next (retireEnc f.cursor .none s)
    else runWord (.encTag s.enc.state.code) s

def tick (u : UnitId) (s : State) : Out :=
  match u with
  | .decoder => tickDec s
  | .encoder => tickEnc s

/-- `DEC.RUN` begun, its octets to be taken one micro-step at a time (R9): the checks of R101 to R103
end it at once, or it is in progress with its cursor at 0 (R41). -/
def beginDecRun (view : List Octet) (s : State) : Out :=
  if s.decFlight.isSome then .refused .unitBusy
  else
    match decPrecheck view s.dec with
    | some err => .next (finishDec ⟨s.dec, 0, err⟩ s)
    | none => .next { s with decFlight := some { view := view, cursor := 0 } }

/-- `ENC.RUN` begun likewise, after the checks of R133 to R135. -/
def beginEncRun (off cap : Nat) (s : State) : Out :=
  if s.encFlight.isSome then .refused .unitBusy
  else
    match encPrecheck cap s.enc with
    | some err => .next (finishEnc s.enc 0 err s)
    | none => .next { s with encFlight := some { off := off, cap := cap, cursor := 0 } }

/-- An instruction issued stepwise: the two `RUN` operations are begun; every other operation has no
micro-steps to be divided into on a unit and runs whole. -/
def beginInstr (i : Instr) (s : State) : Out :=
  match i with
  | .decRun view => beginDecRun view s
  | .encRun off cap => beginEncRun off cap s
  | j => exec j s

/-- The host writes an octet of its own buffer; no move inside the view of an operation in progress
(20_memory.md R65, R207). -/
def hostWrite (a : Nat) (b : Octet) (s : State) : Out :=
  match s.encFlight with
  | none => .next { s with mem := s.mem.write a b }
  | some f =>
    if f.off ≤ a ∧ a < f.off + f.cap then .refused .viewInUse
    else .next { s with mem := s.mem.write a b }

def perform (act : HostAct) (s : State) : Out :=
  match act with
  | .issue p => runWord (.cmd p) s
  | .issueStepwise p =>
    match decode (.cmd p) with
    | .error e => .refused (.undecodable e)
    | .ok i => beginInstr i s
  | .tick u => tick u s
  | .hostWrite a b => hostWrite a b s

/-- Nothing more from the host: an operation in progress goes on, the decoder's first
(notes/assumptions/14.md); with none, the block does nothing (R200). -/
def unattended (s : State) : Out :=
  match s.decFlight with
  | some _ => tickDec s
  | none => tickEnc s

/-- The next act, or what happens with none left. -/
def advance (s : State) : Out :=
  match s.pending with
  | [] => unattended s
  | act :: rest => perform act { s with pending := rest }

/-! ## Placing one instruction for the next step -/

/-- An operation in progress on the decoder whose only octet is `b`, at its cursor, the decoder about to
read it; its own context is the smallest legal one. -/
def placeOctet (d : Decoder) (b : Octet) (s : State) : State :=
  { s with dec := d, decFlight := some { view := [b], cursor := 0 }, pending := .tick .decoder :: s.pending }

/-- The state in which the next step runs the word: a command is issued by the host; an octet is put
under the cursor of a decoder that reads it so. A tag is state of the unit, not a word anyone places (R81),
and no table number stands for one (`tableWord`): its unit takes its next pass. notes/assumptions/16.md. -/
def placeWord (w : InstrWord) (s : State) : State :=
  match w with
  | .cmd p => { s with pending := .issue p :: s.pending }
  | .octet0 n b => placeOctet (freshDecoder n) b s
  | .cont b => placeOctet { state := .continuation, N := 1, v := 1, M := 0 } b s
  | .layout n b => placeOctet (freshDecoder n) b s
  | .decTag _ => { s with pending := .tick .decoder :: s.pending }
  | .encTag _ => { s with pending := .tick .encoder :: s.pending }

/-- Ports that are no instruction: the length contradicts the view (R30). -/
def brokenPorts : Ports := { op := 3, n := 0, valIn := 0, len := 1, src := [], dst := 0 }

/-- The table's number `w` placed for the next step; a number that is no word is placed as ports the
decoder rejects. -/
def placeTableWord (nbits w : Nat) (s : State) : State :=
  match tableWord nbits w with
  | .error _ => placeWord (.cmd brokenPorts) s
  | .ok word => placeWord word s

end Sys2Proof.Machine
end

