-- ==== Sys2Proof/Machine/Step.lean ====
section
/-! DEFINITION. One step of the machine: the host's next act, or a pass of an operation in progress. -/

namespace Sys2Proof.Machine

def step (s : State) : Host.Outcome State Fault Refusal := advance s

/-- `s` with the instruction that the opcode table numbers `w` placed where the next step takes it. -/
def State.withFetchWord (s : State) (nbits w : Nat) : State := placeTableWord nbits w s

end Sys2Proof.Machine
end

