-- ==== Sys2Proof/Safety.lean ====
section
/-! DEFINITION. The terms claims use: what a legal state is (10_state.md R29, R22, R26, R41), which
outcome answers a next state, runs of several steps or operations, which instructions are the
decoder's and the encoder's, and what the spec's sections 30_encoding.md section 2 call the value and
the canonical encoding of an octet sequence. -/

namespace Sys2Proof.Machine

/-! ## Legal states -/

/-- R29 (a), (b), (c) for the decoder's registers. `D.v <= U64MAX` holds by its width. -/
abbrev Decoder.legal (d : Decoder) : Prop :=
  (d.state ≠ .idle → 1 ≤ d.N.toNat ∧ d.N.toNat ≤ 8) ∧
  d.M % 7 = 0 ∧
  (d.state = .continuation → maxp d.N ≤ d.v.toNat)

/-- R29 (a), (d), (e) for the encoder's registers; (d) at operation boundaries only. -/
abbrev Encoder.legal (inFlight : Bool) (e : Encoder) : Prop :=
  (e.state ≠ .idle → 1 ≤ e.N.toNat ∧ e.N.toNat ≤ 8) ∧
  (e.state = .continuation → inFlight = false → 128 ≤ e.rem.toNat) ∧
  (e.state = .final → e.rem.toNat < 128)

/-- A `DEC.RUN` in progress: the unit holds an instance that has not failed, the cursor is inside the
view or at its end (R41), and an instance in First has an octet to read at offset 0 (R111). -/
abbrev DecFlight.legal (d : Decoder) (f : DecFlight) : Prop :=
  d.state ≠ .idle ∧ d.state ≠ .failed ∧ f.cursor ≤ f.view.length ∧
  (d.state = .first → f.cursor = 0 ∧ 0 < f.view.length)

/-- An `ENC.RUN` in progress, likewise (R41, R136). -/
abbrev EncFlight.legal (e : Encoder) (f : EncFlight) : Prop :=
  e.state ≠ .idle ∧ f.cursor ≤ f.cap ∧ (e.state = .first → f.cursor = 0 ∧ 0 < f.cap)

/-- The invariant of the machine. -/
abbrev State.legal (s : State) : Prop :=
  s.dec.legal ∧ s.enc.legal s.encFlight.isSome ∧ Memory.wf s.mem ∧
  (∀ f ∈ s.decFlight, f.legal s.dec) ∧ (∀ f ∈ s.encFlight, f.legal s.enc)

/-! ## Outcomes and runs -/

/-- The outcome is a next state with the property. -/
def Leads (o : Out) (P : State → Prop) : Prop := ∃ t, o = .next t ∧ P t

/-- The outcome carried on by `f` where it is a next state. -/
def Then (o : Out) (f : State → Out) : Out :=
  match o with
  | .next t => f t
  | .fault e => .fault e
  | .refused r => .refused r

/-- The outcome with its next state changed. -/
def mapNext (f : State → State) (o : Out) : Out := Then o (fun t => .next (f t))

/-- `k` steps of the machine, stopping at the first fault or refusal. -/
def steps : Nat → State → Out
  | 0, s => .next s
  | k + 1, s => Then (step s) (steps k)

/-- One `DEC.RUN` a piece, in order: the sum of the `cnt` results and the state after the last. -/
def decRuns : List (List Octet) → Nat → State → Option (Nat × State)
  | [], c, s => some (c, s)
  | p :: ps, c, s =>
    match exec (.decRun p) s with
    | .next t => decRuns ps (c + t.out.cnt) t
    | .fault _ => none
    | .refused _ => none

/-- One `ENC.RUN` a capacity, each view starting where the last write ended (20_memory.md R66): the
results of every call and the state after the last. -/
def encRuns : List Nat → Nat → State → Option (List Results × State)
  | [], _, s => some ([], s)
  | c :: cs, off, s =>
    match exec (.encRun off c) s with
    | .next t =>
      match encRuns cs (off + t.out.cnt) t with
      | some (rs, u) => some (t.out :: rs, u)
      | none => none
    | .fault _ => none
    | .refused _ => none

/-! ## The sides of the block -/

/-- The decoder's instructions: the operations and micro-steps of the decoder unit, the one-shot decode,
and the octets of the wire format (R44, R56). -/
def decoderSide : Instr → Bool
  | .decInit _ => true
  | .decRun _ => true
  | .dec1 _ _ => true
  | .dFirst => true
  | .dCont => true
  | .octet0N1 _ _ => true
  | .octet0N1Long _ => true
  | .octet0N1Short _ _ => true
  | .octet0N2 _ _ => true
  | .octet0N2Long _ => true
  | .octet0N2Short _ _ => true
  | .octet0N3 _ _ => true
  | .octet0N3Long _ => true
  | .octet0N3Short _ _ => true
  | .octet0N4 _ _ => true
  | .octet0N4Long _ => true
  | .octet0N4Short _ _ => true
  | .octet0N5 _ _ => true
  | .octet0N5Long _ => true
  | .octet0N5Short _ _ => true
  | .octet0N6 _ _ => true
  | .octet0N6Long _ => true
  | .octet0N6Short _ _ => true
  | .octet0N7 _ _ => true
  | .octet0N7Long _ => true
  | .octet0N7Short _ _ => true
  | .octet0N8 _ => true
  | .octet0N8Long => true
  | .octet0N8Short _ => true
  | .contMore _ => true
  | .contLast _ => true
  | .mpv _ => false
  | .roct _ _ => false
  | .encInit _ _ => false
  | .encRun _ _ => false
  | .enc1 _ _ _ _ => false
  | .eFirst => false
  | .eCont => false
  | .eFinal => false

/-- The encoder's instructions (R44, R56). -/
def encoderSide : Instr → Bool
  | .encInit _ _ => true
  | .encRun _ _ => true
  | .enc1 _ _ _ _ => true
  | .eFirst => true
  | .eCont => true
  | .eFinal => true
  | .mpv _ => false
  | .roct _ _ => false
  | .decInit _ => false
  | .decRun _ => false
  | .dec1 _ _ => false
  | .dFirst => false
  | .dCont => false
  | .octet0N1 _ _ => false
  | .octet0N1Long _ => false
  | .octet0N1Short _ _ => false
  | .octet0N2 _ _ => false
  | .octet0N2Long _ => false
  | .octet0N2Short _ _ => false
  | .octet0N3 _ _ => false
  | .octet0N3Long _ => false
  | .octet0N3Short _ _ => false
  | .octet0N4 _ _ => false
  | .octet0N4Long _ => false
  | .octet0N4Short _ _ => false
  | .octet0N5 _ _ => false
  | .octet0N5Long _ => false
  | .octet0N5Short _ _ => false
  | .octet0N6 _ _ => false
  | .octet0N6Long _ => false
  | .octet0N6Short _ _ => false
  | .octet0N7 _ _ => false
  | .octet0N7Long _ => false
  | .octet0N7Short _ _ => false
  | .octet0N8 _ => false
  | .octet0N8Long => false
  | .octet0N8Short _ => false
  | .contMore _ => false
  | .contLast _ => false

/-! ## The value and the canonical encoding of an integer (30_encoding.md section 2) -/

/-- The sum of R73 over continuation octets: `B_j & 0x7F` with weight `2^(7 * (j - 1))`. -/
def payloadSum : List Octet → Nat
  | [] => 0
  | b :: bs => payload b + 2 ^ 7 * payloadSum bs

/-- The value R73 gives an octet 0 of class LONG followed by these continuation octets. -/
def assembled (n : Width) (conts : List Octet) : Nat := maxp n + payloadSum conts

/-- The base-128 digits of the remainder, least significant first, at least one (R74). -/
def remainderDigits (r : Nat) : List Nat := if r = 0 then [0] else Nat.digits 128 r

/-- The continuation octets of R74: every digit but the last with 128 added. -/
def canonicalTail (r : Nat) : List Octet :=
  (remainderDigits r).dropLast.map (fun d => BitVec.ofNat 8 (d + 128)) ++
    [BitVec.ofNat 8 ((remainderDigits r).getLastD 0)]

/-- The canonical encoding of `value` under `n` (R74), octet 0 keeping the flag bits of `old` (R79). -/
def canonicalOctets (n : Width) (value : U64) (old : Octet) : List Octet :=
  if value.toNat < maxp n then [(old &&& flagMask n) ||| BitVec.ofNat 8 value.toNat]
  else ((old &&& flagMask n) ||| prefixMask n) :: canonicalTail (value.toNat - maxp n)

/-- The octets of the host's buffer at `off .. off + k - 1`. -/
def octetsAt (m : Memory) (off k : Nat) : List (Option Octet) :=
  (List.range k).map (fun j => m.read (off + j))

end Sys2Proof.Machine
end

