-- ==== Sys2Proof/Certificates/Slice0/Obligations.lean ====
section
/-! DEFINITION. The statements for the provers. Each docstring names the rules of spec/ it formalises. -/

open Sys2Proof Sys2Proof.Machine

/-! ## Encoding -/

/-- Decoding the word of a well-formed instruction gives the instruction back, for every row of the
opcode table (30_encoding.md R80, R81, R71, R72, R76). -/
def Obligations.DecodeEncodeAgree : Prop :=
  ∀ i : Instr, i.wellFormed = true → decode (encode i) = .ok i

/-- 30_encoding.md section 4: which operation each value of `op` is and which ports it reads. The two
operations with a source view need `len` to be its number of octets; otherwise the ports are rejected
(the model's reading of 10_state.md R30, log 18). -/
def Obligations.OpPortSelectsOperation : Prop :=
  ∀ (n : Width) (v : U64) (len : Nat) (src : List Octet) (dst : Nat),
    decode (.cmd ⟨0, n, v, len, src, dst⟩) = .ok (.mpv n) ∧
    decode (.cmd ⟨1, n, v, len, src, dst⟩) = .ok (.roct v n) ∧
    decode (.cmd ⟨2, n, v, len, src, dst⟩) = .ok (.decInit n) ∧
    decode (.cmd ⟨3, n, v, src.length, src, dst⟩) = .ok (.decRun src) ∧
    decode (.cmd ⟨4, n, v, len, src, dst⟩) = .ok (.encInit v n) ∧
    decode (.cmd ⟨5, n, v, len, src, dst⟩) = .ok (.encRun dst len) ∧
    decode (.cmd ⟨6, n, v, src.length, src, dst⟩) = .ok (.dec1 n src) ∧
    decode (.cmd ⟨7, n, v, len, src, dst⟩) = .ok (.enc1 v n dst len) ∧
    (len ≠ src.length →
      decode (.cmd ⟨3, n, v, len, src, dst⟩) = .error .viewLength ∧
      decode (.cmd ⟨6, n, v, len, src, dst⟩) = .error .viewLength)

/-- Words written out from the spec's encodings (30_encoding.md R80, R46, R71, R72). -/
def Obligations.WordsDecodeAsWrittenOut : Prop :=
  decode (.cmd ⟨0b010, 5, 0, 0, [], 0⟩) = .ok (.decInit 5) ∧
  decode (.decTag 0b001) = .ok .dFirst ∧
  decode (.encTag 0b011) = .ok .eFinal ∧
  decode (.octet0 5 0b111_01010) = .ok (.octet0N5Short 0b111 0b01010) ∧
  decode (.octet0 5 0b101_11111) = .ok (.octet0N5Long 0b101) ∧
  decode (.layout 3 0b10110_111) = .ok (.octet0N3 0b10110 0b111) ∧
  decode (.cont 0b1_0011010) = .ok (.contMore 0b0011010) ∧
  decode (.cont 0b0_0001010) = .ok (.contLast 0b0001010)

/-- 30_encoding.md R76: octet 0 is of class SHORT exactly when its value field is strictly below the
sentinel, else of class LONG; R79: the flag bits play no part. -/
def Obligations.OctetZeroClassIsStrict : Prop :=
  ∀ b : Octet,
    (b.toNat % 2 ^ 1 < maxp 1 →
      decode (.octet0 1 b) = .ok (.octet0N1Short (highBits 1 b) (lowBits 1 b))) ∧
    (b.toNat % 2 ^ 1 = maxp 1 → decode (.octet0 1 b) = .ok (.octet0N1Long (highBits 1 b))) ∧
    (b.toNat % 2 ^ 2 < maxp 2 →
      decode (.octet0 2 b) = .ok (.octet0N2Short (highBits 2 b) (lowBits 2 b))) ∧
    (b.toNat % 2 ^ 2 = maxp 2 → decode (.octet0 2 b) = .ok (.octet0N2Long (highBits 2 b))) ∧
    (b.toNat % 2 ^ 3 < maxp 3 →
      decode (.octet0 3 b) = .ok (.octet0N3Short (highBits 3 b) (lowBits 3 b))) ∧
    (b.toNat % 2 ^ 3 = maxp 3 → decode (.octet0 3 b) = .ok (.octet0N3Long (highBits 3 b))) ∧
    (b.toNat % 2 ^ 4 < maxp 4 →
      decode (.octet0 4 b) = .ok (.octet0N4Short (highBits 4 b) (lowBits 4 b))) ∧
    (b.toNat % 2 ^ 4 = maxp 4 → decode (.octet0 4 b) = .ok (.octet0N4Long (highBits 4 b))) ∧
    (b.toNat % 2 ^ 5 < maxp 5 →
      decode (.octet0 5 b) = .ok (.octet0N5Short (highBits 5 b) (lowBits 5 b))) ∧
    (b.toNat % 2 ^ 5 = maxp 5 → decode (.octet0 5 b) = .ok (.octet0N5Long (highBits 5 b))) ∧
    (b.toNat % 2 ^ 6 < maxp 6 →
      decode (.octet0 6 b) = .ok (.octet0N6Short (highBits 6 b) (lowBits 6 b))) ∧
    (b.toNat % 2 ^ 6 = maxp 6 → decode (.octet0 6 b) = .ok (.octet0N6Long (highBits 6 b))) ∧
    (b.toNat % 2 ^ 7 < maxp 7 →
      decode (.octet0 7 b) = .ok (.octet0N7Short (highBits 7 b) (lowBits 7 b))) ∧
    (b.toNat % 2 ^ 7 = maxp 7 → decode (.octet0 7 b) = .ok (.octet0N7Long (highBits 7 b))) ∧
    (b.toNat % 2 ^ 8 < maxp 8 →
      decode (.octet0 8 b) = .ok (.octet0N8Short (lowBits 8 b))) ∧
    (b.toNat % 2 ^ 8 = maxp 8 → decode (.octet0 8 b) = .ok .octet0N8Long)

/-- 30_encoding.md R72: bit 7 of a continuation octet is the more-follow flag, bits 6..0 the payload. -/
def Obligations.ContinuationOctetFields : Prop :=
  ∀ b : Octet,
    (128 ≤ b.toNat → decode (.cont b) = .ok (.contMore (BitVec.ofNat 7 (b.toNat - 128)))) ∧
    (b.toNat < 128 → decode (.cont b) = .ok (.contLast (BitVec.ofNat 7 b.toNat)))

/-! ## Reset, the invariant, the step -/

/-- 70_reset_and_hazards.md R200: after reset both units are Idle, `err` is None, `done` is 0, and the
block does nothing until the host issues an operation. -/
def Obligations.ResetIsIdleAndDoesNothing : Prop :=
  State.reset.dec.state = .idle ∧ State.reset.enc.state = .idle ∧
  State.reset.out.err = .none ∧ State.reset.out.done = false ∧
  State.reset.decFlight = none ∧ State.reset.encFlight = none ∧
  step State.reset = .next State.reset

/-- The state after reset is legal. -/
def Obligations.ResetIsLegal : Prop := State.reset.legal

/-- 10_state.md R29 with R22, R26, R41 and the canonical form of memory: every step from a legal state
gives a legal state. -/
def Obligations.StepKeepsLegal : Prop :=
  ∀ s t : State, s.legal → step s = .next t → t.legal

/-- A step runs the decoded instruction: an issued command on its ports, the octet under the decoder's
cursor, the micro-step the encoder's tag selects; a pass that finds the unit Done, or the decoder at the
end of its view, returns instead (R110, R136). -/
def Obligations.StepRunsDecodedInstruction : Prop :=
  (∀ (s : State) (p : Ports) (rest : List HostAct) (i : Instr),
    s.pending = .issue p :: rest → decode (.cmd p) = .ok i →
    step s = exec i { s with pending := rest }) ∧
  (∀ (s : State) (rest : List HostAct) (f : DecFlight) (b : Octet) (i : Instr),
    s.pending = .tick .decoder :: rest → s.decFlight = some f → s.dec.state ≠ .done →
    f.view[f.cursor]? = some b → decode (octetWord b s.dec) = .ok i →
    step s = exec i { s with pending := rest }) ∧
  (∀ (s : State) (rest : List HostAct) (f : DecFlight),
    s.pending = .tick .decoder :: rest → s.decFlight = some f →
    (s.dec.state = .done →
      step s = .next (retireDec ⟨s.dec, f.cursor, .none⟩ { s with pending := rest })) ∧
    (s.dec.state ≠ .done → f.view.length ≤ f.cursor →
      step s = .next (retireDec ⟨s.dec, f.cursor, .needsMore⟩ { s with pending := rest }))) ∧
  (∀ (s : State) (rest : List HostAct) (f : EncFlight),
    s.pending = .tick .encoder :: rest → s.encFlight = some f →
    (s.enc.state = .done →
      step s = .next (retireEnc f.cursor .none { s with pending := rest })) ∧
    (s.enc.state ≠ .done → ∀ i, decode (.encTag s.enc.state.code) = .ok i →
      step s = exec i { s with pending := rest })) ∧
  (∀ (s : State) (u : UnitId) (rest : List HostAct), s.pending = .tick u :: rest →
    (u = .decoder → s.decFlight = none) → (u = .encoder → s.encFlight = none) →
    step s = .next { s with pending := rest })

/-- 00_scope.md R9 for `DEC.RUN`: carried out micro-step by micro-step it gives the same state as carried
out whole; `len + 1` passes are enough (41_decoder.md R112: at most `len` micro-steps, and the return). -/
def Obligations.StepwiseDecRunIsAtomicDecRun : Prop :=
  ∀ (s : State) (view : List Octet) (rest : List HostAct),
    s.legal → s.decFlight = none →
    steps (view.length + 2)
      { s with pending := .issueStepwise ⟨3, 0, 0, view.length, view, 0⟩ ::
          List.replicate (view.length + 1) (.tick .decoder) ++ rest } =
    step { s with pending := .issue ⟨3, 0, 0, view.length, view, 0⟩ :: rest }

/-- 00_scope.md R9 for `ENC.RUN`, with the bound of 42_encoder.md R143: at most `len + 2` passes. -/
def Obligations.StepwiseEncRunIsAtomicEncRun : Prop :=
  ∀ (s : State) (off cap : Nat) (rest : List HostAct),
    s.legal → s.encFlight = none →
    steps (cap + 3)
      { s with pending := .issueStepwise ⟨5, 0, 0, cap, [], off⟩ ::
          List.replicate (cap + 2) (.tick .encoder) ++ rest } =
    step { s with pending := .issue ⟨5, 0, 0, cap, [], off⟩ :: rest }

/-- The octet rows and the micro-steps are one thing (30_encoding.md R81): a pass of the decoder over
the octet at its cursor, run as the octet's class, is D.FIRST in First and D.CONT in Continuation. -/
def Obligations.OctetClassIsMicroStep : Prop :=
  ∀ (s : State) (f : DecFlight) (b : Octet),
    s.legal → s.decFlight = some f → f.view[f.cursor]? = some b →
    (s.dec.state = .first → tickDec s = exec .dFirst s) ∧
    (s.dec.state = .continuation → tickDec s = exec .dCont s)

/-! ## Memory -/

/-- 20_memory.md R53: the decoder never writes memory. -/
def Obligations.DecoderNeverWritesMemory : Prop :=
  ∀ (i : Instr) (s t : State), decoderSide i = true → exec i s = .next t → t.mem = s.mem

/-! ## MPV and ROCT -/

/-- 40_prefix_helper.md R90: `MPV n`, for every value of the port. -/
def Obligations.MpvGivesMaximumPrefixValue : Prop :=
  ∀ (n : Width) (s : State),
    Leads (exec (.mpv n) s) fun t =>
      (1 ≤ n.toNat ∧ n.toNat ≤ 8 → t.out.cnt = 2 ^ n.toNat - 1 ∧ t.out.err = .none) ∧
      (n.toNat < 1 ∨ 8 < n.toNat → t.out.cnt = 0 ∧ t.out.err = .preconditionViolation) ∧
      t.out.done = false ∧
      t.dec = s.dec ∧ t.enc = s.enc ∧ t.mem = s.mem ∧
      t.decFlight = s.decFlight ∧ t.encFlight = s.encFlight ∧ t.pending = s.pending

/-- 40_prefix_helper.md R91: `ROCT value, n`: 1 below the sentinel, else 1 + the number of base-128 digits
of the remainder (one digit for the remainder 0); PreconditionViolation for a bad `n`. -/
def Obligations.RoctCountsOctets : Prop :=
  ∀ (value : U64) (n : Width) (s : State),
    Leads (exec (.roct value n) s) fun t =>
      (1 ≤ n.toNat ∧ n.toNat ≤ 8 →
        t.out.cnt = (if value.toNat < 2 ^ n.toNat - 1 then 1
          else 1 + (remainderDigits (value.toNat - (2 ^ n.toNat - 1))).length) ∧
        t.out.err = .none) ∧
      (n.toNat < 1 ∨ 8 < n.toNat → t.out.cnt = 0 ∧ t.out.err = .preconditionViolation) ∧
      t.out.done = false ∧
      t.dec = s.dec ∧ t.enc = s.enc ∧ t.mem = s.mem ∧
      t.decFlight = s.decFlight ∧ t.encFlight = s.encFlight ∧ t.pending = s.pending

/-- 40_prefix_helper.md R92: the closed form of `ROCT`, its greatest value, and the bound of 9 divisions
(more fuel for the loop changes nothing). -/
def Obligations.RoctClosedFormAndBounds : Prop :=
  ∀ (value : U64) (n : Width), 1 ≤ n.toNat → n.toNat ≤ 8 →
    (value.toNat < maxp n → requiredOctets value n = 1) ∧
    (maxp n ≤ value.toNat →
      (value.toNat - maxp n < 2 ^ 7 → requiredOctets value n = 2) ∧
      (∀ k, 1 ≤ k → k ≤ 9 → 2 ^ (7 * k) ≤ value.toNat - maxp n →
        value.toNat - maxp n < 2 ^ (7 * (k + 1)) → requiredOctets value n = k + 2) ∧
      (2 ^ 63 ≤ value.toNat - maxp n → requiredOctets value n = 11) ∧
      (∀ fuel, 9 ≤ fuel →
        roctLoop fuel (value.toNat - maxp n) 2 = requiredOctets value n)) ∧
    requiredOctets value n ≤ 11 ∧
    2 ^ 64 - 256 ≤ u64Max - maxp n ∧ requiredOctets (BitVec.ofNat 64 u64Max) n = 11

/-- 40_prefix_helper.md R96: `MPV` and `ROCT` may be issued in any state, read and write no register of
either unit and touch no memory. -/
def Obligations.HelpersTouchNothing : Prop :=
  ∀ (value : U64) (n : Width) (i : Instr), i = .mpv n ∨ i = .roct value n →
    ∀ s : State, Leads (exec i s) fun t =>
      t.dec = s.dec ∧ t.enc = s.enc ∧ t.mem = s.mem ∧
      t.decFlight = s.decFlight ∧ t.encFlight = s.encFlight ∧ t.pending = s.pending ∧
      (∀ s' : State, Leads (exec i s') fun t' =>
        t'.out.cnt = t.out.cnt ∧ t'.out.err = t.out.err ∧ t'.out.done = t.out.done)

/-- 30_encoding.md R82, 60_exceptions.md R174: an `n` outside 1..8 ends every operation that takes it
with PreconditionViolation and `cnt = 0`; an `INIT` leaves its unit Idle, every other operation changes
nothing. -/
def Obligations.BadWidthIsPreconditionViolation : Prop :=
  ∀ (n : Width) (value : U64) (view : List Octet) (off cap : Nat) (s : State),
    n.toNat = 0 ∨ 9 ≤ n.toNat →
    (∀ i, i = .mpv n ∨ i = .roct value n ∨ i = .dec1 n view ∨ i = .enc1 value n off cap →
      Leads (exec i s) fun t =>
        t.out.cnt = 0 ∧ t.out.err = .preconditionViolation ∧ t.out.done = false ∧
        t.dec = s.dec ∧ t.enc = s.enc ∧ t.mem = s.mem) ∧
    (s.decFlight = none → Leads (exec (.decInit n) s) fun t =>
      t.out.cnt = 0 ∧ t.out.err = .preconditionViolation ∧ t.out.done = false ∧
      t.dec = { s.dec with state := .idle } ∧ t.enc = s.enc ∧ t.mem = s.mem) ∧
    (s.encFlight = none → Leads (exec (.encInit value n) s) fun t =>
      t.out.cnt = 0 ∧ t.out.err = .preconditionViolation ∧ t.out.done = false ∧
      t.enc = { s.enc with state := .idle } ∧ t.dec = s.dec ∧ t.mem = s.mem)

/-! ## The decoder -/

/-- 41_decoder.md R100: `DEC.INIT n` in any state of the unit (no operation in progress on it, R207). -/
def Obligations.DecInitConstructs : Prop :=
  ∀ (n : Width) (s : State), s.decFlight = none →
    Leads (exec (.decInit n) s) fun t =>
      (1 ≤ n.toNat ∧ n.toNat ≤ 8 →
        t.dec = { state := .first, N := n, v := 0, M := 0 } ∧ t.out.err = .none) ∧
      (n.toNat < 1 ∨ 8 < n.toNat →
        t.dec = { s.dec with state := .idle } ∧ t.out.err = .preconditionViolation) ∧
      t.out.cnt = 0 ∧ t.out.done = false ∧
      t.enc = s.enc ∧ t.mem = s.mem ∧ t.decFlight = none ∧ t.encFlight = s.encFlight ∧
      t.pending = s.pending

/-- 41_decoder.md R101: `DEC.RUN` with no instance, or a failed one, whatever the view. -/
def Obligations.DecRunIdleOrFailed : Prop :=
  ∀ (view : List Octet) (s : State), s.decFlight = none →
    (s.dec.state = .idle → Leads (exec (.decRun view) s) fun t =>
      t.out.cnt = 0 ∧ t.out.err = .preconditionViolation ∧ t.out.done = false ∧
      t.dec = s.dec ∧ t.enc = s.enc ∧ t.mem = s.mem) ∧
    (s.dec.state = .failed → Leads (exec (.decRun view) s) fun t =>
      t.out.cnt = 0 ∧ t.out.err = .tooLarge ∧ t.out.done = false ∧
      t.dec = s.dec ∧ t.enc = s.enc ∧ t.mem = s.mem)

/-- 41_decoder.md R102: the empty view, in First, Continuation and Done. -/
def Obligations.DecRunEmptyView : Prop :=
  ∀ s : State, s.decFlight = none → s.dec.state ≠ .idle → s.dec.state ≠ .failed →
    Leads (exec (.decRun []) s) fun t =>
      t.out.cnt = 0 ∧ t.out.err = .needsMore ∧ t.dec = s.dec ∧ t.enc = s.enc ∧ t.mem = s.mem ∧
      (s.dec.state = .done → t.out.done = true ∧ t.out.valOut = s.dec.v) ∧
      (s.dec.state ≠ .done → t.out.done = false)

/-- 41_decoder.md R103: already Done, a view that is not empty. -/
def Obligations.DecRunAlreadyDone : Prop :=
  ∀ (view : List Octet) (s : State), s.decFlight = none → s.dec.state = .done → view ≠ [] →
    Leads (exec (.decRun view) s) fun t =>
      t.out.cnt = 0 ∧ t.out.valOut = s.dec.v ∧ t.out.err = .none ∧ t.out.done = true ∧
      t.dec = s.dec ∧ t.enc = s.enc ∧ t.mem = s.mem

/-- 41_decoder.md R104: D.FIRST on the octet under the cursor of the operation in progress. -/
def Obligations.DFirstTakesFirstOctet : Prop :=
  ∀ (s : State) (f : DecFlight) (b : Octet),
    s.decFlight = some f → f.view[f.cursor]? = some b → s.dec.state = .first →
    1 ≤ s.dec.N.toNat → s.dec.N.toNat ≤ 8 →
    exec .dFirst s = .next { s with
      dec := if b.toNat % 2 ^ s.dec.N.toNat < 2 ^ s.dec.N.toNat - 1
        then { s.dec with v := BitVec.ofNat 64 (b.toNat % 2 ^ s.dec.N.toNat), state := .done }
        else { s.dec with
          v := BitVec.ofNat 64 (2 ^ s.dec.N.toNat - 1), M := 0, state := .continuation }
      decFlight := some { f with cursor := f.cursor + 1 } }

/-- 41_decoder.md R105: D.CONT when the sum fits, computed without bound (R107). -/
def Obligations.DContAccepts : Prop :=
  ∀ (s : State) (f : DecFlight) (b : Octet),
    s.decFlight = some f → f.view[f.cursor]? = some b → s.dec.state = .continuation →
    s.dec.v.toNat + b.toNat % 128 * 2 ^ s.dec.M ≤ 2 ^ 64 - 1 →
    Leads (exec .dCont s) fun t =>
      t.dec.v.toNat = s.dec.v.toNat + b.toNat % 128 * 2 ^ s.dec.M ∧
      t.dec.M = s.dec.M + 7 ∧ t.dec.N = s.dec.N ∧
      t.dec.state = (if b.toNat < 128 then .done else .continuation) ∧
      t.decFlight = some { f with cursor := f.cursor + 1 } ∧
      t.enc = s.enc ∧ t.mem = s.mem ∧ t.out = s.out ∧ t.encFlight = s.encFlight

/-- 41_decoder.md R106: D.CONT when the sum exceeds `U64MAX`. -/
def Obligations.DContOverflowFails : Prop :=
  ∀ (s : State) (f : DecFlight) (b : Octet),
    s.decFlight = some f → f.view[f.cursor]? = some b → s.dec.state = .continuation →
    2 ^ 64 - 1 < s.dec.v.toNat + b.toNat % 128 * 2 ^ s.dec.M →
    Leads (exec .dCont s) fun t =>
      t.dec = { s.dec with state := .failed } ∧
      t.out.err = .tooLarge ∧ t.out.cnt = f.cursor ∧ t.out.done = false ∧
      t.decFlight = none ∧ t.enc = s.enc ∧ t.mem = s.mem ∧ t.encFlight = s.encFlight

/-- `DEC.RUN` completes on every view from every state with no operation in progress on the unit; `done`
says whether the decoder is Done, `val_out` is then `D.v` (10_state.md R31, 41_decoder.md R114); its
frame: `D.N`, the encoder unit, memory and the host's list are unchanged (R110). -/
def Obligations.DecRunCompletesWithFrame : Prop :=
  ∀ (view : List Octet) (s : State), s.decFlight = none →
    Leads (exec (.decRun view) s) fun t =>
      t.out.cnt ≤ view.length ∧
      (t.out.done = true ↔ t.dec.state = .done) ∧
      (t.out.done = true → t.out.valOut = t.dec.v) ∧
      t.dec.N = s.dec.N ∧ t.enc = s.enc ∧ t.mem = s.mem ∧
      t.decFlight = none ∧ t.encFlight = s.encFlight ∧ t.pending = s.pending

/-- 41_decoder.md R111: a `DEC.RUN` that ends with NeedsMore on a view that is not empty, on an instance
that was not Done, has consumed the whole view and is in Continuation. -/
def Obligations.DecRunNeedsMoreConsumedAll : Prop :=
  ∀ (view : List Octet) (s t : State), s.decFlight = none → view ≠ [] →
    exec (.decRun view) s = .next t → t.out.err = .needsMore →
    t.out.cnt = view.length ∧ t.dec.state = .continuation ∧ t.out.done = false

/-- 41_decoder.md R112: once the integer has ended, the octets after it play no part. -/
def Obligations.OctetsPastTheEndPlayNoPart : Prop :=
  ∀ (view extra : List Octet) (s t : State), s.decFlight = none → s.dec.state ≠ .done →
    exec (.decRun view) s = .next t → t.dec.state = .done →
    exec (.decRun (view.take t.out.cnt ++ extra)) s = .next t

/-- 41_decoder.md R108: zero payloads are accepted at every `D.M`: a run of 0x80 octets of any length
(none at all included) keeps `D.v` and stays in Continuation, and 0x00 then ends it. -/
def Obligations.ZeroPayloadsAreAccepted : Prop :=
  ∀ (k : Nat) (s : State), s.decFlight = none → s.dec.state = .continuation →
    (Leads (exec (.decRun (List.replicate k 0x80#8)) s) fun t =>
      t.dec = { s.dec with M := s.dec.M + 7 * k } ∧ t.out.cnt = k ∧ t.out.err = .needsMore) ∧
    (Leads (exec (.decRun (List.replicate k 0x80#8 ++ [0x00#8])) s) fun t =>
      t.dec = { s.dec with M := s.dec.M + 7 * (k + 1), state := .done } ∧
      t.out.cnt = k + 1 ∧ t.out.err = .none ∧ t.out.valOut = s.dec.v)

/-- 41_decoder.md R109: the overflow test at each `D.M`; a register holding `min(D.M, 70)` gives the same
test; no overflow is possible before the 10th continuation octet. -/
def Obligations.OverflowTestPerShift : Prop :=
  (∀ (b : Octet) (d : Decoder), d.M % 7 = 0 →
    (b.toNat % 128 = 0 → overflows b d = false) ∧
    (d.M ≤ 56 → contribution b d.M < 2 ^ 63 ∧
      (overflows b d = true ↔ 2 ^ 64 ≤ d.v.toNat + b.toNat % 128 * 2 ^ d.M)) ∧
    (d.M = 63 → 2 ≤ b.toNat % 128 → overflows b d = true) ∧
    (d.M = 63 → b.toNat % 128 = 1 → (overflows b d = true ↔ 2 ^ 63 ≤ d.v.toNat)) ∧
    (70 ≤ d.M → 1 ≤ b.toNat % 128 → overflows b d = true) ∧
    overflows b d = overflows b { d with M := min d.M 70 }) ∧
  (∀ (n : Width) (conts : List Octet), n.toNat ≤ 8 → conts.length ≤ 9 →
    assembled n conts ≤ u64Max)

/-- 41_decoder.md R109 carried to whole operations: two decoders that differ only in that one's `D.M` is
saturated at 70 answer every view alike. -/
def Obligations.SaturatingShiftIsExact : Prop :=
  ∀ (view : List Octet) (s t u : State), s.decFlight = none → s.dec.M % 7 = 0 →
    exec (.decRun view) s = .next t →
    exec (.decRun view) { s with dec := { s.dec with M := min s.dec.M 70 } } = .next u →
    u.out = t.out ∧ u.dec.state = t.dec.state ∧ u.dec.v = t.dec.v ∧
    min u.dec.M 70 = min t.dec.M 70

/-- 10_state.md R23 with 41_decoder.md R107: the accumulator never wraps. After every `DEC.RUN` `D.v` holds,
as a natural number, what it held plus the unbounded contributions of the octets counted (a First decoder:
the value octet 0 and the octets counted after it spell); the octet that ends it with TooLarge is one whose
unbounded sum exceeds `U64MAX`. -/
def Obligations.AccumulatorNeverWraps : Prop :=
  ∀ (view : List Octet) (s t : State), exec (.decRun view) s = .next t →
    (s.dec.state = .continuation →
      t.dec.v.toNat = s.dec.v.toNat + payloadSum (view.take t.out.cnt) * 2 ^ s.dec.M ∧
      t.dec.M = s.dec.M + 7 * t.out.cnt) ∧
    (∀ b0 conts, s.dec.state = .first → 1 ≤ s.dec.N.toNat → s.dec.N.toNat ≤ 8 → view = b0 :: conts →
      (b0.toNat % 2 ^ s.dec.N.toNat < maxp s.dec.N →
        t.dec.v.toNat = b0.toNat % 2 ^ s.dec.N.toNat ∧ t.dec.M = s.dec.M) ∧
      (b0.toNat % 2 ^ s.dec.N.toNat = maxp s.dec.N → 1 ≤ t.out.cnt ∧
        t.dec.v.toNat = assembled s.dec.N (conts.take (t.out.cnt - 1)) ∧
        t.dec.M = 7 * (t.out.cnt - 1))) ∧
    (s.dec.state = .continuation ∨ s.dec.state = .first → t.out.err = .tooLarge →
      ∃ b, view[t.out.cnt]? = some b ∧
        u64Max < t.dec.v.toNat + b.toNat % 128 * 2 ^ t.dec.M) ∧
    (s.dec.state = .idle ∨ s.dec.state = .done ∨ s.dec.state = .failed → t.dec.v = s.dec.v)

/-- 41_decoder.md section 6: Done and Failed are left only by DEC.INIT, Idle only by a DEC.INIT with a
legal `n`. -/
def Obligations.TerminalDecoderStatesAreLeftByInitOnly : Prop :=
  ∀ (i : Instr) (s t : State), exec i s = .next t → t.dec.state ≠ s.dec.state →
    (s.dec.state = .done ∨ s.dec.state = .failed → ∃ n, i = .decInit n) ∧
    (s.dec.state = .idle → ∃ n, i = .decInit n ∧ 1 ≤ n.toNat ∧ n.toNat ≤ 8)

/-- 42_encoder.md section 5 (R144): Done is left only by ENC.INIT, Idle only by an ENC.INIT with a legal `n`. -/
def Obligations.TerminalEncoderStatesAreLeftByInitOnly : Prop :=
  ∀ (i : Instr) (s t : State), exec i s = .next t → t.enc.state ≠ s.enc.state →
    (s.enc.state = .done → ∃ value n, i = .encInit value n) ∧
    (s.enc.state = .idle → ∃ value n, i = .encInit value n ∧ 1 ≤ n.toNat ∧ n.toNat ≤ 8)

/-- 10_state.md R22, R26: `D.N` is written by DEC.INIT and by nothing else, `E.N` by ENC.INIT only. -/
def Obligations.WidthsAreWrittenByInitOnly : Prop :=
  ∀ (i : Instr) (s t : State), exec i s = .next t →
    ((∀ n, i ≠ .decInit n) → t.dec.N = s.dec.N) ∧
    ((∀ value n, i ≠ .encInit value n) → t.enc.N = s.enc.N)

/-- 30_encoding.md R73: the value of an encoded integer, or TooLarge at the first octet whose partial sum
exceeds `U64MAX`; the octets after the integer are left. -/
def Obligations.DecoderAssemblesValue : Prop :=
  ∀ (s : State) (b0 last : Octet) (more extra : List Octet),
    s.decFlight = none → s.dec.state = .first → 1 ≤ s.dec.N.toNat → s.dec.N.toNat ≤ 8 →
    (∀ b ∈ more, 128 ≤ b.toNat) → last.toNat < 128 →
    (b0.toNat % 2 ^ s.dec.N.toNat < maxp s.dec.N →
      Leads (exec (.decRun (b0 :: extra)) s) fun t =>
        t.out.cnt = 1 ∧ t.out.valOut.toNat = b0.toNat % 2 ^ s.dec.N.toNat ∧
        t.out.err = .none ∧ t.out.done = true) ∧
    (b0.toNat % 2 ^ s.dec.N.toNat = maxp s.dec.N →
      (assembled s.dec.N (more ++ [last]) ≤ u64Max →
        Leads (exec (.decRun (b0 :: more ++ last :: extra)) s) fun t =>
          t.out.cnt = 1 + (more.length + 1) ∧
          t.out.valOut.toNat = assembled s.dec.N (more ++ [last]) ∧
          t.out.err = .none ∧ t.out.done = true) ∧
      (∀ j, j < more.length + 1 →
        assembled s.dec.N ((more ++ [last]).take j) ≤ u64Max →
        u64Max < assembled s.dec.N ((more ++ [last]).take (j + 1)) →
        Leads (exec (.decRun (b0 :: more ++ last :: extra)) s) fun t =>
          t.out.cnt = 1 + j ∧ t.out.err = .tooLarge ∧ t.out.done = false ∧
          t.dec.state = .failed))

/-- 41_decoder.md section 7, resumability: the octets one `DEC.RUN` over a stream reads (the offending
octet included), cut into any pieces and given one a call to a decoder fresh from the same construction,
end in the same registers with the same total count. -/
def Obligations.DecoderIsResumable : Prop :=
  ∀ (n : Width) (s : State) (stream : List Octet) (pieces : List (List Octet)) (t : State),
    1 ≤ n.toNat → n.toNat ≤ 8 → s.decFlight = none → s.dec = freshDecoder n →
    exec (.decRun stream) s = .next t →
    pieces.flatten =
      stream.take (if t.out.err = .tooLarge then t.out.cnt + 1 else t.out.cnt) →
    ∃ u, decRuns pieces 0 s = some (t.out.cnt, u) ∧ u.dec = t.dec

/-! ## The encoder -/

/-- 42_encoder.md R130: `ENC.INIT value, n` in any state of the unit (no operation in progress on it, R207). -/
def Obligations.EncInitConstructs : Prop :=
  ∀ (value : U64) (n : Width) (s : State), s.encFlight = none →
    Leads (exec (.encInit value n) s) fun t =>
      (1 ≤ n.toNat ∧ n.toNat ≤ 8 →
        t.enc = { state := .first, N := n, rem := value } ∧ t.out.err = .none) ∧
      (n.toNat < 1 ∨ 8 < n.toNat →
        t.enc = { s.enc with state := .idle } ∧ t.out.err = .preconditionViolation) ∧
      t.out.cnt = 0 ∧ t.out.done = false ∧
      t.dec = s.dec ∧ t.mem = s.mem ∧ t.encFlight = none ∧ t.decFlight = s.decFlight ∧
      t.pending = s.pending

/-- 42_encoder.md R133, R134, R135: `ENC.RUN` with no instance, on a Done encoder, and over an empty view. -/
def Obligations.EncRunWritesNothingWhen : Prop :=
  ∀ (off cap : Nat) (s : State), s.encFlight = none →
    (s.enc.state = .idle → Leads (exec (.encRun off cap) s) fun t =>
      t.out.cnt = 0 ∧ t.out.err = .preconditionViolation ∧ t.out.done = false ∧
      t.enc = s.enc ∧ t.dec = s.dec ∧ t.mem = s.mem) ∧
    (s.enc.state = .done → Leads (exec (.encRun off cap) s) fun t =>
      t.out.cnt = 0 ∧ t.out.err = .none ∧ t.out.done = true ∧
      t.enc = s.enc ∧ t.dec = s.dec ∧ t.mem = s.mem) ∧
    (s.enc.state ≠ .idle → s.enc.state ≠ .done → Leads (exec (.encRun off 0) s) fun t =>
      t.out.cnt = 0 ∧ t.out.err = .needsMore ∧ t.out.done = false ∧
      t.enc = s.enc ∧ t.dec = s.dec ∧ t.mem = s.mem)

/-- 42_encoder.md R138: E.FIRST, given the old octet its flag bits are kept from (any octet will do when
`E.N = 8`: R54, no read is made). -/
def Obligations.EFirstWritesFirstOctet : Prop :=
  ∀ (s : State) (f : EncFlight) (old : Octet),
    s.encFlight = some f → f.cursor < f.cap → s.enc.state = .first →
    1 ≤ s.enc.N.toNat → s.enc.N.toNat ≤ 8 →
    (s.enc.N.toNat < 8 → s.mem.read (f.off + f.cursor) = some old) →
    Leads (exec .eFirst s) fun t =>
      (s.enc.rem.toNat < 2 ^ s.enc.N.toNat - 1 →
        t.enc.state = .done ∧
        t.mem = s.mem.write (f.off + f.cursor)
          (BitVec.ofNat 8 (old.toNat / 2 ^ s.enc.N.toNat * 2 ^ s.enc.N.toNat + s.enc.rem.toNat))) ∧
      (2 ^ s.enc.N.toNat - 1 ≤ s.enc.rem.toNat →
        t.enc.state = .continuation ∧
        t.enc.rem.toNat = s.enc.rem.toNat - (2 ^ s.enc.N.toNat - 1) ∧
        t.mem = s.mem.write (f.off + f.cursor)
          (BitVec.ofNat 8
            (old.toNat / 2 ^ s.enc.N.toNat * 2 ^ s.enc.N.toNat + (2 ^ s.enc.N.toNat - 1)))) ∧
      t.enc.N = s.enc.N ∧ t.encFlight = some { f with cursor := f.cursor + 1 } ∧
      t.dec = s.dec ∧ t.out = s.out ∧ t.decFlight = s.decFlight

/-- 42_encoder.md R139: E.CONT, its three branches. -/
def Obligations.EContWritesDividesOrSettles : Prop :=
  ∀ (s : State) (f : EncFlight), s.encFlight = some f → s.enc.state = .continuation →
    (128 ≤ s.enc.rem.toNat → f.cursor < f.cap → Leads (exec .eCont s) fun t =>
      t.mem = s.mem.write (f.off + f.cursor) (BitVec.ofNat 8 (s.enc.rem.toNat % 128 + 128)) ∧
      t.enc.rem.toNat = s.enc.rem.toNat / 128 ∧ t.enc.state = .continuation ∧
      t.enc.N = s.enc.N ∧ t.encFlight = some { f with cursor := f.cursor + 1 } ∧
      t.dec = s.dec ∧ t.out = s.out ∧ t.decFlight = s.decFlight) ∧
    (128 ≤ s.enc.rem.toNat → f.cap ≤ f.cursor → Leads (exec .eCont s) fun t =>
      t.out.err = .needsMore ∧ t.out.cnt = f.cursor ∧ t.out.done = false ∧
      t.enc = s.enc ∧ t.mem = s.mem ∧ t.encFlight = none ∧ t.dec = s.dec ∧
      t.decFlight = s.decFlight) ∧
    (s.enc.rem.toNat < 128 → exec .eCont s = .next { s with enc := { s.enc with state := .final } })

/-- 42_encoder.md R140: E.FINAL, its two branches. -/
def Obligations.EFinalWritesLastOctet : Prop :=
  ∀ (s : State) (f : EncFlight), s.encFlight = some f → s.enc.state = .final →
    (f.cursor < f.cap → Leads (exec .eFinal s) fun t =>
      t.mem = s.mem.write (f.off + f.cursor) (BitVec.ofNat 8 (s.enc.rem.toNat % 128)) ∧
      t.enc.state = .done ∧ t.enc.N = s.enc.N ∧
      t.encFlight = some { f with cursor := f.cursor + 1 } ∧
      t.dec = s.dec ∧ t.out = s.out ∧ t.decFlight = s.decFlight) ∧
    (f.cap ≤ f.cursor → Leads (exec .eFinal s) fun t =>
      t.out.err = .needsMore ∧ t.out.cnt = f.cursor ∧ t.out.done = false ∧
      t.enc = s.enc ∧ t.mem = s.mem ∧ t.encFlight = none ∧ t.dec = s.dec ∧
      t.decFlight = s.decFlight)

/-- `ENC.RUN` completes whenever the octet E.FIRST reads was written, if it reads one (R208); its frame:
no octet outside offsets 0 .. cnt-1 of the view changes (20_memory.md R55), nor `E.N`, the decoder unit or
the host's list; `done` says whether the encoder is Done (10_state.md R31), `err` is never TooLarge (R150). -/
def Obligations.EncRunCompletesWithFrame : Prop :=
  ∀ (off cap : Nat) (s : State), s.encFlight = none →
    (s.enc.state = .first → s.enc.N.toNat < 8 → 0 < cap → s.mem.read off ≠ none) →
    Leads (exec (.encRun off cap) s) fun t =>
      t.out.cnt ≤ cap ∧
      (∀ a, a < off ∨ off + t.out.cnt ≤ a → t.mem.read a = s.mem.read a) ∧
      (t.out.done = true ↔ t.enc.state = .done) ∧ t.out.err ≠ .tooLarge ∧
      t.enc.N = s.enc.N ∧ t.dec = s.dec ∧
      t.encFlight = none ∧ t.decFlight = s.decFlight ∧ t.pending = s.pending

/-- The one fault of the model (70_reset_and_hazards.md R208, log 5): E.FIRST under a width below 8 on a
destination octet that was never written, in `ENC.RUN`, in `ENC1` and as a micro-step; with `N = 8` no
octet is read (20_memory.md R54). No other instruction faults. -/
def Obligations.OnlyAnUnwrittenFlagOctetFaults : Prop :=
  (∀ (off cap : Nat) (s : State), s.encFlight = none →
    (exec (.encRun off cap) s = .fault .unwrittenOctet ↔
      s.enc.state = .first ∧ s.enc.N.toNat < 8 ∧ 0 < cap ∧ s.mem.read off = none)) ∧
  (∀ (value : U64) (n : Width) (off cap : Nat) (s : State), s.encFlight = none →
    (exec (.enc1 value n off cap) s = .fault .unwrittenOctet ↔
      1 ≤ n.toNat ∧ n.toNat < 8 ∧ 0 < cap ∧ s.mem.read off = none)) ∧
  (∀ (f : EncFlight) (s : State), s.encFlight = some f →
    (exec .eFirst s = .fault .unwrittenOctet ↔
      s.enc.state = .first ∧ s.enc.N.toNat < 8 ∧ f.cursor < f.cap ∧
        s.mem.read (f.off + f.cursor) = none)) ∧
  (∀ (i : Instr) (s : State) (e : Fault), exec i s = .fault e →
    i = .eFirst ∨ (∃ off cap, i = .encRun off cap) ∨ ∃ value n off cap, i = .enc1 value n off cap)

/-- 42_encoder.md R141: an `ENC.RUN` over a view that is not empty and that ends with NeedsMore has
written the whole view, and is in Continuation with 128 or more left, or in Final with less. -/
def Obligations.EncRunNeedsMoreFilledTheView : Prop :=
  ∀ (off cap : Nat) (s t : State), s.encFlight = none → 1 ≤ cap →
    exec (.encRun off cap) s = .next t → t.out.err = .needsMore →
    t.out.cnt = cap ∧
    ((t.enc.state = .continuation ∧ 128 ≤ t.enc.rem.toNat) ∨
      (t.enc.state = .final ∧ t.enc.rem.toNat < 128))

/-- 42_encoder.md R145: after E.FIRST bits 7..N of the octet equal what they were. An `ENC.RUN` that begins
in First depends on nothing else of what the buffer held; one that begins in any other state depends on
nothing of it: each octet it writes, that at `off` included, is the same whatever stood there. -/
def Obligations.FlagBitsArePreserved : Prop :=
  (∀ (s t : State) (f : EncFlight) (old : Octet) (k : Nat),
    s.encFlight = some f → 1 ≤ s.enc.N.toNat → s.enc.N.toNat ≤ k → k < 8 →
    s.mem.read (f.off + f.cursor) = some old → exec .eFirst s = .next t →
    ∃ new, t.mem.read (f.off + f.cursor) = some new ∧ new.getLsbD k = old.getLsbD k) ∧
  (∀ (s t u : State) (m : Memory) (off cap : Nat),
    (s.enc.state = .first → ∀ x ∈ s.mem.read off, ∀ y ∈ m.read off,
      x &&& flagMask s.enc.N = y &&& flagMask s.enc.N) →
    exec (.encRun off cap) s = .next t → exec (.encRun off cap) { s with mem := m } = .next u →
    u.out = t.out ∧ u.enc = t.enc ∧
    ∀ j, j < t.out.cnt → u.mem.read (off + j) = t.mem.read (off + j))

/-- 30_encoding.md R74 with R79: a fresh encoder given room writes the canonical encoding, keeping the
flag bits of the old first octet, and nothing else. -/
def Obligations.EncoderWritesCanonicalEncoding : Prop :=
  ∀ (value : U64) (n : Width) (old : Octet) (off cap : Nat) (s : State),
    1 ≤ n.toNat → n.toNat ≤ 8 → s.encFlight = none → s.enc = freshEncoder value n →
    (n.toNat < 8 → s.mem.read off = some old) →
    (canonicalOctets n value old).length ≤ cap →
    Leads (exec (.encRun off cap) s) fun t =>
      t.out.cnt = (canonicalOctets n value old).length ∧ t.out.err = .none ∧ t.out.done = true ∧
      octetsAt t.mem off t.out.cnt = (canonicalOctets n value old).map some ∧
      (∀ a, a < off ∨ off + t.out.cnt ≤ a → t.mem.read a = s.mem.read a)

/-- 42_encoder.md R148: the two values at the boundary of the value field. -/
def Obligations.BoundaryValues : Prop :=
  ∀ (n : Width) (old : Octet) (off cap : Nat) (s : State),
    1 ≤ n.toNat → n.toNat ≤ 8 → s.encFlight = none → s.mem.read off = some old → 2 ≤ cap →
    (s.enc = freshEncoder (BitVec.ofNat 64 (maxp n - 1)) n →
      Leads (exec (.encRun off cap) s) fun t =>
        t.out.cnt = 1 ∧ t.out.done = true ∧
        ∃ b, t.mem.read off = some b ∧ b.toNat % 2 ^ n.toNat = maxp n - 1 ∧
          b &&& flagMask n = old &&& flagMask n) ∧
    (s.enc = freshEncoder (BitVec.ofNat 64 (maxp n)) n →
      Leads (exec (.encRun off cap) s) fun t =>
        t.out.cnt = 2 ∧ t.out.done = true ∧ t.mem.read (off + 1) = some 0x00#8 ∧
        ∃ b, t.mem.read off = some b ∧ b.toNat % 2 ^ n.toNat = maxp n ∧
          b &&& flagMask n = old &&& flagMask n)

/-- 42_encoder.md R146 and R147: capacity delivered in pieces gives the same octets as one call with the
whole capacity `k = ROCT value, n`; the counts add up to `k`; the call that writes the `k`-th octet and
every later one return None with `done`, every earlier one NeedsMore; later ones write nothing. -/
def Obligations.EncoderIsResumable : Prop :=
  ∀ (value : U64) (n : Width) (off : Nat) (caps : List Nat) (s whole : State),
    1 ≤ n.toNat → n.toNat ≤ 8 → s.encFlight = none → s.enc = freshEncoder value n →
    requiredOctets value n ≤ caps.sum →
    exec (.encRun off (requiredOctets value n)) s = .next whole →
    ∃ rs t, encRuns caps off s = some (rs, t) ∧
      (∀ a, t.mem.read a = whole.mem.read a) ∧
      (rs.map (fun r => r.cnt)).sum = requiredOctets value n ∧
      whole.out.cnt = requiredOctets value n ∧ whole.out.err = .none ∧ rs.length = caps.length ∧
      ∀ (j : Nat) (r : Results), rs[j]? = some r →
        (requiredOctets value n ≤ (caps.take (j + 1)).sum → r.err = .none ∧ r.done = true) ∧
        ((caps.take (j + 1)).sum < requiredOctets value n → r.err = .needsMore ∧ r.done = false) ∧
        (requiredOctets value n ≤ (caps.take j).sum → r.cnt = 0)

/-! ## Both machines -/

/-- 10_state.md R33: after a `RUN` on a unit that is not Idle, `done = 1` exactly when `err = None`, but
for a `DEC.RUN` with an empty view on a Done decoder. -/
def Obligations.DoneSaysNoMoreThanErr : Prop :=
  (∀ (view : List Octet) (s t : State), s.decFlight = none → s.dec.state ≠ .idle →
    exec (.decRun view) s = .next t →
    if s.dec.state = .done ∧ view = [] then t.out.done = true ∧ t.out.err = .needsMore
    else (t.out.done = true ↔ t.out.err = .none)) ∧
  (∀ (off cap : Nat) (s t : State), s.encFlight = none → s.enc.state ≠ .idle →
    exec (.encRun off cap) s = .next t → (t.out.done = true ↔ t.out.err = .none))

/-- 10_state.md R44: an operation on one unit reads and writes no register of the other: changing the
other unit beforehand changes nothing but that unit afterwards. -/
def Obligations.UnitsAreIndependent : Prop :=
  (∀ (i : Instr) (s : State) (e : Encoder), decoderSide i = true →
    exec i { s with enc := e } = mapNext (fun t => { t with enc := e }) (exec i s)) ∧
  (∀ (i : Instr) (s : State) (d : Decoder), encoderSide i = true →
    exec i { s with dec := d } = mapNext (fun t => { t with dec := d }) (exec i s))

/-- Decoding what was encoded (41_decoder.md section 7: R116, and the count of R117): for every width and
value, whatever the flag bits, the octets `ENC.INIT`, `ENC.RUN` write are decoded back to the value, and
both sides count `ROCT value, n`. -/
def Obligations.RoundTrip : Prop :=
  ∀ (n : Width) (value : U64) (off : Nat) (s : State),
    1 ≤ n.toNat → n.toNat ≤ 8 → s.encFlight = none → s.decFlight = none →
    (n.toNat < 8 → s.mem.read off ≠ none) →
    Leads (exec (.encInit value n) s) fun s1 =>
    Leads (exec (.encRun off (requiredOctets value n)) s1) fun s2 =>
      s2.out.cnt = requiredOctets value n ∧ s2.out.err = .none ∧ s2.enc.state = .done ∧
      ∃ octets : List Octet, octetsAt s2.mem off (requiredOctets value n) = octets.map some ∧
      Leads (exec (.decInit n) s2) fun s3 =>
      Leads (exec (.decRun octets) s3) fun s4 =>
        s4.dec.state = .done ∧ s4.out.valOut = value ∧ s4.out.err = .none ∧ s4.out.done = true ∧
        s4.out.cnt = requiredOctets value n

/-- 43_oneshot.md R163 (R160, R161): the one-shot forms give what construction and one `RUN` give, and
touch no register of either unit, whatever the units hold or are doing. -/
def Obligations.OneShotIsInitThenRun : Prop :=
  (∀ (n : Width) (view : List Octet) (s : State), 1 ≤ n.toNat → n.toNat ≤ 8 →
    Leads (exec (.dec1 n view) s) fun t =>
      t.dec = s.dec ∧ t.enc = s.enc ∧ t.mem = s.mem ∧
      t.decFlight = s.decFlight ∧ t.encFlight = s.encFlight ∧
      Leads (exec (.decInit n) { s with decFlight := none }) fun s1 =>
      Leads (exec (.decRun view) s1) fun s2 =>
        t.out.cnt = s2.out.cnt ∧ t.out.err = s2.out.err ∧ t.out.done = s2.out.done ∧
        (s2.out.done = true → t.out.valOut = s2.out.valOut)) ∧
  (∀ (value : U64) (n : Width) (off cap : Nat) (s : State), 1 ≤ n.toNat → n.toNat ≤ 8 →
    (∀ f a, s.encFlight = some f →
      ¬(off ≤ a ∧ a < off + cap ∧ f.off ≤ a ∧ a < f.off + f.cap)) →
    (n.toNat < 8 → 0 < cap → s.mem.read off ≠ none) →
    Leads (exec (.enc1 value n off cap) s) fun t =>
      t.dec = s.dec ∧ t.enc = s.enc ∧
      t.decFlight = s.decFlight ∧ t.encFlight = s.encFlight ∧
      (∀ a, a < off ∨ off + t.out.cnt ≤ a → t.mem.read a = s.mem.read a) ∧
      Leads (exec (.encInit value n) { s with encFlight := none }) fun s1 =>
      Leads (exec (.encRun off cap) s1) fun s2 =>
        t.out.cnt = s2.out.cnt ∧ t.out.err = s2.out.err ∧ t.out.done = s2.out.done ∧
        t.mem = s2.mem)

/-- 20_memory.md R65, 70_reset_and_hazards.md R207: no second operation on a unit whose operation is in
progress, and nobody else writes the destination view of one. That "no move" is a refusal by name is the
model's reading, notes/assumptions/12.md. -/
def Obligations.NoMoveOnABusyUnitOrView : Prop :=
  (∀ (n : Width) (view : List Octet) (s : State), s.decFlight ≠ none →
    exec (.decInit n) s = .refused .unitBusy ∧ exec (.decRun view) s = .refused .unitBusy) ∧
  (∀ (value : U64) (n : Width) (off cap : Nat) (s : State), s.encFlight ≠ none →
    exec (.encInit value n) s = .refused .unitBusy ∧
    exec (.encRun off cap) s = .refused .unitBusy) ∧
  (∀ (a : Nat) (b : Octet) (f : EncFlight) (rest : List HostAct) (s : State),
    s.encFlight = some f → s.pending = .hostWrite a b :: rest →
    (f.off ≤ a ∧ a < f.off + f.cap → step s = .refused .viewInUse) ∧
    (¬(f.off ≤ a ∧ a < f.off + f.cap) →
      step s = .next { s with pending := rest, mem := s.mem.write a b })) ∧
  (∀ (value : U64) (n : Width) (off cap a : Nat) (f : EncFlight) (s : State),
    1 ≤ n.toNat → n.toNat ≤ 8 → s.encFlight = some f →
    off ≤ a → a < off + cap → f.off ≤ a → a < f.off + f.cap →
    exec (.enc1 value n off cap) s = .refused .viewInUse)

/-- Lengths and counts (00_scope.md R6, log 9): the `cnt` of every operation fits a port of `L` bits as
soon as its view's length does and `L` holds the 8 bits `MPV 8` needs. -/
def Obligations.CountsFitTheLengthWidth : Prop :=
  ∀ (L : Nat) (value : U64) (n : Width) (view : List Octet) (off cap : Nat) (i : Instr) (s t : State),
    8 ≤ L → view.length < 2 ^ L → cap < 2 ^ L →
    i = .mpv n ∨ i = .roct value n ∨ i = .decInit n ∨ i = .decRun view ∨ i = .encInit value n ∨
      i = .encRun off cap ∨ i = .dec1 n view ∨ i = .enc1 value n off cap →
    exec i s = .next t → t.out.cnt < 2 ^ L

/-! ## The octet rows -/

/-- The decoder unit is in `t` with an operation in progress whose cursor is inside the view. -/
abbrev Sys2Proof.Machine.AtOctet (t : DecTag) (f : DecFlight) (s : State) : Prop :=
  s.decFlight = some f ∧ f.cursor < f.view.length ∧ s.dec.state = t

/-- What a LONG octet 0 does (R104): the accumulator is the sentinel, the shift 0. -/
def Sys2Proof.Machine.afterLong (f : DecFlight) (s : State) : State :=
  { s with
    dec := { s.dec with v := BitVec.ofNat 64 (2 ^ s.dec.N.toNat - 1), M := 0, state := .continuation }
    decFlight := some { f with cursor := f.cursor + 1 } }

/-- What a SHORT octet 0 with value field `p` does (R104): Done with the value `p`. -/
def Sys2Proof.Machine.afterShort (p : Nat) (f : DecFlight) (s : State) : State :=
  { s with
    dec := { s.dec with v := BitVec.ofNat 64 p, state := .done }
    decFlight := some { f with cursor := f.cursor + 1 } }

/-- 30_encoding.md R76 with R104: an octet 0 of class LONG, whatever its flag bits, for each width. -/
def Obligations.LongOctetsEnterContinuation : Prop :=
  ∀ (s : State) (fl : DecFlight), AtOctet .first fl s →
    (s.dec.N = 1 → ∀ f, exec (.octet0N1Long f) s = .next (afterLong fl s)) ∧
    (s.dec.N = 2 → ∀ f, exec (.octet0N2Long f) s = .next (afterLong fl s)) ∧
    (s.dec.N = 3 → ∀ f, exec (.octet0N3Long f) s = .next (afterLong fl s)) ∧
    (s.dec.N = 4 → ∀ f, exec (.octet0N4Long f) s = .next (afterLong fl s)) ∧
    (s.dec.N = 5 → ∀ f, exec (.octet0N5Long f) s = .next (afterLong fl s)) ∧
    (s.dec.N = 6 → ∀ f, exec (.octet0N6Long f) s = .next (afterLong fl s)) ∧
    (s.dec.N = 7 → ∀ f, exec (.octet0N7Long f) s = .next (afterLong fl s)) ∧
    (s.dec.N = 8 → exec .octet0N8Long s = .next (afterLong fl s))

/-- 30_encoding.md R76 with R104: an octet 0 of class SHORT, whatever its flag bits, for each width. A value
field that holds the sentinel is not of the class (R76); that a SHORT row carrying one then has no move
(`notSelected`) is the model's choice, notes/assumptions/11.md. -/
def Obligations.ShortOctetsAreDone : Prop :=
  ∀ (s : State) (fl : DecFlight), AtOctet .first fl s →
    (s.dec.N = 1 → ∀ f (v : BitVec 1),
      (v.toNat < maxp 1 → exec (.octet0N1Short f v) s = .next (afterShort v.toNat fl s)) ∧
      (v.toNat = maxp 1 → exec (.octet0N1Short f v) s = .refused .notSelected)) ∧
    (s.dec.N = 2 → ∀ f (v : BitVec 2),
      (v.toNat < maxp 2 → exec (.octet0N2Short f v) s = .next (afterShort v.toNat fl s)) ∧
      (v.toNat = maxp 2 → exec (.octet0N2Short f v) s = .refused .notSelected)) ∧
    (s.dec.N = 3 → ∀ f (v : BitVec 3),
      (v.toNat < maxp 3 → exec (.octet0N3Short f v) s = .next (afterShort v.toNat fl s)) ∧
      (v.toNat = maxp 3 → exec (.octet0N3Short f v) s = .refused .notSelected)) ∧
    (s.dec.N = 4 → ∀ f (v : BitVec 4),
      (v.toNat < maxp 4 → exec (.octet0N4Short f v) s = .next (afterShort v.toNat fl s)) ∧
      (v.toNat = maxp 4 → exec (.octet0N4Short f v) s = .refused .notSelected)) ∧
    (s.dec.N = 5 → ∀ f (v : BitVec 5),
      (v.toNat < maxp 5 → exec (.octet0N5Short f v) s = .next (afterShort v.toNat fl s)) ∧
      (v.toNat = maxp 5 → exec (.octet0N5Short f v) s = .refused .notSelected)) ∧
    (s.dec.N = 6 → ∀ f (v : BitVec 6),
      (v.toNat < maxp 6 → exec (.octet0N6Short f v) s = .next (afterShort v.toNat fl s)) ∧
      (v.toNat = maxp 6 → exec (.octet0N6Short f v) s = .refused .notSelected)) ∧
    (s.dec.N = 7 → ∀ f (v : BitVec 7),
      (v.toNat < maxp 7 → exec (.octet0N7Short f v) s = .next (afterShort v.toNat fl s)) ∧
      (v.toNat = maxp 7 → exec (.octet0N7Short f v) s = .refused .notSelected)) ∧
    (s.dec.N = 8 → ∀ (v : BitVec 8),
      (v.toNat < maxp 8 → exec (.octet0N8Short v) s = .next (afterShort v.toNat fl s)) ∧
      (v.toNat = maxp 8 → exec (.octet0N8Short v) s = .refused .notSelected))

/-- 30_encoding.md R71 with R104: an octet 0 read by its layout is SHORT or LONG by its value field. -/
def Obligations.LayoutOctetsAreShortOrLong : Prop :=
  ∀ (s : State) (fl : DecFlight), AtOctet .first fl s →
    (s.dec.N = 1 → ∀ f (v : BitVec 1), exec (.octet0N1 f v) s =
      .next (if v.toNat < maxp 1 then afterShort v.toNat fl s else afterLong fl s)) ∧
    (s.dec.N = 2 → ∀ f (v : BitVec 2), exec (.octet0N2 f v) s =
      .next (if v.toNat < maxp 2 then afterShort v.toNat fl s else afterLong fl s)) ∧
    (s.dec.N = 3 → ∀ f (v : BitVec 3), exec (.octet0N3 f v) s =
      .next (if v.toNat < maxp 3 then afterShort v.toNat fl s else afterLong fl s)) ∧
    (s.dec.N = 4 → ∀ f (v : BitVec 4), exec (.octet0N4 f v) s =
      .next (if v.toNat < maxp 4 then afterShort v.toNat fl s else afterLong fl s)) ∧
    (s.dec.N = 5 → ∀ f (v : BitVec 5), exec (.octet0N5 f v) s =
      .next (if v.toNat < maxp 5 then afterShort v.toNat fl s else afterLong fl s)) ∧
    (s.dec.N = 6 → ∀ f (v : BitVec 6), exec (.octet0N6 f v) s =
      .next (if v.toNat < maxp 6 then afterShort v.toNat fl s else afterLong fl s)) ∧
    (s.dec.N = 7 → ∀ f (v : BitVec 7), exec (.octet0N7 f v) s =
      .next (if v.toNat < maxp 7 then afterShort v.toNat fl s else afterLong fl s)) ∧
    (s.dec.N = 8 → ∀ (v : BitVec 8), exec (.octet0N8 v) s =
      .next (if v.toNat < maxp 8 then afterShort v.toNat fl s else afterLong fl s))

/-- 30_encoding.md R72 with 41_decoder.md R105, R106: the two continuation rows, accepting and failing. -/
def Obligations.ContinuationOctetsAccumulate : Prop :=
  ∀ (s : State) (fl : DecFlight) (p : BitVec 7), AtOctet .continuation fl s →
    (s.dec.v.toNat + p.toNat * 2 ^ s.dec.M ≤ u64Max →
      exec (.contMore p) s = .next { s with
        dec := { s.dec with
          v := BitVec.ofNat 64 (s.dec.v.toNat + p.toNat * 2 ^ s.dec.M), M := s.dec.M + 7 }
        decFlight := some { fl with cursor := fl.cursor + 1 } } ∧
      exec (.contLast p) s = .next { s with
        dec := { s.dec with
          v := BitVec.ofNat 64 (s.dec.v.toNat + p.toNat * 2 ^ s.dec.M), M := s.dec.M + 7,
          state := .done }
        decFlight := some { fl with cursor := fl.cursor + 1 } }) ∧
    (u64Max < s.dec.v.toNat + p.toNat * 2 ^ s.dec.M →
      ∀ i, i = .contMore p ∨ i = .contLast p → Leads (exec i s) fun t =>
        t.dec = { s.dec with state := .failed } ∧ t.out.err = .tooLarge ∧
        t.out.cnt = fl.cursor ∧ t.out.done = false ∧ t.decFlight = none ∧
        t.enc = s.enc ∧ t.mem = s.mem)

/-- 30_encoding.md R81 (log 11): a micro-step or an octet row is never taken on its own: with no
operation in progress on its unit there is no move. -/
def Obligations.MicroStepsNeedAnOperationInProgress : Prop :=
  (∀ s : State, s.decFlight = none →
    exec .dFirst s = .refused .notSelected ∧ exec .dCont s = .refused .notSelected ∧
    (∀ f v, exec (.octet0N1 f v) s = .refused .notSelected ∧
      exec (.octet0N1Long f) s = .refused .notSelected ∧
      exec (.octet0N1Short f v) s = .refused .notSelected) ∧
    (∀ f v, exec (.octet0N2 f v) s = .refused .notSelected ∧
      exec (.octet0N2Long f) s = .refused .notSelected ∧
      exec (.octet0N2Short f v) s = .refused .notSelected) ∧
    (∀ f v, exec (.octet0N3 f v) s = .refused .notSelected ∧
      exec (.octet0N3Long f) s = .refused .notSelected ∧
      exec (.octet0N3Short f v) s = .refused .notSelected) ∧
    (∀ f v, exec (.octet0N4 f v) s = .refused .notSelected ∧
      exec (.octet0N4Long f) s = .refused .notSelected ∧
      exec (.octet0N4Short f v) s = .refused .notSelected) ∧
    (∀ f v, exec (.octet0N5 f v) s = .refused .notSelected ∧
      exec (.octet0N5Long f) s = .refused .notSelected ∧
      exec (.octet0N5Short f v) s = .refused .notSelected) ∧
    (∀ f v, exec (.octet0N6 f v) s = .refused .notSelected ∧
      exec (.octet0N6Long f) s = .refused .notSelected ∧
      exec (.octet0N6Short f v) s = .refused .notSelected) ∧
    (∀ f v, exec (.octet0N7 f v) s = .refused .notSelected ∧
      exec (.octet0N7Long f) s = .refused .notSelected ∧
      exec (.octet0N7Short f v) s = .refused .notSelected) ∧
    (∀ v, exec (.octet0N8 v) s = .refused .notSelected ∧
      exec .octet0N8Long s = .refused .notSelected ∧
      exec (.octet0N8Short v) s = .refused .notSelected) ∧
    (∀ p, exec (.contMore p) s = .refused .notSelected ∧ exec (.contLast p) s = .refused .notSelected)) ∧
  (∀ s : State, s.encFlight = none →
    exec .eFirst s = .refused .notSelected ∧ exec .eCont s = .refused .notSelected ∧
    exec .eFinal s = .refused .notSelected)
end

