-- ==== Sys2Proof/Laws/State.lean ====
section
/-! SUPPORT. What each update of the state leaves in each field: the end of an operation, raising a
condition, the returns, the effect of a micro-step. All by definition, tagged for simp. -/

namespace Sys2Proof.Machine

variable (cnt : Nat) (val : Option U64) (err : Err) (done : Bool) (s : State)

/-! ## finish -/

@[simp] theorem finish_dec : (finish cnt val err done s).dec = s.dec := rfl
@[simp] theorem finish_enc : (finish cnt val err done s).enc = s.enc := rfl
@[simp] theorem finish_mem : (finish cnt val err done s).mem = s.mem := rfl
@[simp] theorem finish_decFlight : (finish cnt val err done s).decFlight = s.decFlight := rfl
@[simp] theorem finish_encFlight : (finish cnt val err done s).encFlight = s.encFlight := rfl
@[simp] theorem finish_pending : (finish cnt val err done s).pending = s.pending := rfl
@[simp] theorem finish_draws : (finish cnt val err done s).draws = s.draws + 1 := rfl
@[simp] theorem finish_cnt : (finish cnt val err done s).out.cnt = cnt := rfl
@[simp] theorem finish_err : (finish cnt val err done s).out.err = err := rfl
@[simp] theorem finish_done : (finish cnt val err done s).out.done = done := rfl
@[simp] theorem finish_valOut_some (v : U64) :
    (finish cnt (some v) err done s).out.valOut = v := rfl

/-! ## raisePrecondition -/

@[simp] theorem raisePrecondition_dec : (raisePrecondition s).dec = s.dec := rfl
@[simp] theorem raisePrecondition_enc : (raisePrecondition s).enc = s.enc := rfl
@[simp] theorem raisePrecondition_mem : (raisePrecondition s).mem = s.mem := rfl
@[simp] theorem raisePrecondition_decFlight : (raisePrecondition s).decFlight = s.decFlight := rfl
@[simp] theorem raisePrecondition_encFlight : (raisePrecondition s).encFlight = s.encFlight := rfl
@[simp] theorem raisePrecondition_pending : (raisePrecondition s).pending = s.pending := rfl
@[simp] theorem raisePrecondition_draws : (raisePrecondition s).draws = s.draws + 1 := rfl
@[simp] theorem raisePrecondition_cnt : (raisePrecondition s).out.cnt = 0 := rfl
@[simp] theorem raisePrecondition_err :
    (raisePrecondition s).out.err = .preconditionViolation := rfl
@[simp] theorem raisePrecondition_done : (raisePrecondition s).out.done = false := rfl

/-! ## finishDec, retireDec -/

variable (r : DecResult)

@[simp] theorem finishDec_dec : (finishDec r s).dec = s.dec := rfl
@[simp] theorem finishDec_enc : (finishDec r s).enc = s.enc := rfl
@[simp] theorem finishDec_mem : (finishDec r s).mem = s.mem := rfl
@[simp] theorem finishDec_decFlight : (finishDec r s).decFlight = s.decFlight := rfl
@[simp] theorem finishDec_encFlight : (finishDec r s).encFlight = s.encFlight := rfl
@[simp] theorem finishDec_pending : (finishDec r s).pending = s.pending := rfl
@[simp] theorem finishDec_draws : (finishDec r s).draws = s.draws + 1 := rfl
@[simp] theorem finishDec_cnt : (finishDec r s).out.cnt = r.cnt := rfl
@[simp] theorem finishDec_err : (finishDec r s).out.err = r.err := rfl
@[simp] theorem finishDec_done : (finishDec r s).out.done = decDone r.d := rfl

/-- `val_out = D.v` once Done (R114). -/
theorem finishDec_valOut (h : r.d.state = .done) : (finishDec r s).out.valOut = r.d.v := by
  simp [finishDec, decValue, decDone, h]

@[simp] theorem retireDec_dec : (retireDec r s).dec = r.d := rfl
@[simp] theorem retireDec_enc : (retireDec r s).enc = s.enc := rfl
@[simp] theorem retireDec_mem : (retireDec r s).mem = s.mem := rfl
@[simp] theorem retireDec_decFlight : (retireDec r s).decFlight = none := rfl
@[simp] theorem retireDec_encFlight : (retireDec r s).encFlight = s.encFlight := rfl
@[simp] theorem retireDec_pending : (retireDec r s).pending = s.pending := rfl
@[simp] theorem retireDec_draws : (retireDec r s).draws = s.draws + 1 := rfl
@[simp] theorem retireDec_cnt : (retireDec r s).out.cnt = r.cnt := rfl
@[simp] theorem retireDec_err : (retireDec r s).out.err = r.err := rfl
@[simp] theorem retireDec_done : (retireDec r s).out.done = decDone r.d := rfl

/-! ## finishEnc, retireEnc, afterOctet -/

variable (e : Encoder) (x : EncStep) (f : EncFlight)

@[simp] theorem finishEnc_dec : (finishEnc e cnt err s).dec = s.dec := rfl
@[simp] theorem finishEnc_enc : (finishEnc e cnt err s).enc = s.enc := rfl
@[simp] theorem finishEnc_mem : (finishEnc e cnt err s).mem = s.mem := rfl
@[simp] theorem finishEnc_decFlight : (finishEnc e cnt err s).decFlight = s.decFlight := rfl
@[simp] theorem finishEnc_encFlight : (finishEnc e cnt err s).encFlight = s.encFlight := rfl
@[simp] theorem finishEnc_pending : (finishEnc e cnt err s).pending = s.pending := rfl
@[simp] theorem finishEnc_draws : (finishEnc e cnt err s).draws = s.draws + 1 := rfl
@[simp] theorem finishEnc_cnt : (finishEnc e cnt err s).out.cnt = cnt := rfl
@[simp] theorem finishEnc_err : (finishEnc e cnt err s).out.err = err := rfl
@[simp] theorem finishEnc_done : (finishEnc e cnt err s).out.done = encDone e := rfl

@[simp] theorem retireEnc_dec : (retireEnc cnt err s).dec = s.dec := rfl
@[simp] theorem retireEnc_enc : (retireEnc cnt err s).enc = s.enc := rfl
@[simp] theorem retireEnc_mem : (retireEnc cnt err s).mem = s.mem := rfl
@[simp] theorem retireEnc_decFlight : (retireEnc cnt err s).decFlight = s.decFlight := rfl
@[simp] theorem retireEnc_encFlight : (retireEnc cnt err s).encFlight = none := rfl
@[simp] theorem retireEnc_pending : (retireEnc cnt err s).pending = s.pending := rfl
@[simp] theorem retireEnc_draws : (retireEnc cnt err s).draws = s.draws + 1 := rfl
@[simp] theorem retireEnc_cnt : (retireEnc cnt err s).out.cnt = cnt := rfl
@[simp] theorem retireEnc_err : (retireEnc cnt err s).out.err = err := rfl
@[simp] theorem retireEnc_done : (retireEnc cnt err s).out.done = encDone s.enc := rfl

@[simp] theorem afterOctet_dec : (afterOctet x f s).dec = s.dec := rfl
@[simp] theorem afterOctet_enc : (afterOctet x f s).enc = x.e := rfl
@[simp] theorem afterOctet_mem : (afterOctet x f s).mem = x.mem := rfl
@[simp] theorem afterOctet_out : (afterOctet x f s).out = s.out := rfl
@[simp] theorem afterOctet_decFlight : (afterOctet x f s).decFlight = s.decFlight := rfl
@[simp] theorem afterOctet_encFlight :
    (afterOctet x f s).encFlight = some { f with cursor := f.cursor + 1 } := rfl
@[simp] theorem afterOctet_pending : (afterOctet x f s).pending = s.pending := rfl
@[simp] theorem afterOctet_draws : (afterOctet x f s).draws = s.draws := rfl

/-! ## The registers after a micro-step -/

variable (d : Decoder) (b : Octet) (u : U64)

@[simp] theorem dFail_state : (dFail d).state = .failed := rfl
@[simp] theorem dFail_N : (dFail d).N = d.N := rfl
@[simp] theorem dFail_v : (dFail d).v = d.v := rfl
@[simp] theorem dFail_M : (dFail d).M = d.M := rfl
@[simp] theorem dContOn_N : (dContOn b d).N = d.N := rfl
@[simp] theorem dContOn_M : (dContOn b d).M = d.M + 7 := rfl
@[simp] theorem dFirstOn_N : (dFirstOn b d).N = d.N := by
  simp only [dFirstOn]; split <;> rfl
@[simp] theorem eDone_state : (eDone u e).state = .done := rfl
@[simp] theorem eDone_N : (eDone u e).N = e.N := rfl
@[simp] theorem eSettle_N : (eSettle e).N = e.N := by
  simp only [eSettle]; split <;> rfl
@[simp] theorem eSettle_rem : (eSettle e).rem = e.rem := by
  simp only [eSettle]; split <;> rfl

end Sys2Proof.Machine
end

