-- ==== Sys2Proof/Laws/Memory.lean ====
section
/-! SUPPORT. The laws of the host's buffer: a write is read back and touches no other address; the
canonical form is kept. -/

namespace Sys2Proof.Machine

/-- A write replaces the octet at its address and no other (20_memory.md R55). -/
@[simp] theorem Memory.read_write (m : Memory) (a : Nat) (b : Octet) (a' : Nat) :
    Memory.read (m.write a b) a' = if a' = a then some b else m.read a' := by
  induction m with
  | nil =>
    by_cases h : a' = a
    · simp [Memory.write, Memory.read, h]
    · simp [Memory.write, Memory.read, h, Ne.symm h]
  | cons c m ih =>
    simp only [Memory.write]
    split
    · by_cases h : a' = a
      · simp [Memory.read, h]
      · simp [Memory.read, h, Ne.symm h]
    · split
      · rename_i h1 h2
        by_cases h : a' = a
        · simp [Memory.read, h]
        · simp [Memory.read, h, Ne.symm h, ← h2]
      · rename_i h1 h2
        simp only [Memory.read, ih]
        by_cases h : a' = a
        · simp [h, Ne.symm h2]
        · simp [h]

/-- The addresses of a written memory are the written one and the old ones. -/
theorem Memory.mem_write {m : Memory} {a : Nat} {b : Octet} {c : Host.Cell}
    (h : c ∈ m.write a b) : c.1 = a ∨ c ∈ m := by
  induction m with
  | nil => simp [Memory.write] at h; simp [h]
  | cons d m ih =>
    simp only [Memory.write] at h
    split at h
    · rcases List.mem_cons.1 h with rfl | h
      · exact .inl rfl
      · exact .inr h
    · split at h
      · rcases List.mem_cons.1 h with rfl | h
        · exact .inl rfl
        · exact .inr (List.mem_cons_of_mem _ h)
      · rcases List.mem_cons.1 h with rfl | h
        · exact .inr (List.mem_cons_self ..)
        · exact (ih h).imp id (List.mem_cons_of_mem _)

/-- A write keeps the canonical form. -/
theorem Memory.write_wf {m : Memory} (a : Nat) (b : Octet) (h : m.wf) :
    Memory.wf (m.write a b) := by
  induction m with
  | nil => simp [Memory.write]
  | cons c m ih =>
    obtain ⟨hc, hm⟩ := List.pairwise_cons.1 h
    simp only [Memory.write]
    split
    · rename_i hlt
      refine List.pairwise_cons.2 ⟨fun x hx => ?_, h⟩
      rcases List.mem_cons.1 hx with rfl | hx
      · exact hlt
      · exact Nat.lt_trans hlt (hc x hx)
    · split
      · rename_i heq
        exact List.pairwise_cons.2 ⟨fun x hx => heq ▸ hc x hx, hm⟩
      · rename_i hge hne
        refine List.pairwise_cons.2 ⟨fun x hx => ?_, ih hm⟩
        rcases Memory.mem_write hx with h1 | h1
        · omega
        · exact hc x h1

/-- Reset's memory is in canonical form. -/
theorem reset_mem_wf : Memory.wf State.reset.mem := List.Pairwise.nil

end Sys2Proof.Machine
end

