-- ==== Sys2Proof/Laws/Decoder.lean ====
section
/-! SUPPORT. What the decoder's shared operations can do, said once: the prefix field, the two
micro-steps, the loop of 41_decoder.md R110, a whole `DEC.RUN`, a micro-step on the operation in
progress. -/

namespace Sys2Proof.Machine

/-! ## Prefix width -/

/-- A legal width is one of the eight. -/
theorem width_cases {n : Width} (h1 : 1 ≤ n.toNat) (h8 : n.toNat ≤ 8) :
    n = 1 ∨ n = 2 ∨ n = 3 ∨ n = 4 ∨ n = 5 ∨ n = 6 ∨ n = 7 ∨ n = 8 := by
  revert h1 h8; revert n; decide

theorem badWidth_iff (n : Width) : badWidth n = true ↔ n.toNat = 0 ∨ 9 ≤ n.toNat := by
  simp only [badWidth, Bool.or_eq_true, decide_eq_true_eq]; omega

theorem badWidth_false {n : Width} (h1 : 1 ≤ n.toNat) (h8 : n.toNat ≤ 8) : badWidth n = false := by
  have h := badWidth_iff n
  cases hb : badWidth n
  · rfl
  · exact absurd (h.1 hb) (by omega)

theorem legal_of_badWidth_false {n : Width} (h : badWidth n = false) :
    1 ≤ n.toNat ∧ n.toNat ≤ 8 := by
  have h' := badWidth_iff n
  rw [h] at h'
  constructor <;> by_contra hc <;> exact absurd (h'.2 (by omega)) (by decide)

theorem maxp_le {n : Width} (h8 : n.toNat ≤ 8) : maxp n ≤ 255 := by
  have := Nat.pow_le_pow_right (n := 2) (by omega) h8
  simp only [maxp]; omega

/-- `B & maxp(N)` is `B mod 2^N` (R104). -/
theorem prefixField_toNat {n : Width} (h8 : n.toNat ≤ 8) (b : Octet) :
    (prefixField n b).toNat = b.toNat % 2 ^ n.toNat := by
  have hm := maxp_le h8
  simp only [prefixField, prefixMask, BitVec.toNat_and, BitVec.toNat_ofNat]
  rw [Nat.mod_eq_of_lt (by omega), maxp, Nat.and_two_pow_sub_one_eq_mod]

theorem prefixField_le {n : Width} (h8 : n.toNat ≤ 8) (b : Octet) :
    (prefixField n b).toNat ≤ maxp n := by
  have := Nat.mod_lt b.toNat (Nat.two_pow_pos n.toNat)
  rw [prefixField_toNat h8, maxp]; omega

/-- The payload is `B mod 128` (R72). -/
theorem payload_eq (b : Octet) : payload b = b.toNat % 128 := by
  simp only [payload, BitVec.toNat_and]
  exact Nat.and_two_pow_sub_one_eq_mod b.toNat 7

theorem payload_lt (b : Octet) : payload b < 128 := by
  rw [payload_eq]; exact Nat.mod_lt _ (by omega)

/-- Bit 7 is set from 128 up (R72). -/
theorem moreFollow_iff (b : Octet) : moreFollow b = true ↔ 128 ≤ b.toNat := by
  revert b; decide

/-! ## The micro-steps -/

/-- D.FIRST: SHORT ends, LONG leaves the sentinel in the accumulator (R104). -/
theorem dFirstOn_cases {d : Decoder} (b : Octet) (h8 : d.N.toNat ≤ 8) :
    (b.toNat % 2 ^ d.N.toNat < maxp d.N ∧
      dFirstOn b d = { d with v := BitVec.ofNat 64 (b.toNat % 2 ^ d.N.toNat), state := .done }) ∨
    (b.toNat % 2 ^ d.N.toNat = maxp d.N ∧
      dFirstOn b d = { d with v := BitVec.ofNat 64 (maxp d.N), M := 0, state := .continuation }) := by
  have hle := prefixField_le h8 b
  have hv : (prefixField d.N b).zeroExtend 64 = BitVec.ofNat 64 (prefixField d.N b).toNat := by
    apply BitVec.eq_of_toNat_eq; simp
  simp only [dFirstOn]
  rw [hv, prefixField_toNat h8] at *
  by_cases h : b.toNat % 2 ^ d.N.toNat < maxp d.N
  · exact .inl ⟨h, by rw [if_pos h]⟩
  · have he : b.toNat % 2 ^ d.N.toNat = maxp d.N := by omega
    exact .inr ⟨he, by rw [if_neg h, he]⟩

theorem dFirstOn_state (b : Octet) (d : Decoder) :
    (dFirstOn b d).state = .done ∨ (dFirstOn b d).state = .continuation := by
  simp only [dFirstOn]; split <;> simp

theorem overflows_iff (b : Octet) (d : Decoder) :
    overflows b d = true ↔ 2 ^ 64 ≤ d.v.toNat + b.toNat % 128 * 2 ^ d.M := by
  simp only [overflows, contribution, payload_eq, u64Max, decide_eq_true_eq]; omega

/-- D.CONT, accepting: nothing wraps (R105). -/
theorem dContOn_v {b : Octet} {d : Decoder} (h : overflows b d = false) :
    (dContOn b d).v.toNat = d.v.toNat + b.toNat % 128 * 2 ^ d.M := by
  have h' : ¬ 2 ^ 64 ≤ d.v.toNat + b.toNat % 128 * 2 ^ d.M := by
    rw [← overflows_iff, h]; decide
  simp only [dContOn, contribution, payload_eq, BitVec.toNat_ofNat]
  exact Nat.mod_eq_of_lt (by omega)

theorem dContOn_state (b : Octet) (d : Decoder) :
    (dContOn b d).state = if 128 ≤ b.toNat then .continuation else .done := by
  simp only [dContOn, ← moreFollow_iff]

/-! ## The loop -/

theorem decLoop_of_done (bs : List Octet) (i : Nat) {d : Decoder} (h : d.state = .done) :
    decLoop bs i d = ⟨d, i, .none⟩ := by
  cases bs <;> simp [decLoop, h]

/-- Everything the loop can end with, from an instance that has not failed (R110, R111, R106). -/
structure DecLoopEnds (bs : List Octet) (i : Nat) (d : Decoder) (r : DecResult) : Prop where
  start_le : i ≤ r.cnt
  cnt_le : r.cnt ≤ i + bs.length
  width : r.d.N = d.N
  none_iff : r.err = .none ↔ r.d.state = .done
  more_iff : r.err = .needsMore ↔ r.cnt = i + bs.length ∧ r.d.state ≠ .done ∧ r.d.state ≠ .failed
  large_iff : r.err = .tooLarge ↔ r.d.state = .failed
  large_lt : r.err = .tooLarge → r.cnt < i + bs.length
  instanceKept : r.d.state ≠ .idle
  first_iff : r.d.state = .first ↔ d.state = .first ∧ bs = []

theorem decLoop_ends (bs : List Octet) (i : Nat) (d : Decoder)
    (h1 : d.state ≠ .idle) (h2 : d.state ≠ .failed) :
    DecLoopEnds bs i d (decLoop bs i d) := by
  induction bs generalizing i d with
  | nil =>
    rw [decLoop]
    split
    · rename_i h; constructor <;> simp [h]
    · rename_i h; constructor <;> simp [h, h1, h2]
  | cons b bs ih =>
    rw [decLoop]
    split
    · rename_i h; constructor <;> simp [h]
    · rename_i hd
      split
      · have hs := dFirstOn_state b d
        have ih := ih (i + 1) (dFirstOn b d) (by rcases hs with h | h <;> simp [h])
          (by rcases hs with h | h <;> simp [h])
        obtain ⟨a1, a2, a3, a4, a5, a6, a7, a8, a9⟩ := ih
        have hlen : i + 1 + bs.length = i + (b :: bs).length := by
          simp only [List.length_cons]; omega
        rw [hlen] at a2 a5 a7
        exact ⟨by omega, a2, by simpa using a3, a4, a5, a6, a7, a8,
          by rw [a9]; rcases hs with h | h <;> simp [h]⟩
      · rename_i hf
        have hc : d.state = .continuation := by
          revert h1 h2 hd hf; cases d.state <;> simp
        split
        · constructor <;> simp [hf]
        · have hs : (dContOn b d).state = .continuation ∨ (dContOn b d).state = .done := by
            rw [dContOn_state]; split <;> simp
          have ih := ih (i + 1) (dContOn b d) (by rcases hs with h | h <;> simp [h])
            (by rcases hs with h | h <;> simp [h])
          obtain ⟨a1, a2, a3, a4, a5, a6, a7, a8, a9⟩ := ih
          have hlen : i + 1 + bs.length = i + (b :: bs).length := by
            simp only [List.length_cons]; omega
          rw [hlen] at a2 a5 a7
          exact ⟨by omega, a2, by simpa using a3, a4, a5, a6, a7, a8,
            by rw [a9]; rcases hs with h | h <;> simp [h, hf]⟩

/-- D.FIRST keeps the registers legal (R29). -/
theorem dFirstOn_legal {d : Decoder} (b : Octet) (h : d.legal) (hs : d.state ≠ .idle) :
    (dFirstOn b d).legal := by
  have hN := h.1 hs
  have hm := maxp_le hN.2
  rcases dFirstOn_cases b hN.2 with ⟨-, he⟩ | ⟨-, he⟩ <;> rw [he]
  · exact ⟨fun _ => hN, h.2.1, by simp⟩
  · refine ⟨fun _ => hN, rfl, fun _ => ?_⟩
    simp only [BitVec.toNat_ofNat]
    rw [Nat.mod_eq_of_lt (by omega)]

/-- D.CONT, accepting, keeps the registers legal (R29). -/
theorem dContOn_legal {d : Decoder} {b : Octet} (h : d.legal) (hs : d.state = .continuation)
    (ho : overflows b d = false) : (dContOn b d).legal := by
  have hN := h.1 (by simp [hs])
  have hM := h.2.1
  have hv := h.2.2 hs
  refine ⟨fun _ => hN, by rw [dContOn_M]; omega, fun _ => ?_⟩
  rw [dContOn_v ho, dContOn_N]; omega

/-- The loop keeps the registers legal, and the accumulator of a decoder in Continuation never falls (R23). -/
theorem decLoop_legal (bs : List Octet) (i : Nat) (d : Decoder) (h : d.legal)
    (h1 : d.state ≠ .idle) (h2 : d.state ≠ .failed) :
    (decLoop bs i d).d.legal ∧
      (d.state = .continuation → d.v.toNat ≤ (decLoop bs i d).d.v.toNat) := by
  induction bs generalizing i d with
  | nil => rw [decLoop]; split <;> exact ⟨h, fun _ => Nat.le_refl _⟩
  | cons b bs ih =>
    rw [decLoop]
    split
    · exact ⟨h, fun _ => Nat.le_refl _⟩
    · rename_i hd
      split
      · rename_i hf
        have hs := dFirstOn_state b d
        have := ih (i + 1) _ (dFirstOn_legal b h h1) (by rcases hs with h | h <;> simp [h])
          (by rcases hs with h | h <;> simp [h])
        exact ⟨this.1, by simp [hf]⟩
      · rename_i hf
        have hc : d.state = .continuation := by
          revert h1 h2 hd hf; cases d.state <;> simp
        split
        · exact ⟨⟨fun _ => h.1 h1, h.2.1, by simp⟩, fun _ => Nat.le_refl _⟩
        · rename_i ho
          have ho : overflows b d = false := by simpa using ho
          have hs : (dContOn b d).state = .continuation ∨ (dContOn b d).state = .done := by
            rw [dContOn_state]; split <;> simp
          have := ih (i + 1) _ (dContOn_legal h hc ho) (by rcases hs with h | h <;> simp [h])
            (by rcases hs with h | h <;> simp [h])
          refine ⟨this.1, fun _ => ?_⟩
          have hv := dContOn_v ho
          rcases hs with hs | hs
          · have := this.2 hs; omega
          · rw [decLoop_of_done _ _ hs]; simp only; omega

/-- The loop of a decoder in Continuation adds the unbounded contributions of the octets it counts, and
stops with TooLarge only at an octet whose unbounded sum is too large (R105, R106, R107). -/
theorem decLoop_sum (bs : List Octet) (i : Nat) (d : Decoder) (hc : d.state = .continuation) :
    (decLoop bs i d).d.v.toNat =
        d.v.toNat + payloadSum (bs.take ((decLoop bs i d).cnt - i)) * 2 ^ d.M ∧
      (decLoop bs i d).d.M = d.M + 7 * ((decLoop bs i d).cnt - i) ∧
      ((decLoop bs i d).err = .tooLarge → ∃ b, bs[(decLoop bs i d).cnt - i]? = some b ∧
        overflows b (decLoop bs i d).d = true) := by
  induction bs generalizing i d with
  | nil => simp [decLoop, hc, payloadSum]
  | cons b bs ih =>
    simp only [decLoop, hc, reduceCtorEq, if_false]
    split
    · rename_i ho
      exact ⟨by simp [dFail, payloadSum], by simp [dFail], fun _ => ⟨b, by simp, ho⟩⟩
    · rename_i ho
      have hv := dContOn_v (b := b) (d := d) (by simpa using ho)
      by_cases hm : 128 ≤ b.toNat
      · have hs : (dContOn b d).state = .continuation := by rw [dContOn_state, if_pos hm]
        obtain ⟨a1, a2, a3⟩ := ih (i + 1) (dContOn b d) hs
        have hle := (decLoop_ends bs (i + 1) (dContOn b d) (by simp [hs]) (by simp [hs])).start_le
        generalize decLoop bs (i + 1) (dContOn b d) = r at *
        obtain ⟨k, hk⟩ := Nat.exists_eq_add_of_le hle
        have e1 : r.cnt - i = k + 1 := by omega
        have e2 : r.cnt - (i + 1) = k := by omega
        rw [e2] at a1 a2 a3
        rw [e1]
        refine ⟨?_, by rw [a2, dContOn_M]; omega, by simpa using a3⟩
        rw [a1, hv, dContOn_M, List.take_succ_cons, payloadSum, payload_eq, Nat.pow_add]
        ring
      · have hs : (dContOn b d).state = .done := by rw [dContOn_state, if_neg hm]
        rw [decLoop_of_done _ _ hs]
        simp [hv, payloadSum, payload_eq]

/-- The loop over two pieces is the loop over the first, carried on over the second only if the first ran
out (R111). -/
theorem decLoop_append (xs ys : List Octet) (i : Nat) (d : Decoder) :
    decLoop (xs ++ ys) i d =
      if (decLoop xs i d).err = .needsMore
      then decLoop ys (decLoop xs i d).cnt (decLoop xs i d).d
      else decLoop xs i d := by
  induction xs generalizing i d with
  | nil =>
    simp only [List.nil_append, decLoop]
    by_cases hd : d.state = .done
    · simp [hd, decLoop_of_done]
    · simp [hd]
  | cons b xs ih =>
    simp only [List.cons_append, decLoop]
    split
    · simp
    · split
      · exact ih _ _
      · split
        · simp
        · exact ih _ _

/-! ## A whole DEC.RUN -/

/-- With no operation in progress on the unit `DEC.RUN` ends in the one next state the registers give. -/
theorem execDecRun_eq (view : List Octet) {s : State} (h : s.decFlight = none) :
    execDecRun view s =
      .next (finishDec (decRunOn view s.dec) { s with dec := (decRunOn view s.dec).d }) := by
  simp [execDecRun, h]

/-- The checks before any octet are passed by First and Continuation on a view that is not empty. -/
theorem decPrecheck_none {view : List Octet} {d : Decoder} (h : decPrecheck view d = none) :
    view ≠ [] ∧ d.state ≠ .idle ∧ d.state ≠ .failed ∧ d.state ≠ .done := by
  simp only [decPrecheck] at h
  split_ifs at h with h1 h2 h3 h4
  exact ⟨h3, h1, h2, h4⟩

/-- A run on a context is the loop, or leaves the context as it is. -/
theorem decRunOn_cases (view : List Octet) (d : Decoder) :
    (∃ err, decPrecheck view d = some err ∧ decRunOn view d = ⟨d, 0, err⟩) ∨
    (decPrecheck view d = none ∧ decRunOn view d = decLoop view 0 d) := by
  simp only [decRunOn]
  cases h : decPrecheck view d <;> simp

theorem decRunOn_N (view : List Octet) (d : Decoder) : (decRunOn view d).d.N = d.N := by
  rcases decRunOn_cases view d with ⟨err, -, h⟩ | ⟨hp, h⟩
  · rw [h]
  · obtain ⟨-, h1, h2, -⟩ := decPrecheck_none hp
    rw [h]; exact (decLoop_ends view 0 d h1 h2).width

theorem decRunOn_cnt_le (view : List Octet) (d : Decoder) :
    (decRunOn view d).cnt ≤ view.length := by
  rcases decRunOn_cases view d with ⟨err, -, h⟩ | ⟨hp, h⟩
  · rw [h]; simp
  · obtain ⟨-, h1, h2, -⟩ := decPrecheck_none hp
    have := (decLoop_ends view 0 d h1 h2).cnt_le
    rw [h]; omega

/-! ## A micro-step on the operation in progress -/

/-- A micro-step of the decoder touches the decoder unit and, when it fails, the result ports; nothing
else (R53, R44). -/
structure DecoderOnly (s t : State) : Prop where
  enc : t.enc = s.enc
  mem : t.mem = s.mem
  encFlight : t.encFlight = s.encFlight
  pending : t.pending = s.pending
  width : t.dec.N = s.dec.N

theorem decMicro_only (b : Octet) (f : DecFlight) (s : State) : DecoderOnly s (decMicro b f s) := by
  simp only [decMicro]
  split
  · constructor <;> simp
  · split <;> constructor <;> simp

/-- An octet or tag that selects a micro-step of the decoder gives that micro-step, nothing else. -/
theorem takeOctet_next {t : DecTag} {b : Octet} {s u : State} (h : takeOctet t b s = .next u) :
    ∃ f, s.decFlight = some f ∧ s.dec.state = t ∧ f.cursor < f.view.length ∧ u = decMicro b f s := by
  simp only [takeOctet] at h
  split at h
  · cases h
  · rename_i f hf
    split at h
    · rename_i hc; cases h; exact ⟨f, hf, hc.1, hc.2, rfl⟩
    · cases h

theorem takeOctet0_next {n : Width} {b : Octet} {s u : State} (h : takeOctet0 n b s = .next u) :
    s.dec.N = n ∧ takeOctet .first b s = .next u := by
  simp only [takeOctet0] at h
  split at h
  · exact ⟨‹_›, h⟩
  · cases h

theorem takeShort_next {k : Nat} {n : Width} {v : BitVec k} {b : Octet} {s u : State}
    (h : takeShort n v b s = .next u) : takeOctet0 n b s = .next u := by
  simp only [takeShort] at h
  split at h
  · exact h
  · cases h

theorem decMicroAtCursor_next {t : DecTag} {s u : State} (h : decMicroAtCursor t s = .next u) :
    ∃ f b, s.decFlight = some f ∧ f.view[f.cursor]? = some b ∧ s.dec.state = t ∧
      u = decMicro b f s := by
  simp only [decMicroAtCursor] at h
  split at h
  · cases h
  · rename_i f hf
    split at h
    · cases h
    · rename_i b hb
      split at h
      · rename_i hc; cases h; exact ⟨f, b, hf, hb, hc, rfl⟩
      · cases h

end Sys2Proof.Machine
end

