-- ==== Sys2Proof/Laws/Encoder.lean ====
section
/-! SUPPORT. What the encoder's shared operations can do, said once: the micro-steps, the loop of
42_encoder.md R136, a whole `ENC.RUN`; and the division loop of ROCT. -/

namespace Sys2Proof.Machine

/-! ## ROCT -/

theorem roctLoop_fuel (fuel r c : Nat) (h : r < 128 ^ (fuel + 1)) (extra : Nat) :
    roctLoop (fuel + extra) r c = roctLoop fuel r c := by
  induction fuel generalizing r c with
  | zero =>
    have : ¬ 128 ≤ r := by simpa using h
    cases extra <;> simp [roctLoop, this]
  | succ k ih =>
    rw [Nat.add_right_comm]
    simp only [roctLoop]
    split
    · exact ih _ _ (Nat.div_lt_of_lt_mul (by rw [Nat.pow_succ] at h; omega))
    · rfl

/-- The loop of R91 counts base-128 digits: one more octet for every digit above the first. -/
theorem roctLoop_step (fuel r c : Nat) :
    roctLoop (fuel + 1) r c = if 128 ≤ r then roctLoop fuel (r / 128) (c + 1) else c := rfl

/-! ## The micro-steps -/

theorem eSettle_cases (e : Encoder) :
    (e.state = .continuation ∧ e.rem.toNat < 128 ∧ eSettle e = { e with state := .final }) ∨
    (¬(e.state = .continuation ∧ e.rem.toNat < 128) ∧ eSettle e = e) := by
  simp only [eSettle]
  split
  · rename_i h; exact .inl ⟨h.1, h.2, rfl⟩
  · rename_i h; exact .inr ⟨h, rfl⟩

/-- Everything E.FIRST can do when it does not fault (R138). -/
theorem eFirstOn_ok {r : U64} {a : Nat} {e : Encoder} {m : Memory} {x : EncStep}
    (h : eFirstOn r a e m = .ok x) :
    ∃ old, oldFirstOctet e.N m a = some old ∧
      ((e.rem.toNat < maxp e.N ∧
        x = ⟨eDone r e, m.write a ((old &&& flagMask e.N) ||| e.rem.truncate 8)⟩) ∨
      (maxp e.N ≤ e.rem.toNat ∧
        x = ⟨{ e with rem := BitVec.ofNat 64 (e.rem.toNat - maxp e.N), state := .continuation },
          m.write a ((old &&& flagMask e.N) ||| prefixMask e.N)⟩)) := by
  simp only [eFirstOn] at h
  split at h
  · cases h
  · rename_i old ho
    split at h
    · rename_i hlt; cases h; exact ⟨old, ho, .inl ⟨hlt, rfl⟩⟩
    · rename_i hge; cases h; exact ⟨old, ho, .inr ⟨by omega, rfl⟩⟩

theorem eFirstOn_error {r : U64} {a : Nat} {e : Encoder} {m : Memory} {f : Fault} :
    eFirstOn r a e m = .error f ↔ f = .unwrittenOctet ∧ oldFirstOctet e.N m a = none := by
  simp only [eFirstOn]
  split
  · rename_i h; simp [h]
  · rename_i old h; split <;> simp [h]

theorem oldFirstOctet_none {n : Width} {m : Memory} {a : Nat} :
    oldFirstOctet n m a = none ↔ n.toNat < 8 ∧ m.read a = none := by
  simp only [oldFirstOctet]; split <;> simp [*]

/-- What a micro-step that writes an octet does, whichever it is (R138 to R140): it writes the one
address, keeps the width, and goes to Continuation or Done. -/
theorem eOctetOn_ok {r : U64} {a : Nat} {e : Encoder} {m : Memory} {x : EncStep}
    (h1 : e.state ≠ .idle) (h2 : e.state ≠ .done) (h : eOctetOn r a e m = .ok x) :
    x.e.N = e.N ∧ (∃ b, x.mem = m.write a b) ∧
      (x.e.state = .done ∨
        (x.e.state = .continuation ∧ x.e.rem.toNat ≤ e.rem.toNat)) := by
  have hr := e.rem.isLt
  simp only [eOctetOn] at h
  split at h
  · obtain ⟨old, -, ⟨-, rfl⟩ | ⟨hge, rfl⟩⟩ := eFirstOn_ok h
    · exact ⟨rfl, ⟨_, rfl⟩, .inl rfl⟩
    · refine ⟨rfl, ⟨_, rfl⟩, .inr ⟨rfl, ?_⟩⟩
      simp only [BitVec.toNat_ofNat]
      rw [Nat.mod_eq_of_lt (by omega)]; omega
  · rename_i hs
    cases h
    refine ⟨rfl, ⟨_, rfl⟩, .inr ⟨hs, ?_⟩⟩
    simp only [eMoreOn, BitVec.toNat_ofNat]
    rw [Nat.mod_eq_of_lt (by omega)]; omega
  · cases h; exact ⟨rfl, ⟨_, rfl⟩, .inl rfl⟩
  · exact absurd ‹_› h1
  · exact absurd ‹_› h2

/-- Only E.FIRST can fault. -/
theorem eOctetOn_error {r : U64} {a : Nat} {e : Encoder} {m : Memory} {f : Fault} :
    eOctetOn r a e m = .error f ↔
      f = .unwrittenOctet ∧ e.state = .first ∧ e.N.toNat < 8 ∧ m.read a = none := by
  simp only [eOctetOn]
  split <;> simp_all [eFirstOn_error, oldFirstOctet_none]

/-! ## The loop -/

theorem encLoop_of_done (r : U64) (room a w : Nat) {e : Encoder} (m : Memory)
    (h : e.state = .done) : encLoop r room a w e m = .ok ⟨e, m, w, .none⟩ := by
  cases room <;> simp [encLoop, h]

/-- Everything the loop can end with, from an instance (R136, R141, R55). -/
structure EncLoopEnds (room a w : Nat) (e : Encoder) (m : Memory) (x : EncResult) : Prop where
  start_le : w ≤ x.cnt
  cnt_le : x.cnt ≤ w + room
  width : x.e.N = e.N
  none_iff : x.err = .none ↔ x.e.state = .done
  more : x.e.state ≠ .done → x.err = .needsMore ∧ x.cnt = w + room
  instanceKept : x.e.state ≠ .idle
  first_iff : x.e.state = .first ↔ e.state = .first ∧ room = 0
  settled : x.e.state = .continuation → 128 ≤ x.e.rem.toNat
  final_lt : (e.state = .final → e.rem.toNat < 128) → x.e.state = .final → x.e.rem.toNat < 128
  rem_le : x.e.state ≠ .done → x.e.rem.toNat ≤ e.rem.toNat
  outside : ∀ b, b < a ∨ a + (x.cnt - w) ≤ b → x.mem.read b = m.read b
  canonical : m.wf → x.mem.wf

theorem encLoop_ends {r : U64} {room a w : Nat} {e : Encoder} {m : Memory} {x : EncResult}
    (h1 : e.state ≠ .idle) (h : encLoop r room a w e m = .ok x) :
    EncLoopEnds room a w e m x := by
  induction room generalizing a w e m with
  | zero =>
    rw [encLoop] at h
    split at h
    · rename_i hd; cases h; constructor <;> simp [hd]
    · rename_i hd
      cases h
      rcases eSettle_cases e with ⟨hc, hl, he⟩ | ⟨hn, he⟩
      · rw [he]; constructor <;> simp [hc, hl]
      · rw [he]
        constructor <;> simp_all
  | succ room ih =>
    rw [encLoop] at h
    split at h
    · rename_i hd; cases h; constructor <;> simp [hd]
    · rename_i hd
      split at h
      · cases h
      · rename_i y hy
        have hs1 : (eSettle e).state ≠ .idle := by
          rcases eSettle_cases e with ⟨-, -, he⟩ | ⟨-, he⟩ <;> simp [he, h1]
        have hs2 : (eSettle e).state ≠ .done := by
          rcases eSettle_cases e with ⟨-, -, he⟩ | ⟨-, he⟩ <;> simp [he, hd]
        obtain ⟨hN, ⟨b, hb⟩, hst⟩ := eOctetOn_ok hs1 hs2 hy
        have hy1 : y.e.state ≠ .idle := by rcases hst with h | ⟨h, -⟩ <;> simp [h]
        have hyf : y.e.state ≠ .first := by rcases hst with h | ⟨h, -⟩ <;> simp [h]
        have hyl : y.e.state ≠ .final := by rcases hst with h | ⟨h, -⟩ <;> simp [h]
        obtain ⟨a1, a2, a3, a4, a5, a6, a7, a8, a9, a10, a11, a12⟩ := ih hy1 h
        refine ⟨by omega, by omega, by rw [a3, hN, eSettle_N], a4, ?_, a6, ?_, a8, ?_, ?_, ?_,
          fun hm => a12 (hb ▸ Memory.write_wf a b hm)⟩
        · intro hx; have := a5 hx; exact ⟨this.1, by omega⟩
        · rw [a7]; simp [hyf]
        · exact fun _ => a9 (fun h => absurd h hyl)
        · intro hx
          have h10 := a10 hx
          rcases hst with hst | ⟨-, hle⟩
          · rw [encLoop_of_done r room (a + 1) (w + 1) y.mem hst] at h
            cases h; exact absurd hst hx
          · rw [eSettle_rem] at hle; omega
        · intro c hc
          rw [a11 c (by omega), hb, Memory.read_write]
          rw [if_neg (by omega)]

/-- The loop faults exactly on an unwritten first octet. -/
theorem encLoop_error {r : U64} {room a w : Nat} {e : Encoder} {m : Memory} {f : Fault}
    (h1 : e.state ≠ .idle) :
    encLoop r room a w e m = .error f ↔
      f = .unwrittenOctet ∧ e.state = .first ∧ e.N.toNat < 8 ∧ 0 < room ∧ m.read a = none := by
  induction room generalizing a w e m with
  | zero => rw [encLoop]; split <;> simp
  | succ room ih =>
    rw [encLoop]
    split
    · rename_i hd; simp [hd]
    · rename_i hd
      have hs1 : (eSettle e).state ≠ .idle := by
        rcases eSettle_cases e with ⟨-, -, he⟩ | ⟨-, he⟩ <;> simp [he, h1]
      have hs2 : (eSettle e).state ≠ .done := by
        rcases eSettle_cases e with ⟨-, -, he⟩ | ⟨-, he⟩ <;> simp [he, hd]
      have hsf : (eSettle e).state = .first ↔ e.state = .first := by
        rcases eSettle_cases e with ⟨hc, -, he⟩ | ⟨-, he⟩ <;> simp [he]
        simp [hc]
      split
      · rename_i g hg
        obtain ⟨rfl, hf, hN, hm⟩ := eOctetOn_error.1 hg
        rw [eSettle_N] at hN
        simp [hsf.1 hf, hN, hm]
      · rename_i y hy
        obtain ⟨hN, -, hst⟩ := eOctetOn_ok hs1 hs2 hy
        have hy1 : y.e.state ≠ .idle := by rcases hst with h | ⟨h, -⟩ <;> simp [h]
        have hyf : y.e.state ≠ .first := by rcases hst with h | ⟨h, -⟩ <;> simp [h]
        rw [ih hy1]
        simp only [hyf, false_and, and_false, false_iff, not_and]
        intro _ he hN' _ hm
        have : eOctetOn r a (eSettle e) m = .error .unwrittenOctet :=
          eOctetOn_error.2 ⟨rfl, hsf.2 he, by rw [eSettle_N]; exact hN', hm⟩
        rw [this] at hy; cases hy

/-! ## A whole ENC.RUN -/

theorem encPrecheck_none {cap : Nat} {e : Encoder} (h : encPrecheck cap e = none) :
    e.state ≠ .idle ∧ e.state ≠ .done ∧ 0 < cap := by
  simp only [encPrecheck] at h
  split_ifs at h with h1 h2 h3
  exact ⟨h1, h2, by omega⟩

/-- With no operation in progress on the unit `ENC.RUN` ends as its run on the registers does. -/
theorem execEncRun_eq (off cap : Nat) {s : State} (h : s.encFlight = none) :
    execEncRun off cap s =
      match encRunOn (Config.freeRem s.draws) off cap s.enc s.mem with
      | .error f => .fault f
      | .ok r => .next (finishEnc r.e r.cnt r.err { s with enc := r.e, mem := r.mem }) := by
  simp only [execEncRun, h, Option.isSome_none]; rfl

/-- A run on a context that does not fault is the loop, or leaves context and memory as they are. -/
theorem encRunOn_cases (r : U64) (off cap : Nat) (e : Encoder) (m : Memory) :
    (∃ err, encPrecheck cap e = some err ∧ encRunOn r off cap e m = .ok ⟨e, m, 0, err⟩) ∨
    (encPrecheck cap e = none ∧ encRunOn r off cap e m = encLoop r cap off 0 e m) := by
  simp only [encRunOn]
  cases h : encPrecheck cap e <;> simp

end Sys2Proof.Machine
end

