-- ==== Sys2Proof/Tests/Slice0.lean ====
section
/-! SUPPORT. The model's own tests: well-formedness, decoding of words written out from spec/, single
operations whose results stand in spec/95_test_vectors.md, and, for every statement of
Certificates/Slice0/Obligations.lean that has hypotheses, a state and operands that meet them. -/

namespace Sys2Proof.Tests

open Sys2Proof Sys2Proof.Machine

/-! ## Helpers -/

/-- Reset with this decoder unit. -/
def withDec (st : DecTag) (n : Width) (v : U64) (M : Nat) : State :=
  { State.reset with dec := { state := st, N := n, v := v, M := M } }

/-- Reset with this encoder unit and this buffer. -/
def withEnc (st : EncTag) (n : Width) (rem : U64) (mem : Memory) : State :=
  { State.reset with enc := { state := st, N := n, rem := rem }, mem := mem }

/-- The decoder reading the view in an operation in progress. -/
def reading (view : List Octet) (i : Nat) (s : State) : State :=
  { s with decFlight := some { view := view, cursor := i } }

/-- The encoder writing in an operation in progress. -/
def writing (off cap w : Nat) (s : State) : State :=
  { s with encFlight := some { off := off, cap := cap, cursor := w } }

/-- The result ports but `val_out`. -/
def ports : Out → Option (Nat × Err × Bool)
  | .next t => some (t.out.cnt, t.out.err, t.out.done)
  | .fault _ => none
  | .refused _ => none

def valOf : Out → Option U64
  | .next t => some t.out.valOut
  | .fault _ => none
  | .refused _ => none

def decOf : Out → Option Decoder
  | .next t => some t.dec
  | .fault _ => none
  | .refused _ => none

def encOf : Out → Option (EncTag × Width)
  | .next t => some (t.enc.state, t.enc.N)
  | .fault _ => none
  | .refused _ => none

def remOf : Out → Option U64
  | .next t => some t.enc.rem
  | .fault _ => none
  | .refused _ => none

def memOf : Out → Option Memory
  | .next t => some t.mem
  | .fault _ => none
  | .refused _ => none

/-! ## Well-formedness (30_encoding.md R76): a SHORT octet never holds the sentinel -/

theorem test_short_n1_sentinel_is_ill_formed : (Instr.octet0N1Short 0 1).wellFormed = false := by decide
theorem test_short_n2_sentinel_is_ill_formed : (Instr.octet0N2Short 0 3).wellFormed = false := by decide
theorem test_short_n3_sentinel_is_ill_formed : (Instr.octet0N3Short 0 7).wellFormed = false := by decide
theorem test_short_n4_sentinel_is_ill_formed : (Instr.octet0N4Short 0 15).wellFormed = false := by decide
theorem test_short_n5_sentinel_is_ill_formed : (Instr.octet0N5Short 0 31).wellFormed = false := by decide
theorem test_short_n6_sentinel_is_ill_formed : (Instr.octet0N6Short 0 63).wellFormed = false := by decide
theorem test_short_n7_sentinel_is_ill_formed : (Instr.octet0N7Short 0 127).wellFormed = false := by decide
theorem test_short_n8_sentinel_is_ill_formed : (Instr.octet0N8Short 255).wellFormed = false := by decide

/-! ## Decoding: words written out from spec/ (R80, R46, R71, R72) -/

theorem test_decode_commands :
    decode (.cmd ⟨0b000, 0b0101, 9, 9, [], 9⟩) = .ok (.mpv 5) ∧
    decode (.cmd ⟨0b001, 0b0101, 1337, 9, [], 9⟩) = .ok (.roct 1337 5) ∧
    decode (.cmd ⟨0b010, 0b1000, 9, 9, [], 9⟩) = .ok (.decInit 8) ∧
    decode (.cmd ⟨0b011, 0b1111, 9, 2, [0x1F, 0x00], 9⟩) = .ok (.decRun [0x1F, 0x00]) ∧
    decode (.cmd ⟨0b100, 0b0001, 42, 9, [], 9⟩) = .ok (.encInit 42 1) ∧
    decode (.cmd ⟨0b101, 0b1111, 9, 3, [], 16⟩) = .ok (.encRun 16 3) ∧
    decode (.cmd ⟨0b110, 0b0101, 9, 1, [0x0A], 9⟩) = .ok (.dec1 5 [0x0A]) ∧
    decode (.cmd ⟨0b111, 0b0101, 10, 1, [], 7⟩) = .ok (.enc1 10 5 7 1) := by decide

theorem test_decode_micro_steps :
    decode (.decTag 0b001) = .ok .dFirst ∧ decode (.decTag 0b010) = .ok .dCont ∧
    decode (.encTag 0b001) = .ok .eFirst ∧ decode (.encTag 0b010) = .ok .eCont ∧
    decode (.encTag 0b011) = .ok .eFinal := by decide

theorem test_decode_rejects :
    decode (.cmd ⟨3, 0, 0, 1, [], 0⟩) = .error .viewLength ∧
    decode (.decTag 3) = .error .noMicroStep ∧ decode (.encTag 0) = .error .noMicroStep ∧
    decode (.decTag 5) = .error .tagNeverHeld ∧ decode (.encTag 7) = .error .tagNeverHeld ∧
    decode (.octet0 0 0x1F) = .error .noSuchWidth ∧ decode (.layout 9 0x1F) = .error .noSuchWidth ∧
    tableWord 8 256 = .error .tooWide := by decide

theorem test_decode_octet0_n1 :
    decode (.layout 1 0b10110100) = .ok (.octet0N1 0b1011010 0b0) ∧
    decode (.octet0 1 0b10110101) = .ok (.octet0N1Long 0b1011010) ∧
    decode (.octet0 1 0b10110100) = .ok (.octet0N1Short 0b1011010 0b0) := by decide

theorem test_decode_octet0_n2 :
    decode (.layout 2 0b10110110) = .ok (.octet0N2 0b101101 0b10) ∧
    decode (.octet0 2 0b10110111) = .ok (.octet0N2Long 0b101101) ∧
    decode (.octet0 2 0b10110110) = .ok (.octet0N2Short 0b101101 0b10) := by decide

theorem test_decode_octet0_n3 :
    decode (.layout 3 0b10110101) = .ok (.octet0N3 0b10110 0b101) ∧
    decode (.octet0 3 0b10110111) = .ok (.octet0N3Long 0b10110) ∧
    decode (.octet0 3 0b10110101) = .ok (.octet0N3Short 0b10110 0b101) := by decide

theorem test_decode_octet0_n4 :
    decode (.layout 4 0b10111011) = .ok (.octet0N4 0b1011 0b1011) ∧
    decode (.octet0 4 0b10111111) = .ok (.octet0N4Long 0b1011) ∧
    decode (.octet0 4 0b10111011) = .ok (.octet0N4Short 0b1011 0b1011) := by decide

theorem test_decode_octet0_n5 :
    decode (.layout 5 0b10110111) = .ok (.octet0N5 0b101 0b10111) ∧
    decode (.octet0 5 0b10111111) = .ok (.octet0N5Long 0b101) ∧
    decode (.octet0 5 0b10110111) = .ok (.octet0N5Short 0b101 0b10111) := by decide

theorem test_decode_octet0_n6 :
    decode (.layout 6 0b10101111) = .ok (.octet0N6 0b10 0b101111) ∧
    decode (.octet0 6 0b10111111) = .ok (.octet0N6Long 0b10) ∧
    decode (.octet0 6 0b10101111) = .ok (.octet0N6Short 0b10 0b101111) := by decide

theorem test_decode_octet0_n7 :
    decode (.layout 7 0b11011111) = .ok (.octet0N7 0b1 0b1011111) ∧
    decode (.octet0 7 0b11111111) = .ok (.octet0N7Long 0b1) ∧
    decode (.octet0 7 0b11011111) = .ok (.octet0N7Short 0b1 0b1011111) := by decide

theorem test_decode_octet0_n8 :
    decode (.layout 8 0b10111111) = .ok (.octet0N8 0b10111111) ∧
    decode (.octet0 8 0b11111111) = .ok .octet0N8Long ∧
    decode (.octet0 8 0b10111111) = .ok (.octet0N8Short 0b10111111) := by decide

theorem test_decode_continuation :
    decode (.cont 0b10011010) = .ok (.contMore 0b0011010) ∧
    decode (.cont 0b00001010) = .ok (.contLast 0b0001010) := by decide

/-- The numbers of spec/opcode_table.json that are not shared by an earlier row. -/
theorem test_table_numbers :
    [0, 1, 2, 3, 4, 5, 6, 7].map (decodeTableWord 8) =
      [some (.mpv 0), some (.roct 0 0), some (.decInit 0), some (.decRun []), some (.encInit 0 0),
        some (.encRun 0 0), some (.dec1 0 []), some (.enc1 0 0 0 0)] ∧
    [0x0F, 0x1F, 0x3F, 0x7F, 0xFF, 0x80].map (decodeTableWord 8) =
      [some (.octet0N4Long 0), some (.octet0N5Long 0), some (.octet0N6Long 0),
        some (.octet0N7Long 0), some .octet0N8Long, some (.contMore 0)] := by decide

/-- A placed command is the next step's instruction. -/
theorem test_fetch_word_command :
    step (State.reset.withFetchWord 8 2) = exec (.decInit 0) State.reset := rfl

/-- A placed octet is the next step's instruction: 0x1F under width 5 is the sentinel. -/
theorem test_fetch_word_octet :
    decOf (step (State.reset.withFetchWord 8 0x1F)) = some ⟨.continuation, 5, 31, 0⟩ := by decide

/-! ## MPV, ROCT (vectors V-H1 to V-H4) -/

theorem test_mpv_8 : ports (exec (.mpv 8) State.reset) = some (255, .none, false) := by decide
theorem test_mpv_9 :
    ports (exec (.mpv 9) State.reset) = some (0, .preconditionViolation, false) := by decide
theorem test_roct_remainder_128 : requiredOctets 158 5 = 2 ∧ requiredOctets 159 5 = 3 := by decide
theorem test_roct_greatest :
    requiredOctets 9223372036854775838 5 = 10 ∧ requiredOctets (BitVec.ofNat 64 u64Max) 1 = 11 := by
  decide

/-! ## The decoder (vectors V-D) -/

theorem test_decInit_5 : decOf (exec (.decInit 5) State.reset) = some ⟨.first, 5, 0, 0⟩ := by decide
theorem test_decInit_9_discards :
    decOf (exec (.decInit 9) (withDec .done 5 10 0)) = some ⟨.idle, 5, 10, 0⟩ := by decide
/-- V-D17: 1337, the octet 77 is left. -/
theorem test_decRun_1337 :
    let o := exec (.decRun [0xFF, 0x9A, 0x0A, 0x77]) (withDec .first 5 0 0)
    ports o = some (3, .none, true) ∧ valOf o = some 1337 := by decide
/-- V-D9: the source's printed octets overflow at offset 10. -/
theorem test_decRun_tooLarge :
    let o := exec (.decRun [0x1F, 0xE1, 0xFF, 0xFF, 0xFF, 0xFF, 0xFF, 0xFF, 0xFF, 0xFF, 0x01])
      (withDec .first 5 0 0)
    ports o = some (10, .tooLarge, false) ∧ (decOf o).map (fun d => d.state) = some .failed := by decide
/-- D.FIRST, R104's example: the flag bits of 0xEA are dropped. -/
theorem test_dFirst_flags :
    decOf (exec .dFirst (reading [0xEA] 0 (withDec .first 5 0 0))) = some ⟨.done, 5, 10, 0⟩ := by decide
/-- D.CONT, R105's example. -/
theorem test_dCont_1280 :
    decOf (exec .dCont (reading [0x0A] 0 (withDec .continuation 5 57 7))) =
      some ⟨.done, 5, 1337, 14⟩ := by decide
/-- D.CONT, R106's example: payload 1 at M = 63 over 2^63 + 30. -/
theorem test_dCont_overflow :
    let o := exec .dCont (reading [0x01] 0 (withDec .continuation 5 9223372036854775838 63))
    ports o = some (0, .tooLarge, false) ∧ decOf o = some ⟨.failed, 5, 9223372036854775838, 63⟩ := by
  decide

/-! ## The encoder (vectors V-E) -/

theorem test_encInit_1337 :
    encOf (exec (.encInit 1337 5) State.reset) = some (.first, 5) ∧
    remOf (exec (.encInit 1337 5) State.reset) = some 1337 := by decide
/-- V-E3: flags 101 kept, the fourth octet untouched. -/
theorem test_encRun_1337 :
    let o := exec (.encRun 0 4) (withEnc .first 5 1337 [(0, 0xA5), (3, 0xCC)])
    ports o = some (3, .none, true) ∧
    memOf o = some [(0, 0xBF), (1, 0x9A), (2, 0x0A), (3, 0xCC)] := by decide
/-- P3: 36 with room for one octet stops in Final with 5 left. -/
theorem test_encRun_final :
    let o := exec (.encRun 0 1) (withEnc .first 5 36 [(0, 0xE0)])
    ports o = some (1, .needsMore, false) ∧ encOf o = some (.final, 5) ∧ remOf o = some 5 := by decide
theorem test_eFirst_keeps_flags :
    memOf (exec .eFirst (writing 0 1 0 (withEnc .first 5 10 [(0, 0xA5)]))) = some [(0, 0xAA)] := by
  decide
theorem test_eCont_1306 :
    let o := exec .eCont (writing 0 3 1 (withEnc .continuation 5 1306 []))
    memOf o = some [(1, 0x9A)] ∧ remOf o = some 10 := by decide
theorem test_eFinal_10 :
    let o := exec .eFinal (writing 0 3 2 (withEnc .final 5 10 []))
    memOf o = some [(2, 0x0A)] ∧ encOf o = some (.done, 5) := by decide

/-! ## The one-shot pair (vectors V-O) -/

theorem test_dec1_1337 :
    let o := exec (.dec1 5 [0x1F, 0x9A, 0x0A, 0x77]) State.reset
    ports o = some (3, .none, true) ∧ valOf o = some 1337 ∧ decOf o = some State.reset.dec := by decide
theorem test_enc1_short_of_room :
    let o := exec (.enc1 1337 5 0 2) { State.reset with mem := [(0, 0x00), (2, 0xCC)] }
    ports o = some (2, .needsMore, false) ∧ memOf o = some [(0, 0x1F), (1, 0x9A), (2, 0xCC)] := by
  decide
/-- ENC.RUN without a read: with N = 8 the first octet need not have been written (R54). -/
theorem test_encRun_n8_unwritten :
    memOf (exec (.encRun 0 1) (withEnc .first 8 42 [])) = some [(0, 0x2A)] := by decide

/-! ## The octet rows -/

theorem test_octet_rows_n1 :
    let s := reading [0x00] 0 (withDec .first 1 0 0)
    decOf (exec (.octet0N1Long 0) s) = some ⟨.continuation, 1, 1, 0⟩ ∧
    decOf (exec (.octet0N1Short 0 0) s) = some ⟨.done, 1, 0, 0⟩ ∧
    decOf (exec (.octet0N1 0 1) s) = some ⟨.continuation, 1, 1, 0⟩ := by decide

theorem test_octet_rows_n2 :
    let s := reading [0x00] 0 (withDec .first 2 0 0)
    decOf (exec (.octet0N2Long 0) s) = some ⟨.continuation, 2, 3, 0⟩ ∧
    decOf (exec (.octet0N2Short 0 2) s) = some ⟨.done, 2, 2, 0⟩ ∧
    decOf (exec (.octet0N2 0 3) s) = some ⟨.continuation, 2, 3, 0⟩ := by decide

theorem test_octet_rows_n3 :
    let s := reading [0x00] 0 (withDec .first 3 0 0)
    decOf (exec (.octet0N3Long 0) s) = some ⟨.continuation, 3, 7, 0⟩ ∧
    decOf (exec (.octet0N3Short 0 6) s) = some ⟨.done, 3, 6, 0⟩ ∧
    decOf (exec (.octet0N3 0 7) s) = some ⟨.continuation, 3, 7, 0⟩ := by decide

theorem test_octet_rows_n4 :
    let s := reading [0x00] 0 (withDec .first 4 0 0)
    decOf (exec (.octet0N4Long 0) s) = some ⟨.continuation, 4, 15, 0⟩ ∧
    decOf (exec (.octet0N4Short 0 14) s) = some ⟨.done, 4, 14, 0⟩ ∧
    decOf (exec (.octet0N4 0 15) s) = some ⟨.continuation, 4, 15, 0⟩ := by decide

theorem test_octet_rows_n5 :
    let s := reading [0x00] 0 (withDec .first 5 0 0)
    decOf (exec (.octet0N5Long 0) s) = some ⟨.continuation, 5, 31, 0⟩ ∧
    decOf (exec (.octet0N5Short 0 30) s) = some ⟨.done, 5, 30, 0⟩ ∧
    decOf (exec (.octet0N5 0 31) s) = some ⟨.continuation, 5, 31, 0⟩ := by decide

theorem test_octet_rows_n6 :
    let s := reading [0x00] 0 (withDec .first 6 0 0)
    decOf (exec (.octet0N6Long 0) s) = some ⟨.continuation, 6, 63, 0⟩ ∧
    decOf (exec (.octet0N6Short 0 62) s) = some ⟨.done, 6, 62, 0⟩ ∧
    decOf (exec (.octet0N6 0 63) s) = some ⟨.continuation, 6, 63, 0⟩ := by decide

theorem test_octet_rows_n7 :
    let s := reading [0x00] 0 (withDec .first 7 0 0)
    decOf (exec (.octet0N7Long 0) s) = some ⟨.continuation, 7, 127, 0⟩ ∧
    decOf (exec (.octet0N7Short 0 126) s) = some ⟨.done, 7, 126, 0⟩ ∧
    decOf (exec (.octet0N7 0 127) s) = some ⟨.continuation, 7, 127, 0⟩ := by decide

theorem test_octet_rows_n8 :
    let s := reading [0x00] 0 (withDec .first 8 0 0)
    decOf (exec (.octet0N8Long) s) = some ⟨.continuation, 8, 255, 0⟩ ∧
    decOf (exec (.octet0N8Short 254) s) = some ⟨.done, 8, 254, 0⟩ ∧
    decOf (exec (.octet0N8 255) s) = some ⟨.continuation, 8, 255, 0⟩ := by decide

theorem test_continuation_rows :
    let s := reading [0x00] 0 (withDec .continuation 5 31 0)
    decOf (exec (.contMore 26) s) = some ⟨.continuation, 5, 57, 7⟩ ∧
    decOf (exec (.contLast 26) s) = some ⟨.done, 5, 57, 7⟩ := by decide

/-! ## Witnesses: the hypotheses of the statements can be met -/

theorem witness_DecodeEncodeAgree :
    (Instr.octet0N5Short 0 30).wellFormed = true := by decide

theorem witness_OpPortSelectsOperation :
    1 ≠ ([] : List Octet).length := by decide

theorem witness_OctetZeroClassIsStrict :
    (0x00#8).toNat % 2 ^ 1 < maxp 1 ∧ (0x01#8).toNat % 2 ^ 1 = maxp 1 ∧
    (0x02#8).toNat % 2 ^ 2 < maxp 2 ∧ (0x03#8).toNat % 2 ^ 2 = maxp 2 ∧
    (0x06#8).toNat % 2 ^ 3 < maxp 3 ∧ (0x07#8).toNat % 2 ^ 3 = maxp 3 ∧
    (0x0E#8).toNat % 2 ^ 4 < maxp 4 ∧ (0x0F#8).toNat % 2 ^ 4 = maxp 4 ∧
    (0x1E#8).toNat % 2 ^ 5 < maxp 5 ∧ (0x1F#8).toNat % 2 ^ 5 = maxp 5 ∧
    (0x3E#8).toNat % 2 ^ 6 < maxp 6 ∧ (0x3F#8).toNat % 2 ^ 6 = maxp 6 ∧
    (0x7E#8).toNat % 2 ^ 7 < maxp 7 ∧ (0x7F#8).toNat % 2 ^ 7 = maxp 7 ∧
    (0xFE#8).toNat % 2 ^ 8 < maxp 8 ∧ (0xFF#8).toNat % 2 ^ 8 = maxp 8 := by decide

theorem witness_ContinuationOctetFields :
    128 ≤ (0x80#8).toNat ∧ (0x7F#8).toNat < 128 := by decide

theorem witness_StepKeepsLegal :
    State.reset.legal ∧ step State.reset = .next State.reset := ⟨by decide, rfl⟩

/-- States for the clauses of StepRunsDecodedInstruction. -/
def ticking (u : UnitId) (s : State) : State := { s with pending := [.tick u] }

theorem witness_StepRunsDecodedInstruction :
    (∃ p i, (State.reset.withFetchWord 8 2).pending = .issue p :: [] ∧ decode (.cmd p) = .ok i) ∧
    (let s := ticking .decoder (reading [0x1F] 0 (withDec .first 5 0 0)); s.dec.state ≠ .done ∧ [0x1F#8][0]? = some 0x1F#8 ∧
        decode (octetWord 0x1F s.dec) = .ok (.octet0N5Long 0)) ∧
    (ticking .decoder (reading [0x0A] 1 (withDec .done 5 10 0))).dec.state = .done ∧
    (let s := ticking .decoder (reading [0x1F] 1 (withDec .continuation 5 31 0)); s.dec.state ≠ .done ∧ [0x1F#8].length ≤ 1) ∧
    (ticking .encoder (writing 0 1 1 (withEnc .done 5 0 []))).enc.state = .done ∧
    (let s := ticking .encoder (writing 0 1 0 (withEnc .first 5 10 [(0, 0)])); s.enc.state ≠ .done ∧ decode (.encTag s.enc.state.code) = .ok .eFirst) ∧
    (ticking .decoder State.reset).decFlight = none ∧
    (ticking .encoder State.reset).encFlight = none :=
  ⟨⟨_, _, rfl, rfl⟩, by decide⟩

theorem witness_StepwiseDecRunIsAtomicDecRun :
    (withDec .first 5 0 0).legal ∧ (withDec .first 5 0 0).decFlight = none := by decide

theorem witness_StepwiseEncRunIsAtomicEncRun :
    (withEnc .first 5 36 [(0, 0)]).legal ∧ (withEnc .first 5 36 [(0, 0)]).encFlight = none := by decide

theorem witness_OctetClassIsMicroStep :
    (reading [0x1F] 0 (withDec .first 5 0 0)).legal ∧
    (reading [0x1F, 0x9A] 1 (withDec .continuation 5 31 0)).legal ∧
    [0x1F#8, 0x9A][1]? = some 0x9A#8 := ⟨by decide, by decide, by decide⟩

theorem witness_DecoderNeverWritesMemory :
    decoderSide (.decRun [0x0A]) = true ∧
    ports (exec (.decRun [0x0A]) (withDec .first 5 0 0)) = some (1, .none, true) := by decide

theorem witness_MpvGivesMaximumPrefixValue :
    (1 ≤ (1 : Width).toNat ∧ (8 : Width).toNat ≤ 8) ∧ ((0 : Width).toNat < 1 ∧ 8 < (9 : Width).toNat) := by decide

theorem witness_RoctCountsOctets :
    (1 ≤ (1 : Width).toNat ∧ (8 : Width).toNat ≤ 8) ∧ ((0 : Width).toNat < 1 ∧ 8 < (15 : Width).toNat) := by decide

theorem witness_RoctClosedFormAndBounds :
    maxp 5 = 31 ∧ (30 : U64).toNat < maxp 5 ∧ (158 : U64).toNat - maxp 5 < 2 ^ 7 ∧
    2 ^ (7 * 1) ≤ (159 : U64).toNat - maxp 5 ∧ (159 : U64).toNat - maxp 5 < 2 ^ (7 * (1 + 1)) ∧
    2 ^ (7 * 9) ≤ (9223372036854775839 : U64).toNat - maxp 5 := by decide

theorem witness_HelpersTouchNothing :
    Instr.mpv 5 = .mpv 5 ∨ Instr.mpv 5 = .roct 0 5 := by decide

theorem witness_BadWidthIsPreconditionViolation :
    ((0 : Width).toNat = 0 ∨ 9 ≤ (0 : Width).toNat) ∧ ((9 : Width).toNat = 0 ∨ 9 ≤ (9 : Width).toNat) ∧
    State.reset.decFlight = none ∧ State.reset.encFlight = none := by decide

theorem witness_DecInitConstructs :
    State.reset.decFlight = none ∧ (1 ≤ (8 : Width).toNat ∧ (8 : Width).toNat ≤ 8) ∧ 8 < (9 : Width).toNat := by decide

theorem witness_DecRunIdleOrFailed :
    State.reset.dec.state = .idle ∧ (withDec .failed 5 0 0).dec.state = .failed ∧
    (withDec .failed 5 0 0).decFlight = none := by decide

theorem witness_DecRunEmptyView :
    (withDec .done 5 10 0).dec.state = .done ∧ (withDec .first 5 0 0).dec.state ≠ .done ∧
    (withDec .first 5 0 0).dec.state ≠ .idle ∧ (withDec .first 5 0 0).decFlight = none := by decide

theorem witness_DecRunAlreadyDone :
    (withDec .done 5 10 0).decFlight = none ∧ [0x77#8] ≠ [] := by decide

theorem witness_DFirstTakesFirstOctet :
    let s := reading [0xEA] 0 (withDec .first 5 0 0)
    s.decFlight = some ⟨[0xEA], 0⟩ ∧ [0xEA#8][0]? = some 0xEA#8 ∧ s.dec.state = .first ∧
      1 ≤ s.dec.N.toNat ∧ s.dec.N.toNat ≤ 8 := by decide

theorem witness_DContAccepts :
    let s := reading [0x01] 0 (withDec .continuation 5 9223372036854775807 63)
    s.decFlight = some ⟨[0x01], 0⟩ ∧ s.dec.state = .continuation ∧
      s.dec.v.toNat + (0x01#8).toNat % 128 * 2 ^ s.dec.M ≤ 2 ^ 64 - 1 := by decide

theorem witness_DContOverflowFails :
    let s := reading [0x01] 0 (withDec .continuation 5 9223372036854775808 63)
    s.decFlight = some ⟨[0x01], 0⟩ ∧ s.dec.state = .continuation ∧
      2 ^ 64 - 1 < s.dec.v.toNat + (0x01#8).toNat % 128 * 2 ^ s.dec.M := by decide

theorem witness_DecRunCompletesWithFrame :
    (withDec .first 5 0 0).decFlight = none := by decide

theorem witness_DecRunNeedsMoreConsumedAll :
    let o := exec (.decRun [0x1F]) (withDec .first 5 0 0)
    [0x1F#8] ≠ [] ∧ ports o = some (1, .needsMore, false) := by decide

theorem witness_OctetsPastTheEndPlayNoPart :
    let o := exec (.decRun [0x0A, 0x77]) (withDec .first 5 0 0)
    (withDec .first 5 0 0).dec.state ≠ .done ∧ decOf o = some ⟨.done, 5, 10, 0⟩ := by decide

theorem witness_ZeroPayloadsAreAccepted :
    (withDec .continuation 5 31 0).decFlight = none ∧ (withDec .continuation 5 31 0).dec.state = .continuation ∧
    ports (exec (.decRun [0x00]) (withDec .continuation 5 31 0)) = some (1, .none, true) := by decide

theorem witness_OverflowTestPerShift :
    (63 % 7 = 0 ∧ 56 % 7 = 0 ∧ 70 % 7 = 0) ∧ (0x80#8).toNat % 128 = 0 ∧
    2 ≤ (0x02#8).toNat % 128 ∧ (0x81#8).toNat % 128 = 1 ∧ (8 : Width).toNat ≤ 8 := by decide

theorem witness_SaturatingShiftIsExact :
    let s := withDec .continuation 5 31 77
    s.dec.M % 7 = 0 ∧ ports (exec (.decRun [0x00]) s) = some (1, .none, true) ∧
      ports (exec (.decRun [0x00]) { s with dec := { s.dec with M := min s.dec.M 70 } }) =
        some (1, .none, true) := by decide

theorem witness_AccumulatorNeverWraps :
    decOf (exec (.decRun [0x9A, 0x0A]) (withDec .continuation 5 31 0)) = some ⟨.done, 5, 1337, 14⟩ ∧
    ports (exec (.decRun [0x02]) (withDec .continuation 5 31 63)) = some (0, .tooLarge, false) ∧
    ports (exec (.decRun [0x01]) (withDec .continuation 5 31 70)) = some (0, .tooLarge, false) ∧
    decOf (exec (.decRun [0x0A]) (withDec .first 5 0 0)) = some ⟨.done, 5, 10, 0⟩ ∧
    decOf (exec (.decRun [0x1F, 0x9A]) (withDec .first 5 0 0)) = some ⟨.continuation, 5, 57, 7⟩ ∧
    decOf (exec (.decRun [0x00]) (withDec .failed 5 31 63)) = some ⟨.failed, 5, 31, 63⟩ := by decide

theorem witness_TerminalDecoderStatesAreLeftByInitOnly :
    (decOf (exec (.decInit 5) State.reset)).map (fun d => d.state) = some .first ∧
    (decOf (exec (.decInit 5) (withDec .failed 5 0 0))).map (fun d => d.state) = some .first ∧
    (decOf (exec (.decInit 0) (withDec .done 5 0 0))).map (fun d => d.state) = some .idle := by decide

theorem witness_TerminalEncoderStatesAreLeftByInitOnly :
    let tag := fun o => (encOf o).map (fun e => e.1)
    tag (exec (.encInit 10 5) State.reset) = some .first ∧
    tag (exec (.encInit 10 5) (withEnc .done 5 0 [])) = some .first ∧
    tag (exec (.encInit 10 0) (withEnc .done 5 0 [])) = some .idle := by decide

theorem witness_WidthsAreWrittenByInitOnly :
    ports (exec (.encRun 0 0) State.reset) = some (0, .preconditionViolation, false) ∧
    (∀ n, Instr.encRun 0 0 ≠ .decInit n) ∧ (∀ v n, Instr.encRun 0 0 ≠ .encInit v n) := ⟨by decide, nofun, nofun⟩

theorem witness_DecoderAssemblesValue :
    let s := withDec .first 5 0 0
    s.decFlight = none ∧ s.dec.state = .first ∧ (0x1E#8).toNat % 2 ^ 5 < maxp 5 ∧
      (0xFF#8).toNat % 2 ^ 5 = maxp 5 ∧ (∀ b ∈ [0x9A#8], 128 ≤ b.toNat) ∧ (0x0A#8).toNat < 128 ∧
      assembled 5 [0x9A, 0x0A] = 1337 ∧ assembled 5 ([0x9A#8, 0x0A].take 0) ≤ u64Max ∧
      assembled 8 ((List.replicate 9 0x80#8 ++ [0x02#8]).take 9) ≤ u64Max ∧
      u64Max < assembled 8 ((List.replicate 9 0x80#8 ++ [0x02#8]).take 10) := by decide

theorem witness_DecoderIsResumable :
    let s := withDec .first 5 0 0
    s.dec = freshDecoder 5 ∧ ports (exec (.decRun [0x1F, 0x9A, 0x0A, 0x77]) s) = some (3, .none, true) ∧
      [[0x1F#8], [], [0x9A, 0x0A]].flatten = [0x1F#8, 0x9A, 0x0A, 0x77].take 3 := by decide

theorem witness_EncInitConstructs :
    State.reset.encFlight = none ∧ (1 ≤ (1 : Width).toNat ∧ (1 : Width).toNat ≤ 8) ∧ (0 : Width).toNat < 1 := by decide

theorem witness_EncRunWritesNothingWhen :
    State.reset.enc.state = .idle ∧ (withEnc .done 5 0 []).enc.state = .done ∧
    (withEnc .final 5 5 []).enc.state ≠ .idle ∧ (withEnc .final 5 5 []).enc.state ≠ .done := by decide

theorem witness_EFirstWritesFirstOctet :
    let s := writing 0 1 0 (withEnc .first 5 30 [(0, 0xA5)])
    let s' := writing 0 1 0 (withEnc .first 5 31 [(0, 0xA5)])
    s.encFlight = some ⟨0, 1, 0⟩ ∧ s.mem.read (0 + 0) = some 0xA5 ∧
      s.enc.rem.toNat < 2 ^ s.enc.N.toNat - 1 ∧ 2 ^ s'.enc.N.toNat - 1 ≤ s'.enc.rem.toNat := by decide

theorem witness_EContWritesDividesOrSettles :
    128 ≤ (withEnc .continuation 5 128 []).enc.rem.toNat ∧ 0 < 1 ∧ 1 ≤ 1 ∧
    (withEnc .continuation 5 127 []).enc.rem.toNat < 128 ∧
    (writing 0 1 0 (withEnc .continuation 5 127 [])).encFlight = some ⟨0, 1, 0⟩ := by decide

theorem witness_EFinalWritesLastOctet :
    (writing 0 1 0 (withEnc .final 5 5 [])).encFlight = some ⟨0, 1, 0⟩ ∧
    (writing 0 1 1 (withEnc .final 5 5 [])).encFlight = some ⟨0, 1, 1⟩ ∧
    (withEnc .final 5 5 []).enc.state = .final := by decide

theorem witness_EncRunCompletesWithFrame :
    let s := withEnc .first 5 10 [(0, 0xA5)]
    s.encFlight = none ∧ s.mem.read 0 ≠ none := by decide

theorem witness_OnlyAnUnwrittenFlagOctetFaults :
    State.reset.encFlight = none ∧
    exec (.encRun 0 1) (withEnc .first 5 10 []) = .fault .unwrittenOctet ∧
    exec (.enc1 10 5 0 1) State.reset = .fault .unwrittenOctet ∧
    exec .eFirst (writing 0 1 0 (withEnc .first 5 10 [])) = .fault .unwrittenOctet := ⟨rfl, rfl, rfl, rfl⟩

theorem witness_EncRunNeedsMoreFilledTheView :
    ports (exec (.encRun 0 1) (withEnc .first 5 1337 [(0, 0)])) = some (1, .needsMore, false) ∧
    ports (exec (.encRun 0 1) (withEnc .first 5 36 [(0, 0)])) = some (1, .needsMore, false) := by decide

theorem witness_FlagBitsArePreserved :
    let s := writing 0 1 0 (withEnc .first 5 10 [(0, 0xA5)])
    s.mem.read (0 + 0) = some 0xA5 ∧ (∃ t, exec .eFirst s = .next t) ∧
      (∀ x ∈ Memory.read [(0, 0xA5#8)] 0, ∀ y ∈ Memory.read [(0, 0xA0#8), (1, 0x77)] 0,
        x &&& flagMask 5 = y &&& flagMask 5) ∧
      (∃ t, exec (.encRun 0 1) (withEnc .first 5 10 [(0, 0xA5)]) = .next t) ∧
      (∃ t, exec (.encRun 0 1) (withEnc .first 5 10 [(0, 0xA0), (1, 0x77)]) = .next t) ∧
      (∃ t, exec (.encRun 0 1) (withEnc .final 5 10 [(0, 0xA5)]) = .next t) ∧
      (∃ t, exec (.encRun 0 1) (withEnc .final 5 10 []) = .next t) :=
  ⟨rfl, ⟨_, rfl⟩, by decide, ⟨_, rfl⟩, ⟨_, rfl⟩, ⟨_, rfl⟩, ⟨_, rfl⟩⟩

theorem witness_EncoderWritesCanonicalEncoding :
    let s := withEnc .first 5 30 [(0, 0xA5)]
    s.encFlight = none ∧ s.enc = freshEncoder 30 5 ∧ s.mem.read 0 = some 0xA5 ∧
      (canonicalOctets 5 30 0xA5).length ≤ 1 := by decide

theorem witness_BoundaryValues :
    (withEnc .first 5 30 [(0, 0xA5)]).enc = freshEncoder (BitVec.ofNat 64 (maxp 5 - 1)) 5 ∧
    (withEnc .first 5 31 [(0, 0xA5)]).enc = freshEncoder (BitVec.ofNat 64 (maxp 5)) 5 ∧
    (withEnc .first 5 31 [(0, 0xA5)]).mem.read 0 = some 0xA5 := by decide

theorem witness_EncoderIsResumable :
    let s := withEnc .first 5 1337 [(0, 0)]
    s.enc = freshEncoder 1337 5 ∧ requiredOctets 1337 5 ≤ [1, 0, 1, 5].sum ∧
      ∃ t, exec (.encRun 0 (requiredOctets 1337 5)) s = .next t := ⟨rfl, by decide, ⟨_, rfl⟩⟩

theorem witness_DoneSaysNoMoreThanErr :
    ports (exec (.decRun []) (withDec .done 5 10 0)) = some (0, .needsMore, true) ∧
    ports (exec (.decRun [0x77]) (withDec .done 5 10 0)) = some (0, .none, true) ∧
    ports (exec (.encRun 0 0) (withEnc .done 5 0 [])) = some (0, .none, true) := by decide

theorem witness_UnitsAreIndependent :
    decoderSide (.decInit 5) = true ∧ encoderSide (.encInit 10 5) = true := by decide

theorem witness_RoundTrip :
    let s := withEnc .idle 0 0 [(0, 0xA5)]
    s.encFlight = none ∧ s.decFlight = none ∧ s.mem.read 0 ≠ none := by decide

theorem witness_OneShotIsInitThenRun :
    let s := writing 4 2 0 (withEnc .first 5 0 [(0, 0xA5)])
    (∀ f a, s.encFlight = some f → ¬(0 ≤ a ∧ a < 0 + 4 ∧ f.off ≤ a ∧ a < f.off + f.cap)) ∧
      s.mem.read 0 ≠ none := by
  refine ⟨fun f a h => ?_, by decide⟩
  cases h
  simp only; omega

theorem witness_NoMoveOnABusyUnitOrView :
    (reading [0x0A] 0 (withDec .first 5 0 0)).decFlight ≠ none ∧
    (writing 0 2 0 (withEnc .first 5 0 [])).encFlight = some ⟨0, 2, 0⟩ ∧
    (0 ≤ 1 ∧ 1 < 0 + 2) ∧ ¬(0 ≤ 2 ∧ 2 < 0 + 2) := by decide

theorem witness_CountsFitTheLengthWidth :
    [0x0A#8].length < 2 ^ 8 ∧ 255 < 2 ^ 8 ∧
    ports (exec (.mpv 8) State.reset) = some (255, .none, false) := by decide

theorem witness_LongOctetsEnterContinuation :
    AtOctet .first ⟨[0x00], 0⟩ (reading [0x00] 0 (withDec .first 1 0 0)) ∧
    AtOctet .first ⟨[0x00], 0⟩ (reading [0x00] 0 (withDec .first 8 0 0)) := by decide

theorem witness_ShortOctetsAreDone :
    AtOctet .first ⟨[0x00], 0⟩ (reading [0x00] 0 (withDec .first 5 0 0)) ∧
    (30 : BitVec 5).toNat < maxp 5 ∧ (31 : BitVec 5).toNat = maxp 5 := by decide

theorem witness_LayoutOctetsAreShortOrLong :
    AtOctet .first ⟨[0x00], 0⟩ (reading [0x00] 0 (withDec .first 3 0 0)) := by decide

theorem witness_ContinuationOctetsAccumulate :
    AtOctet .continuation ⟨[0x00], 0⟩ (reading [0x00] 0 (withDec .continuation 5 31 0)) ∧
    (9223372036854775807 : U64).toNat + (1 : BitVec 7).toNat * 2 ^ 63 ≤ u64Max ∧
    u64Max < (9223372036854775808 : U64).toNat + (1 : BitVec 7).toNat * 2 ^ 63 := by decide

theorem witness_MicroStepsNeedAnOperationInProgress :
    State.reset.decFlight = none ∧ State.reset.encFlight = none := by decide

end Sys2Proof.Tests
end

/-! Proofs of the family 10_state.md: what a `RUN` says on `done` and `err` (R33), and that neither unit
reads or writes the other's registers (R44). -/

section
namespace Sys2Proof.Machine

/-! ## `done` against `err` (R33) -/

@[simp] theorem decDone_iff (d : Decoder) : decDone d = true ↔ d.state = .done := by simp [decDone]

@[simp] theorem encDone_iff (e : Encoder) : encDone e = true ↔ e.state = .done := by simp [encDone]

/-- The four ways a `DEC.RUN` ends before any octet is read (R101 to R103). -/
theorem decPrecheck_some {view : List Octet} {d : Decoder} {err : Err}
    (h : decPrecheck view d = some err) :
    (d.state = .idle ∧ err = .preconditionViolation) ∨
    (d.state = .failed ∧ err = .tooLarge) ∨
    (d.state ≠ .idle ∧ d.state ≠ .failed ∧ view = [] ∧ err = .needsMore) ∨
    (d.state = .done ∧ view ≠ [] ∧ err = .none) := by
  simp only [decPrecheck] at h
  split_ifs at h <;> cases h <;> simp_all

/-- The three ways an `ENC.RUN` ends before any octet is written (R133 to R135). -/
theorem encPrecheck_some {cap : Nat} {e : Encoder} {err : Err} (h : encPrecheck cap e = some err) :
    (e.state = .idle ∧ err = .preconditionViolation) ∨
    (e.state = .done ∧ err = .none) ∨
    (e.state ≠ .idle ∧ e.state ≠ .done ∧ cap = 0 ∧ err = .needsMore) := by
  simp only [encPrecheck] at h
  split_ifs at h <;> cases h <;> simp_all

/-- The exception of R33: a Done decoder asks an empty view for more (R102). -/
theorem decRunOn_done_nil {d : Decoder} (hd : d.state = .done) :
    decRunOn [] d = ⟨d, 0, .needsMore⟩ := by
  simp [decRunOn, decPrecheck, hd]

theorem decRunOn_done_iff_none {view : List Octet} {d : Decoder} (h : ¬(d.state = .done ∧ view = [])) :
    (decRunOn view d).d.state = .done ↔ (decRunOn view d).err = .none := by
  rcases decRunOn_cases view d with ⟨err, hp, hr⟩ | ⟨hp, hr⟩ <;> rw [hr]
  · rcases decPrecheck_some hp with
      ⟨hs, rfl⟩ | ⟨hs, rfl⟩ | ⟨-, -, hv, rfl⟩ | ⟨hs, -, rfl⟩
    · simp [hs]
    · simp [hs]
    · simpa using fun hs => h ⟨hs, hv⟩
    · simp [hs]
  · obtain ⟨-, hi, hf, -⟩ := decPrecheck_none hp
    exact (decLoop_ends view 0 d hi hf).none_iff.symm

theorem encRunOn_done_iff_none {r : U64} {off cap : Nat} {e : Encoder} {m : Memory} {x : EncResult}
    (h : encRunOn r off cap e m = .ok x) : x.e.state = .done ↔ x.err = .none := by
  rcases encRunOn_cases r off cap e m with ⟨err, hp, hr⟩ | ⟨hp, hr⟩ <;> rw [hr] at h
  · cases h
    rcases encPrecheck_some hp with ⟨hs, rfl⟩ | ⟨hs, rfl⟩ | ⟨-, hs, -, rfl⟩ <;> simp [hs]
  · exact (encLoop_ends (encPrecheck_none hp).1 h).none_iff.symm

/-- The next state of an `ENC.RUN` on a free unit, where there is one. -/
theorem execEncRun_next {off cap : Nat} {s t : State} (hf : s.encFlight = none)
    (h : execEncRun off cap s = .next t) :
    ∃ x, encRunOn (Config.freeRem s.draws) off cap s.enc s.mem = .ok x ∧
      t = finishEnc x.e x.cnt x.err { s with enc := x.e, mem := x.mem } := by
  rw [execEncRun_eq off cap hf] at h
  split at h
  · cases h
  · rename_i x hx; cases h; exact ⟨x, hx, rfl⟩

/-- Settles O49: the checks before the loop by their cases, the loop by what it can end with. -/
theorem doneSaysNoMoreThanErr : Obligations.DoneSaysNoMoreThanErr := by
  refine ⟨fun view s t hf _ h => ?_, fun off cap s t hf _ h => ?_⟩
  · have ht := (execDecRun_eq view hf).symm.trans h
    cases ht
    split
    · rename_i hd
      obtain ⟨hs, rfl⟩ := hd
      simp [decRunOn_done_nil hs, hs]
    · rename_i hd
      simpa using decRunOn_done_iff_none hd
  · obtain ⟨x, hx, rfl⟩ := execEncRun_next hf h
    simpa using encRunOn_done_iff_none hx

/-! ## The units' registers (R44) -/

/-- The decoder unit's registers replaced by `d`. -/
def State.setDec (d : Decoder) (s : State) : State := { s with dec := d }

/-- The encoder unit's registers replaced by `e`. -/
def State.setEnc (e : Encoder) (s : State) : State := { s with enc := e }

/-- The operation neither reads nor writes what `u` replaces: `u` before it is `u` after it. -/
def Commutes (u : State → State) (op : State → Out) : Prop := ∀ s, op (u s) = mapNext u (op s)

section
variable (d : Decoder) (e : Encoder) (s : State)

@[simp] theorem setEnc_decFlight : (s.setEnc e).decFlight = s.decFlight := rfl
@[simp] theorem setDec_enc : (s.setDec d).enc = s.enc := rfl
@[simp] theorem setDec_mem : (s.setDec d).mem = s.mem := rfl
@[simp] theorem setDec_encFlight : (s.setDec d).encFlight = s.encFlight := rfl
@[simp] theorem setDec_draws : (s.setDec d).draws = s.draws := rfl

end

/-! ### The decoder's instructions and the encoder's registers

No branch depends on the replaced registers, so `apply_ite` carries the replacement through each branch,
and the outcomes then agree by definition. -/

section
variable (e : Encoder)

theorem decMicro_setEnc (b : Octet) (f : DecFlight) (s : State) :
    decMicro b f (s.setEnc e) = (decMicro b f s).setEnc e := by
  simp only [decMicro, apply_ite (State.setEnc e)]
  rfl

theorem decMicroAtCursor_commutes_setEnc (t : DecTag) :
    Commutes (State.setEnc e) (decMicroAtCursor t) := by
  intro s
  simp only [decMicroAtCursor, setEnc_decFlight, decMicro_setEnc]
  split
  · rfl
  · split
    · rfl
    · rw [apply_ite (mapNext _)]; rfl

theorem takeOctet_commutes_setEnc (t : DecTag) (b : Octet) :
    Commutes (State.setEnc e) (takeOctet t b) := by
  intro s
  simp only [takeOctet, setEnc_decFlight, decMicro_setEnc]
  split
  · rfl
  · rw [apply_ite (mapNext _)]; rfl

theorem takeOctet0_commutes_setEnc (n : Width) (b : Octet) :
    Commutes (State.setEnc e) (takeOctet0 n b) := by
  intro s
  simp only [takeOctet0, apply_ite (mapNext _), takeOctet_commutes_setEnc e .first b s]
  rfl

theorem takeShort_commutes_setEnc {k : Nat} (n : Width) (v : BitVec k) (b : Octet) :
    Commutes (State.setEnc e) (takeShort n v b) := by
  intro s
  simp only [takeShort, apply_ite (mapNext _), takeOctet0_commutes_setEnc e n b s]
  rfl

theorem execDecInit_commutes_setEnc (n : Width) : Commutes (State.setEnc e) (execDecInit n) := by
  intro s
  simp only [execDecInit, apply_ite (mapNext _)]
  rfl

theorem execDecRun_commutes_setEnc (view : List Octet) :
    Commutes (State.setEnc e) (execDecRun view) := by
  intro s
  simp only [execDecRun, apply_ite (mapNext _)]
  rfl

theorem execDec1_commutes_setEnc (n : Width) (view : List Octet) :
    Commutes (State.setEnc e) (execDec1 n view) := by
  intro s
  simp only [execDec1, apply_ite (mapNext _)]
  rfl

theorem exec_commutes_setEnc {i : Instr} (h : decoderSide i = true) :
    Commutes (State.setEnc e) (exec i) := by
  cases i with
  | decInit n => exact execDecInit_commutes_setEnc e n
  | decRun view => exact execDecRun_commutes_setEnc e view
  | dec1 n view => exact execDec1_commutes_setEnc e n view
  | dFirst | dCont => exact decMicroAtCursor_commutes_setEnc e _
  | octet0N1 | octet0N2 | octet0N3 | octet0N4 | octet0N5 | octet0N6 | octet0N7 | octet0N8
  | octet0N1Long | octet0N2Long | octet0N3Long | octet0N4Long | octet0N5Long | octet0N6Long
  | octet0N7Long | octet0N8Long => exact takeOctet0_commutes_setEnc e _ _
  | octet0N1Short | octet0N2Short | octet0N3Short | octet0N4Short | octet0N5Short | octet0N6Short
  | octet0N7Short | octet0N8Short => exact takeShort_commutes_setEnc e _ _ _
  | contMore | contLast => exact takeOctet_commutes_setEnc e _ _
  | mpv | roct | encInit | encRun | enc1 | eFirst | eCont | eFinal => cases h

end

/-! ### The encoder's instructions and the decoder's registers -/

section
variable (d : Decoder)

theorem execEncInit_commutes_setDec (value : U64) (n : Width) :
    Commutes (State.setDec d) (execEncInit value n) := by
  intro s
  simp only [execEncInit, apply_ite (mapNext _)]
  rfl

theorem execEncRun_commutes_setDec (off cap : Nat) :
    Commutes (State.setDec d) (execEncRun off cap) := by
  intro s
  simp only [execEncRun, setDec_enc, setDec_mem, setDec_draws, apply_ite (mapNext _)]
  cases encRunOn (Config.freeRem s.draws) off cap s.enc s.mem <;> rfl

theorem execEnc1_commutes_setDec (value : U64) (n : Width) (off cap : Nat) :
    Commutes (State.setDec d) (execEnc1 value n off cap) := by
  intro s
  simp only [execEnc1, setDec_mem, setDec_draws, apply_ite (mapNext _)]
  cases encRunOn (Config.freeRem s.draws) off cap (freshEncoder value n) s.mem <;> rfl

theorem execEFirst_commutes_setDec : Commutes (State.setDec d) execEFirst := by
  intro s
  simp only [execEFirst, setDec_enc, setDec_mem, setDec_encFlight, setDec_draws]
  split
  · rfl
  · rename_i f _
    rw [apply_ite (mapNext _)]
    cases eFirstOn (Config.freeRem s.draws) (f.off + f.cursor) s.enc s.mem <;> rfl

theorem execECont_commutes_setDec : Commutes (State.setDec d) execECont := by
  intro s
  simp only [execECont, setDec_encFlight]
  split
  · rfl
  · simp only [apply_ite (mapNext _)]; rfl

theorem execEFinal_commutes_setDec : Commutes (State.setDec d) execEFinal := by
  intro s
  simp only [execEFinal, setDec_encFlight]
  split
  · rfl
  · simp only [apply_ite (mapNext _)]; rfl

theorem exec_commutes_setDec {i : Instr} (h : encoderSide i = true) :
    Commutes (State.setDec d) (exec i) := by
  cases i with
  | encInit value n => exact execEncInit_commutes_setDec d value n
  | encRun off cap => exact execEncRun_commutes_setDec d off cap
  | enc1 value n off cap => exact execEnc1_commutes_setDec d value n off cap
  | eFirst => exact execEFirst_commutes_setDec d
  | eCont => exact execECont_commutes_setDec d
  | eFinal => exact execEFinal_commutes_setDec d
  | _ => cases h

end

/-- Settles O50: every instruction of one unit commutes with replacing the other unit's registers. -/
theorem unitsAreIndependent : Obligations.UnitsAreIndependent :=
  ⟨fun _ s e h => exec_commutes_setEnc e h s, fun _ s d h => exec_commutes_setDec d h s⟩

end Sys2Proof.Machine
end

/-! Proofs of the family 20_memory.md: the decoder never writes memory (R53). -/

section
namespace Sys2Proof.Machine

/-! ## The octet rows and the micro-steps touch the decoder unit only -/

theorem takeOctet_only {t : DecTag} {b : Octet} {s u : State} (h : takeOctet t b s = .next u) :
    DecoderOnly s u := by
  obtain ⟨f, -, -, -, rfl⟩ := takeOctet_next h
  exact decMicro_only b f s

theorem takeOctet0_only {n : Width} {b : Octet} {s u : State} (h : takeOctet0 n b s = .next u) :
    DecoderOnly s u :=
  takeOctet_only (takeOctet0_next h).2

theorem takeShort_only {k : Nat} {n : Width} {v : BitVec k} {b : Octet} {s u : State}
    (h : takeShort n v b s = .next u) : DecoderOnly s u :=
  takeOctet0_only (takeShort_next h)

theorem decMicroAtCursor_only {t : DecTag} {s u : State} (h : decMicroAtCursor t s = .next u) :
    DecoderOnly s u := by
  obtain ⟨f, b, -, -, -, rfl⟩ := decMicroAtCursor_next h
  exact decMicro_only b f s

/-! ## The whole operations leave memory as it is -/

theorem execDecInit_mem {n : Width} {s t : State} (h : execDecInit n s = .next t) :
    t.mem = s.mem := by
  simp only [execDecInit] at h
  split_ifs at h <;> cases h <;> simp

theorem execDecRun_mem {view : List Octet} {s t : State} (h : execDecRun view s = .next t) :
    t.mem = s.mem := by
  simp only [execDecRun] at h
  split_ifs at h
  cases h; simp

theorem execDec1_mem {n : Width} {view : List Octet} {s t : State}
    (h : execDec1 n view s = .next t) : t.mem = s.mem := by
  simp only [execDec1] at h
  split_ifs at h <;> cases h <;> simp

/-- Settles O13: the three whole operations by what they end with, every other row by the one micro-step
it stands for. -/
theorem decoderNeverWritesMemory : Obligations.DecoderNeverWritesMemory := by
  intro i s t hi h
  cases i with
  | decInit => exact execDecInit_mem h
  | decRun => exact execDecRun_mem h
  | dec1 => exact execDec1_mem h
  | dFirst | dCont => exact (decMicroAtCursor_only h).mem
  | octet0N1 | octet0N2 | octet0N3 | octet0N4 | octet0N5 | octet0N6 | octet0N7 | octet0N8
  | octet0N1Long | octet0N2Long | octet0N3Long | octet0N4Long | octet0N5Long | octet0N6Long
  | octet0N7Long | octet0N8Long => exact (takeOctet0_only h).mem
  | octet0N1Short | octet0N2Short | octet0N3Short | octet0N4Short | octet0N5Short | octet0N6Short
  | octet0N7Short | octet0N8Short => exact (takeShort_only h).mem
  | contMore | contLast => exact (takeOctet_only h).mem
  | mpv | roct | encInit | encRun | enc1 | eFirst | eCont | eFinal => cases hi

end Sys2Proof.Machine
end

/-! Proofs of the family 30_encoding.md: the fields of a continuation octet (R72), the value the decoder
assembles (R73), the canonical encoding the encoder writes (R74, R79). -/

section
namespace Sys2Proof.Machine

/-! ## The fields of a continuation octet (R72) -/

/-- The low seven bits of an octet are its payload, with the more-follow flag taken off. -/
theorem lowBits_seven_eq (b : Octet) (c : Nat) (h : b.toNat % 128 = c) :
    lowBits 7 b = BitVec.ofNat 7 c := by
  apply BitVec.eq_of_toNat_eq
  simp only [lowBits, BitVec.extractLsb'_toNat, BitVec.toNat_ofNat, Nat.shiftRight_zero]
  omega

/-- Settles O5: bit 7 is the comparison with 128, and the payload is what is left of the octet. -/
theorem continuationOctetFields : Obligations.ContinuationOctetFields := by
  intro b
  have hb := b.isLt
  have hbit : b.getLsbD 7 = true ↔ 128 ≤ b.toNat := moreFollow_iff b
  refine ⟨fun hmore => ?_, fun hlast => ?_⟩
  · rw [decode, decodeCont, if_pos (hbit.2 hmore), lowBits_seven_eq b (b.toNat - 128) (by omega)]
  · rw [decode, decodeCont, if_neg (fun h => absurd (hbit.1 h) (by omega)),
      lowBits_seven_eq b b.toNat (by omega)]

/-! ## The value the decoder assembles (R73) -/

theorem payloadSum_append (xs ys : List Octet) :
    payloadSum (xs ++ ys) = payloadSum xs + 2 ^ (7 * xs.length) * payloadSum ys := by
  induction xs with
  | nil => simp [payloadSum]
  | cons x xs ih =>
    rw [List.cons_append, payloadSum, payloadSum, ih, List.length_cons, Nat.mul_succ, Nat.pow_add]
    ring

/-- The decoder after it has accepted the more-follow octets `xs` (R105). -/
def Decoder.afterOctets (d : Decoder) (xs : List Octet) : Decoder :=
  { d with
    v := BitVec.ofNat 64 (d.v.toNat + payloadSum xs * 2 ^ d.M)
    M := d.M + 7 * xs.length }

@[simp] theorem afterOctets_nil (d : Decoder) : d.afterOctets [] = d := by
  simp [Decoder.afterOctets, payloadSum]

/-- The sum of R73 with one octet more is the accumulator plus that octet's contribution (R107). -/
theorem afterOctets_sum_snoc {d : Decoder} {xs : List Octet}
    (hfit : d.v.toNat + payloadSum xs * 2 ^ d.M ≤ u64Max) (b : Octet) :
    (d.afterOctets xs).v.toNat + b.toNat % 128 * 2 ^ (d.afterOctets xs).M =
      d.v.toNat + payloadSum (xs ++ [b]) * 2 ^ d.M := by
  have hv : (d.afterOctets xs).v.toNat = d.v.toNat + payloadSum xs * 2 ^ d.M :=
    Nat.mod_eq_of_lt (by rw [u64Max] at hfit; omega)
  have hM : (d.afterOctets xs).M = d.M + 7 * xs.length := rfl
  rw [hv, hM, payloadSum_append, payloadSum, payloadSum, payload_eq, Nat.pow_add]
  ring

/-- A decoder in Continuation takes more-follow octets while the unbounded sum fits, and asks for more
(R105, R111). -/
theorem decLoop_moreFollow (xs : List Octet) (i : Nat) (d : Decoder) (hc : d.state = .continuation)
    (hmore : ∀ b ∈ xs, 128 ≤ b.toNat) (hfit : d.v.toNat + payloadSum xs * 2 ^ d.M ≤ u64Max) :
    decLoop xs i d = ⟨d.afterOctets xs, i + xs.length, .needsMore⟩ := by
  induction xs generalizing i d with
  | nil => simp [decLoop, hc]
  | cons b xs ih =>
    have hsplit : d.v.toNat + payloadSum (b :: xs) * 2 ^ d.M =
        d.v.toNat + b.toNat % 128 * 2 ^ d.M + payloadSum xs * 2 ^ (d.M + 7) := by
      rw [payloadSum, payload_eq, Nat.pow_add]; ring
    have ho : overflows b d = false := by
      rw [Bool.eq_false_iff, ne_eq, overflows_iff]
      rw [hsplit, u64Max] at hfit; omega
    have hv := dContOn_v ho
    have hs : (dContOn b d).state = .continuation := by
      rw [dContOn_state, if_pos (hmore b List.mem_cons_self)]
    have hrest := ih (i + 1) (dContOn b d) hs (fun c hc => hmore c (List.mem_cons_of_mem b hc))
      (by rw [hv, dContOn_M, ← hsplit]; exact hfit)
    have hafter : (dContOn b d).afterOctets xs = d.afterOctets (b :: xs) := by
      simp only [Decoder.afterOctets, hv, hsplit, dContOn_M, dContOn_N, hs, hc, List.length_cons]
      rw [Nat.mul_succ, Nat.add_assoc d.M, Nat.add_comm 7]
    simp [decLoop, hc, ho, hrest, hafter, Nat.add_assoc, Nat.add_comm 1]

/-- The first octet whose partial sum is too large ends the operation and is not counted (R106). -/
theorem decLoop_tooLarge {xs : List Octet} (b : Octet) (ys : List Octet) (i : Nat) {d : Decoder}
    (hc : d.state = .continuation) (hmore : ∀ b ∈ xs, 128 ≤ b.toNat)
    (hfit : d.v.toNat + payloadSum xs * 2 ^ d.M ≤ u64Max)
    (hbig : u64Max < d.v.toNat + payloadSum (xs ++ [b]) * 2 ^ d.M) :
    decLoop (xs ++ b :: ys) i d = ⟨dFail (d.afterOctets xs), i + xs.length, .tooLarge⟩ := by
  have ho : overflows b (d.afterOctets xs) = true := by
    rw [overflows_iff, afterOctets_sum_snoc hfit]
    rw [u64Max] at hbig; omega
  have hs : (d.afterOctets xs).state = .continuation := hc
  rw [decLoop_append, decLoop_moreFollow xs i d hc hmore hfit]
  simp [decLoop, hs, ho]

/-- An integer whose sum fits is taken up to its last octet; what follows is left (R105, R112). -/
theorem decLoop_assembles {xs : List Octet} {last : Octet} (ys : List Octet) (i : Nat) {d : Decoder}
    (hc : d.state = .continuation) (hmore : ∀ b ∈ xs, 128 ≤ b.toNat) (hlast : last.toNat < 128)
    (hfit : d.v.toNat + payloadSum (xs ++ [last]) * 2 ^ d.M ≤ u64Max) :
    ∃ d', decLoop (xs ++ last :: ys) i d = ⟨d', i + (xs.length + 1), .none⟩ ∧
      d'.state = .done ∧ d'.v.toNat = d.v.toNat + payloadSum (xs ++ [last]) * 2 ^ d.M := by
  have hxs : d.v.toNat + payloadSum xs * 2 ^ d.M ≤ u64Max := by
    rw [payloadSum_append, Nat.add_mul] at hfit; omega
  have hsum := afterOctets_sum_snoc hxs last
  have ho : overflows last (d.afterOctets xs) = false := by
    rw [Bool.eq_false_iff, ne_eq, overflows_iff, hsum]
    rw [u64Max] at hfit; omega
  have hs : (d.afterOctets xs).state = .continuation := hc
  have hdone : (dContOn last (d.afterOctets xs)).state = .done := by
    rw [dContOn_state, if_neg (by omega)]
  refine ⟨dContOn last (d.afterOctets xs), ?_, hdone, by rw [dContOn_v ho, hsum]⟩
  rw [decLoop_append, decLoop_moreFollow xs i d hc hmore hxs]
  simp [decLoop, hs, ho, decLoop_of_done ys _ hdone, Nat.add_assoc]

/-- `DEC.RUN` on a decoder in First: D.FIRST on the first octet, then the loop over the others (R110). -/
theorem decRunOn_first {d : Decoder} (hs : d.state = .first) (b : Octet) (bs : List Octet) :
    decRunOn (b :: bs) d = decLoop bs 1 (dFirstOn b d) := by
  simp [decRunOn, decPrecheck, decLoop, hs]

/-- The decoder after D.FIRST on an octet of class LONG (R104). -/
def Decoder.afterLong (d : Decoder) : Decoder :=
  { d with v := BitVec.ofNat 64 (maxp d.N), M := 0, state := .continuation }

/-- From the sentinel on, the accumulator and the sum of R73 are the assembled value. -/
theorem afterLong_sum {d : Decoder} (h8 : d.N.toNat ≤ 8) (conts : List Octet) :
    d.afterLong.v.toNat + payloadSum conts * 2 ^ d.afterLong.M = assembled d.N conts := by
  have hm := maxp_le h8
  have hv : d.afterLong.v.toNat = maxp d.N := Nat.mod_eq_of_lt (by omega)
  have hM : d.afterLong.M = 0 := rfl
  rw [hv, hM, Nat.pow_zero, Nat.mul_one, assembled]

theorem decRunOn_short {d : Decoder} {b : Octet} (hs : d.state = .first) (h8 : d.N.toNat ≤ 8)
    (hb : b.toNat % 2 ^ d.N.toNat < maxp d.N) (extra : List Octet) :
    ∃ d', decRunOn (b :: extra) d = ⟨d', 1, .none⟩ ∧ d'.state = .done ∧
      d'.v.toNat = b.toNat % 2 ^ d.N.toNat := by
  have hm := maxp_le h8
  rw [decRunOn_first hs]
  rcases dFirstOn_cases b h8 with ⟨-, he⟩ | ⟨heq, -⟩
  · have hdone : (dFirstOn b d).state = .done := by rw [he]
    refine ⟨dFirstOn b d, decLoop_of_done extra 1 hdone, hdone, ?_⟩
    rw [he]; exact Nat.mod_eq_of_lt (by omega)
  · omega

theorem decRunOn_long {d : Decoder} {b : Octet} (hs : d.state = .first) (h8 : d.N.toNat ≤ 8)
    (hb : b.toNat % 2 ^ d.N.toNat = maxp d.N) (bs : List Octet) :
    decRunOn (b :: bs) d = decLoop bs 1 d.afterLong := by
  rw [decRunOn_first hs]
  rcases dFirstOn_cases b h8 with ⟨hlt, -⟩ | ⟨-, he⟩
  · omega
  · rw [he]; rfl

/-- What a `DEC.RUN` on a free unit leads to, from what its run on the registers gives. -/
theorem decRun_leads {view : List Octet} {s : State} {r : DecResult} {P : State → Prop}
    (hf : s.decFlight = none) (hr : decRunOn view s.dec = r)
    (hP : P (finishDec r { s with dec := r.d })) : Leads (exec (.decRun view) s) P := by
  subst hr
  exact ⟨_, execDecRun_eq view hf, hP⟩

/-- The octets of an integer cut at its `j`-th continuation octet: only more-follow octets precede it. -/
theorem exists_split_at (more : List Octet) (last : Octet) (extra : List Octet) {j : Nat}
    (hj : j < more.length + 1) :
    ∃ b ys, more ++ last :: extra = more.take j ++ b :: ys ∧
      (more ++ [last]).take j = more.take j ∧ (more ++ [last]).take (j + 1) = more.take j ++ [b] := by
  have hlen : j < (more ++ [last]).length := by simpa using hj
  have htake : (more ++ [last]).take j = more.take j := List.take_append_of_le_length (by omega)
  refine ⟨(more ++ [last])[j], (more ++ [last]).drop (j + 1) ++ extra, ?_, htake, ?_⟩
  · rw [← htake, ← List.cons_append, ← List.drop_eq_getElem_cons, ← List.append_assoc,
      List.take_append_drop, List.append_assoc, List.singleton_append]
  · rw [← List.take_append_getElem hlen, htake]

/-- Settles O35: D.FIRST gives a SHORT value or the sentinel; after the sentinel the octets split at the
last one, or at the first one whose partial sum is too large. -/
theorem decoderAssemblesValue : Obligations.DecoderAssemblesValue := by
  intro s b0 last more extra hf hs _ h8 hmore hlast
  refine ⟨fun hshort => ?_, fun hlong => ⟨fun hfit => ?_, fun j hj hfit hbig => ?_⟩⟩
  · obtain ⟨d, hr, hd, hv⟩ := decRunOn_short hs h8 hshort extra
    exact decRun_leads hf hr (by simp [finishDec_valOut, hd, hv])
  · rw [← afterLong_sum h8] at hfit ⊢
    obtain ⟨d, hr, hd, hv⟩ := decLoop_assembles extra 1 rfl hmore hlast hfit
    exact decRun_leads hf ((decRunOn_long hs h8 hlong _).trans hr) (by simp [finishDec_valOut, hd, hv])
  · obtain ⟨b, ys, hview, htake, htake'⟩ := exists_split_at more last extra hj
    rw [htake, ← afterLong_sum h8] at hfit
    rw [htake', ← afterLong_sum h8] at hbig
    have hr := decLoop_tooLarge b ys 1 rfl (fun c hc => hmore c (List.mem_of_mem_take hc)) hfit hbig
    rw [← hview, List.length_take_of_le (by omega)] at hr
    exact decRun_leads hf ((decRunOn_long hs h8 hlong _).trans hr) (by simp [decDone])

/-! ## The canonical encoding the encoder writes (R74, R79) -/

theorem remainderDigits_lt {r : Nat} (h : r < 128) : remainderDigits r = [r] := by
  rw [remainderDigits]
  split
  · simp [*]
  · exact Nat.digits_of_lt 128 r ‹_› h

theorem remainderDigits_ge {r : Nat} (h : 128 ≤ r) :
    remainderDigits r = r % 128 :: remainderDigits (r / 128) := by
  rw [remainderDigits, remainderDigits, if_neg (by omega), if_neg (by omega),
    Nat.digits_def' (by omega) (by omega)]

theorem remainderDigits_ne_nil (r : Nat) : remainderDigits r ≠ [] := by
  rw [remainderDigits]
  split
  · simp
  · exact Nat.digits_ne_nil_iff_ne_zero.2 ‹_›

/-- A remainder below 128 is the one last octet (R140). -/
theorem canonicalTail_lt {r : Nat} (h : r < 128) : canonicalTail r = [BitVec.ofNat 8 r] := by
  simp [canonicalTail, remainderDigits_lt h]

/-- A remainder from 128 up is a more-follow octet and the tail of the quotient (R139). -/
theorem canonicalTail_ge {r : Nat} (h : 128 ≤ r) :
    canonicalTail r = BitVec.ofNat 8 (r % 128 + 128) :: canonicalTail (r / 128) := by
  obtain ⟨d, ds, hds⟩ := List.exists_cons_of_ne_nil (remainderDigits_ne_nil (r / 128))
  simp [canonicalTail, remainderDigits_ge h, hds]

theorem octetsAt_succ (m : Memory) (off k : Nat) :
    octetsAt m off (k + 1) = m.read off :: octetsAt m (off + 1) k := by
  simp [octetsAt, List.range_succ_eq_map, Function.comp_def, Nat.add_assoc, Nat.add_comm 1]

/-- The loop writes the octets `bs`, in order, and ends Done (R136). -/
def EncLoopWrites (bs : List Octet) (r : U64) (room a w : Nat) (e : Encoder) (m : Memory) : Prop :=
  ∃ x, encLoop r room a w e m = .ok x ∧ x.e.state = .done ∧ x.cnt = w + bs.length ∧
    octetsAt x.mem a bs.length = bs.map some

section
variable {bs : List Octet} {r : U64} {room a w : Nat} {e e' : Encoder} {m : Memory} {b : Octet}

theorem encLoopWrites_of_done (h : e.state = .done) : EncLoopWrites [] r room a w e m :=
  ⟨_, encLoop_of_done r room a w m h, h, rfl, rfl⟩

/-- A pass that writes the octet `b` puts it before what the rest of the loop writes, since the rest
leaves its address alone (R55). -/
theorem encLoopWrites_cons (hd : e.state ≠ .done)
    (hstep : eOctetOn r a (eSettle e) m = .ok ⟨e', m.write a b⟩) (hi : e'.state ≠ .idle)
    (hrest : EncLoopWrites bs r room (a + 1) (w + 1) e' (m.write a b)) :
    EncLoopWrites (b :: bs) r (room + 1) a w e m := by
  obtain ⟨x, hx, hdone, hcnt, hoct⟩ := hrest
  have hread : x.mem.read a = some b := by
    rw [(encLoop_ends hi hx).outside a (by omega), Memory.read_write, if_pos rfl]
  refine ⟨x, by simp only [encLoop, if_neg hd, hstep, hx], hdone,
    by rw [hcnt, List.length_cons]; omega, ?_⟩
  rw [List.length_cons, octetsAt_succ, hread, hoct, List.map_cons]

end

/-- An encoder in Continuation, given room, writes the continuation octets of its remainder
(R139, R140). -/
theorem encLoop_writes_canonicalTail {r : U64} {room a w : Nat} {e : Encoder} {m : Memory}
    (hc : e.state = .continuation) (hroom : (canonicalTail e.rem.toNat).length ≤ room) :
    EncLoopWrites (canonicalTail e.rem.toNat) r room a w e m := by
  induction room generalizing a w e m with
  | zero => simp [canonicalTail] at hroom
  | succ room ih =>
    have hrem := e.rem.isLt
    by_cases h : e.rem.toNat < 128
    · rw [canonicalTail_lt h]
      refine encLoopWrites_cons (e' := eDone r { e with state := .final }) (by simp [hc]) ?_ (by simp)
        (encLoopWrites_of_done rfl)
      simp [eSettle, hc, h, eOctetOn, eFinalOn, Nat.mod_eq_of_lt h]
    · have hdiv : (eMoreOn a e m).e.rem.toNat = e.rem.toNat / 128 := Nat.mod_eq_of_lt (by omega)
      rw [canonicalTail_ge (by omega)] at hroom ⊢
      refine encLoopWrites_cons (e' := (eMoreOn a e m).e) (by simp [hc]) ?_ (by simp [eMoreOn, hc]) ?_
      · simp [eSettle, hc, h, eOctetOn, eMoreOn]
      · rw [← hdiv] at hroom ⊢
        exact ih hc (by simpa using hroom)

/-- E.FIRST finds an octet to keep flag bits of; under width 8 there are none to keep (R138, R54). -/
theorem oldFirstOctet_flags {n : Width} {m : Memory} {a : Nat} {old : Octet} (h8 : n.toNat ≤ 8)
    (hold : n.toNat < 8 → m.read a = some old) :
    ∃ o, oldFirstOctet n m a = some o ∧ o &&& flagMask n = old &&& flagMask n := by
  by_cases h : n.toNat < 8
  · exact ⟨old, by rw [oldFirstOctet, if_pos h, hold h], rfl⟩
  · have hn : n = 8 := BitVec.eq_of_toNat_eq (by simp; omega)
    have hmask : flagMask n = 0#8 := by rw [hn]; decide
    exact ⟨0, by rw [oldFirstOctet, if_neg h], by simp [hmask]⟩

/-- The encoder after E.FIRST on a value that does not fit the value field (R138). -/
def longEncoder (value : U64) (n : Width) : Encoder :=
  { state := .continuation, N := n, rem := BitVec.ofNat 64 (value.toNat - maxp n) }

/-- A fresh encoder, given room, writes the canonical encoding (R138, then R139 and R140). -/
theorem encLoop_writes_canonicalOctets {value : U64} {n : Width} {old : Octet} {r : U64}
    {room a w : Nat} {m : Memory} (h8 : n.toNat ≤ 8) (hold : n.toNat < 8 → m.read a = some old)
    (hroom : (canonicalOctets n value old).length ≤ room) :
    EncLoopWrites (canonicalOctets n value old) r room a w (freshEncoder value n) m := by
  obtain ⟨o, ho, hflags⟩ := oldFirstOctet_flags h8 hold
  have hstep : eOctetOn r a (eSettle (freshEncoder value n)) m =
      eFirstOn r a (freshEncoder value n) m := rfl
  cases room with
  | zero => rw [canonicalOctets] at hroom; split at hroom <;> simp at hroom
  | succ room =>
    by_cases h : value.toNat < maxp n
    · have htrunc : value.truncate 8 = BitVec.ofNat 8 value.toNat := by
        apply BitVec.eq_of_toNat_eq; simp
      rw [canonicalOctets, if_pos h]
      refine encLoopWrites_cons (e' := eDone r (freshEncoder value n)) (by simp [freshEncoder]) ?_
        (by simp) (encLoopWrites_of_done rfl)
      rw [hstep]
      simp [eFirstOn, freshEncoder, ho, h, hflags, ← htrunc]
    · have hvalue := value.isLt
      have hrem : (longEncoder value n).rem.toNat = value.toNat - maxp n :=
        Nat.mod_eq_of_lt (by omega)
      rw [canonicalOctets, if_neg h, ← hrem] at hroom ⊢
      refine encLoopWrites_cons (e' := longEncoder value n) (by simp [freshEncoder]) ?_
        (by simp [longEncoder]) (encLoop_writes_canonicalTail rfl (by simpa using hroom))
      rw [hstep]
      simp [eFirstOn, freshEncoder, longEncoder, ho, h, hflags]

theorem canonicalOctets_length_pos (n : Width) (value : U64) (old : Octet) :
    0 < (canonicalOctets n value old).length := by
  rw [canonicalOctets]; split <;> simp

/-- Settles O46: the checks pass, the loop writes the canonical octets, and what it can end with says
that nothing else changed. -/
theorem encoderWritesCanonicalEncoding : Obligations.EncoderWritesCanonicalEncoding := by
  intro value n old off cap s _ h8 hf henc hold hroom
  have hcap : cap ≠ 0 := by have := canonicalOctets_length_pos n value old; omega
  obtain ⟨x, hx, hdone, hcnt, hoct⟩ :=
    encLoop_writes_canonicalOctets (r := Config.freeRem s.draws) (w := 0) h8 hold hroom
  have hends := encLoop_ends (by simp [freshEncoder]) hx
  have hrun : encRunOn (Config.freeRem s.draws) off cap s.enc s.mem = .ok x := by
    simp [encRunOn, encPrecheck, henc, freshEncoder, hcap, ← hx]
  rw [Nat.zero_add] at hcnt
  refine ⟨finishEnc x.e x.cnt x.err { s with enc := x.e, mem := x.mem },
    (execEncRun_eq off cap hf).trans (by rw [hrun]), ?_⟩
  simp only [finishEnc_cnt, finishEnc_err, finishEnc_done, finishEnc_mem, encDone_iff]
  exact ⟨hcnt, hends.none_iff.2 hdone, hdone, by rw [hcnt, hoct], hends.outside⟩

end Sys2Proof.Machine
end

/-! Proofs of the family 40_prefix_helper.md: `MPV` (R90), `ROCT` (R91, R92), and that neither reads or
writes a register of a unit or touches memory (R96). -/

section
namespace Sys2Proof.Machine

/-! ## What a helper ends with -/

/-- The check of the width and both its ends are one `finish`: only the results depend on the width
(R95). -/
theorem checked_eq_finish (cnt : Nat) (n : Width) (s : State) :
    (if badWidth n then .next (raisePrecondition s) else .next (finish cnt none .none false s) : Out) =
      .next (finish (if badWidth n then 0 else cnt) none
        (if badWidth n then .preconditionViolation else .none) false s) := by
  cases badWidth n <;> rfl

theorem exec_mpv_eq (n : Width) (s : State) :
    exec (.mpv n) s = .next (finish (if badWidth n then 0 else maxp n) none
      (if badWidth n then .preconditionViolation else .none) false s) :=
  checked_eq_finish (maxp n) n s

theorem exec_roct_eq (value : U64) (n : Width) (s : State) :
    exec (.roct value n) s = .next (finish (if badWidth n then 0 else requiredOctets value n) none
      (if badWidth n then .preconditionViolation else .none) false s) :=
  checked_eq_finish (requiredOctets value n) n s

theorem badWidth_true {n : Width} (h : n.toNat < 1 ∨ 8 < n.toNat) : badWidth n = true :=
  (badWidth_iff n).2 (by omega)

/-- Settles O14: in both branches the operation is one `finish`, with the sentinel or 0 on `cnt`. -/
theorem mpvGivesMaximumPrefixValue : Obligations.MpvGivesMaximumPrefixValue := by
  intro n s
  refine ⟨_, exec_mpv_eq n s, fun ⟨h1, h8⟩ => ?_, fun hbad => ?_, rfl, rfl, rfl, rfl, rfl, rfl, rfl⟩
  · simp [badWidth_false h1 h8, maxp]
  · simp [badWidth_true hbad]

/-- A helper gives the same results from every state, and its `finish` is all it does (R96). -/
theorem exec_helper_eq_finish {value : U64} {n : Width} {i : Instr}
    (hi : i = .mpv n ∨ i = .roct value n) :
    ∃ cnt err, ∀ s, exec i s = .next (finish cnt none err false s) := by
  obtain rfl | rfl := hi
  · exact ⟨_, _, exec_mpv_eq n⟩
  · exact ⟨_, _, exec_roct_eq value n⟩

/-- Settles O17: the results are chosen before the state, and `finish` leaves the rest. -/
theorem helpersTouchNothing : Obligations.HelpersTouchNothing := by
  intro value n i hi s
  obtain ⟨cnt, err, hexec⟩ := exec_helper_eq_finish hi
  exact ⟨_, hexec s, rfl, rfl, rfl, rfl, rfl, rfl, fun s' => ⟨_, hexec s', rfl, rfl, rfl⟩⟩

/-! ## The octets `ROCT` counts (R91) -/

/-- With fuel enough, the loop of R91 adds one for every base-128 digit but the last. -/
theorem roctLoop_eq_digits {fuel r : Nat} (c : Nat) (h : r < 128 ^ (fuel + 1)) :
    roctLoop fuel r (c + 1) = c + (remainderDigits r).length := by
  induction fuel generalizing r c with
  | zero => rw [remainderDigits_lt h]; rfl
  | succ fuel ih =>
    rw [roctLoop_step]
    split
    next hr =>
      have hdiv : r / 128 < 128 ^ (fuel + 1) :=
        Nat.div_lt_of_lt_mul (by rw [Nat.pow_succ] at h; omega)
      rw [ih (c + 1) hdiv, remainderDigits_ge hr, List.length_cons]
      omega
    next hr => rw [remainderDigits_lt (by omega)]; rfl

theorem requiredOctets_short {value : U64} {n : Width} (h : value.toNat < maxp n) :
    requiredOctets value n = 1 := if_pos h

/-- From the sentinel on: octet 0 and one octet a digit of the remainder. -/
theorem requiredOctets_long {value : U64} {n : Width} (h : maxp n ≤ value.toNat) :
    requiredOctets value n = 1 + (remainderDigits (value.toNat - maxp n)).length := by
  have hvalue := value.isLt
  rw [requiredOctets, if_neg (by omega), roctLoop_eq_digits 1 (by omega)]

/-- Settles O15: in both branches the operation is one `finish`, and the loop counts digits. -/
theorem roctCountsOctets : Obligations.RoctCountsOctets := by
  intro value n s
  refine ⟨_, exec_roct_eq value n s, fun ⟨h1, h8⟩ => ?_, fun hbad => ?_,
    rfl, rfl, rfl, rfl, rfl, rfl, rfl⟩
  · simp only [finish_cnt, finish_err, badWidth_false h1 h8, Bool.false_eq_true, if_false, and_true]
    rw [← maxp]
    split
    next hshort => exact requiredOctets_short hshort
    next hlong => exact requiredOctets_long (by omega)
  · simp [badWidth_true hbad]

/-! ## The closed form of `ROCT` (R92) -/

theorem remainderDigits_length_le_iff (r k : Nat) :
    (remainderDigits r).length ≤ k + 1 ↔ r < 128 ^ (k + 1) := by
  rw [remainderDigits]
  split
  · simp [*]
  · exact Nat.digits_length_le_iff (by omega) r

/-- Every row of R92's table is two of these bounds. -/
theorem requiredOctets_le_iff {value : U64} {n : Width} (h : maxp n ≤ value.toNat) (k : Nat) :
    requiredOctets value n ≤ k + 2 ↔ value.toNat - maxp n < 2 ^ (7 * (k + 1)) := by
  rw [requiredOctets_long h, Nat.pow_mul, ← remainderDigits_length_le_iff]
  omega

theorem two_le_requiredOctets {value : U64} {n : Width} (h : maxp n ≤ value.toNat) :
    2 ≤ requiredOctets value n := by
  have := List.length_pos_iff.2 (remainderDigits_ne_nil (value.toNat - maxp n))
  rw [requiredOctets_long h]; omega

theorem requiredOctets_le_eleven (value : U64) (n : Width) : requiredOctets value n ≤ 11 := by
  by_cases h : value.toNat < maxp n
  · rw [requiredOctets_short h]; omega
  · have hvalue := value.isLt
    exact (requiredOctets_le_iff (by omega) 9).2 (by omega)

/-- Row `k` of R92's table: `r` of `7 * k` to `7 * (k + 1)` bits takes `k + 2` octets. -/
theorem requiredOctets_eq {value : U64} {n : Width} {k : Nat} (h : maxp n ≤ value.toNat)
    (hk : 1 ≤ k) (hlow : 2 ^ (7 * k) ≤ value.toNat - maxp n)
    (hhigh : value.toNat - maxp n < 2 ^ (7 * (k + 1))) : requiredOctets value n = k + 2 := by
  obtain ⟨j, rfl⟩ := Nat.exists_eq_add_of_le' hk
  have hmore := mt (requiredOctets_le_iff h j).1 (by omega)
  have hle := (requiredOctets_le_iff h (j + 1)).2 hhigh
  omega

/-- A remainder of 64 bits is the last row of R92's table. -/
theorem requiredOctets_eq_eleven {value : U64} {n : Width} (h : 2 ^ 63 ≤ value.toNat - maxp n) :
    requiredOctets value n = 11 := by
  have hvalue := value.isLt
  exact requiredOctets_eq (k := 9) (by omega) (by omega) h (by omega)

/-- Nine divisions are enough: a remainder of 64 bits is below `128 ^ 10` (R92). -/
theorem roctLoop_eq_requiredOctets {value : U64} {n : Width} {fuel : Nat}
    (h : maxp n ≤ value.toNat) (hfuel : 9 ≤ fuel) :
    roctLoop fuel (value.toNat - maxp n) 2 = requiredOctets value n := by
  have hvalue := value.isLt
  obtain ⟨extra, rfl⟩ := Nat.exists_eq_add_of_le hfuel
  rw [roctLoop_fuel _ _ _ (by omega), roctLoop_eq_digits 1 (by omega), requiredOctets_long h]

/-- Settles O16: below the sentinel by definition, from it on by the table's two bounds. -/
theorem roctClosedFormAndBounds : Obligations.RoctClosedFormAndBounds := by
  intro value n _ h8
  have hmaxp := maxp_le h8
  have hu64Max : (BitVec.ofNat 64 u64Max).toNat = 2 ^ 64 - 1 := rfl
  refine ⟨requiredOctets_short, fun hlong => ⟨fun hr => ?_, fun k h1 _ => requiredOctets_eq hlong h1,
    requiredOctets_eq_eleven, fun fuel => roctLoop_eq_requiredOctets hlong⟩,
    requiredOctets_le_eleven value n, ?_, requiredOctets_eq_eleven (by rw [hu64Max]; omega)⟩
  · have hle := (requiredOctets_le_iff hlong 0).2 hr
    have hge := two_le_requiredOctets hlong
    omega
  · rw [u64Max]; omega

end Sys2Proof.Machine
end

/-! Proofs of the family 41_decoder.md: construction and the answers given before any octet is read (R100
to R103), the micro-steps D.FIRST and D.CONT (R104 to R106), zero payloads (R108), the overflow test
(R109), and the round trip with the encoder (R116, R117). -/

section
namespace Sys2Proof.Machine

/-! ## Construction, and the answers before any octet is read (R100 to R103) -/

theorem exec_decInit_eq {n : Width} {s : State} (h1 : 1 ≤ n.toNat) (h8 : n.toNat ≤ 8)
    (hf : s.decFlight = none) :
    exec (.decInit n) s = .next (finish 0 none .none false { s with dec := freshDecoder n }) := by
  simp [exec, execDecInit, hf, badWidth_false h1 h8]

theorem exec_decInit_badWidth {n : Width} {s : State} (hn : n.toNat < 1 ∨ 8 < n.toNat)
    (hf : s.decFlight = none) :
    exec (.decInit n) s =
      .next (raisePrecondition { s with dec := { s.dec with state := .idle } }) := by
  simp [exec, execDecInit, hf, badWidth_true hn]

/-- Settles O19: a legal width constructs, any other leaves the unit Idle. -/
theorem decInitConstructs : Obligations.DecInitConstructs := by
  intro n s hf
  by_cases hn : 1 ≤ n.toNat ∧ n.toNat ≤ 8
  · refine ⟨_, exec_decInit_eq hn.1 hn.2 hf, fun _ => ⟨rfl, rfl⟩, fun hbad => by omega, ?_⟩
    exact ⟨rfl, rfl, rfl, rfl, hf, rfl, rfl⟩
  · refine ⟨_, exec_decInit_badWidth (by omega) hf, fun h => absurd h hn, fun _ => ⟨rfl, rfl⟩, ?_⟩
    exact ⟨rfl, rfl, rfl, rfl, hf, rfl, rfl⟩

/-- A check that ends the operation leaves the registers as they are and counts nothing. -/
theorem decRunOn_of_precheck {view : List Octet} {d : Decoder} {err : Err}
    (h : decPrecheck view d = some err) : decRunOn view d = ⟨d, 0, err⟩ := by
  simp [decRunOn, h]

/-- Settles O20: the first two checks, in their order. -/
theorem decRunIdleOrFailed : Obligations.DecRunIdleOrFailed := by
  intro view s hf
  refine ⟨fun hs => ?_, fun hs => ?_⟩
  · have hp : decPrecheck view s.dec = some .preconditionViolation := by simp [decPrecheck, hs]
    exact decRun_leads hf (decRunOn_of_precheck hp) (by simp [decDone, hs])
  · have hp : decPrecheck view s.dec = some .tooLarge := by simp [decPrecheck, hs]
    exact decRun_leads hf (decRunOn_of_precheck hp) (by simp [decDone, hs])

/-- Settles O21: the check of the empty view comes before the check of Done. -/
theorem decRunEmptyView : Obligations.DecRunEmptyView := by
  intro s hf hidle hfailed
  have hp : decPrecheck [] s.dec = some .needsMore := by simp [decPrecheck, hidle, hfailed]
  refine decRun_leads hf (decRunOn_of_precheck hp) ⟨rfl, rfl, rfl, rfl, rfl, fun hs => ?_, fun hs => ?_⟩
  · exact ⟨by simpa using hs, finishDec_valOut _ _ hs⟩
  · simpa [decDone] using hs

/-- Settles O22: on a view that is not empty the last check answers. -/
theorem decRunAlreadyDone : Obligations.DecRunAlreadyDone := by
  intro view s hf hs hview
  have hp : decPrecheck view s.dec = some .none := by simp [decPrecheck, hs, hview]
  exact decRun_leads hf (decRunOn_of_precheck hp) (by simp [finishDec_valOut, hs])

/-! ## The micro-steps (R104 to R106) -/

section
variable {s : State} {f : DecFlight} {b : Octet}

theorem decMicroAtCursor_eq {t : DecTag} (hf : s.decFlight = some f)
    (hb : f.view[f.cursor]? = some b) (ht : s.dec.state = t) :
    decMicroAtCursor t s = .next (decMicro b f s) := by
  simp [decMicroAtCursor, hf, hb, ht]

theorem decMicro_first (hs : s.dec.state = .first) :
    decMicro b f s =
      { s with dec := dFirstOn b s.dec, decFlight := some { f with cursor := f.cursor + 1 } } :=
  if_pos hs

theorem decMicro_accepts (hs : s.dec.state = .continuation) (ho : overflows b s.dec = false) :
    decMicro b f s =
      { s with dec := dContOn b s.dec, decFlight := some { f with cursor := f.cursor + 1 } } := by
  simp [decMicro, hs, ho]

theorem decMicro_overflows (hs : s.dec.state = .continuation) (ho : overflows b s.dec = true) :
    decMicro b f s = retireDec ⟨dFail s.dec, f.cursor, .tooLarge⟩ s := by
  simp [decMicro, hs, ho]

end

theorem overflows_false_iff (b : Octet) (d : Decoder) :
    overflows b d = false ↔ d.v.toNat + b.toNat % 128 * 2 ^ d.M < 2 ^ 64 := by
  rw [Bool.eq_false_iff, ne_eq, overflows_iff, Nat.not_le]

/-- Settles O23: D.FIRST by its two classes. -/
theorem dFirstTakesFirstOctet : Obligations.DFirstTakesFirstOctet := by
  intro s f b hf hb hs _ h8
  refine (decMicroAtCursor_eq hf hb hs).trans ?_
  rw [decMicro_first hs, ← maxp]
  rcases dFirstOn_cases b h8 with ⟨hshort, hd⟩ | ⟨hlong, hd⟩
  · rw [hd, if_pos hshort]
  · rw [hd, if_neg (by omega)]

/-- Settles O24: the sum fits, so the accepting case is taken and nothing wraps. -/
theorem dContAccepts : Obligations.DContAccepts := by
  intro s f b hf hb hs hfit
  have ho : overflows b s.dec = false := (overflows_false_iff b s.dec).2 (by omega)
  refine ⟨_, decMicroAtCursor_eq hf hb hs, ?_⟩
  rw [decMicro_accepts hs ho]
  refine ⟨dContOn_v ho, rfl, rfl, ?_, rfl, rfl, rfl, rfl, rfl⟩
  simp only [dContOn_state, ← not_lt, ite_not]

/-- Settles O25: the sum does not fit, so the operation returns at the cursor. -/
theorem dContOverflowFails : Obligations.DContOverflowFails := by
  intro s f b hf hb hs hbig
  have ho : overflows b s.dec = true := (overflows_iff b s.dec).2 (by omega)
  refine ⟨_, decMicroAtCursor_eq hf hb hs, ?_⟩
  rw [decMicro_overflows hs ho]
  exact ⟨rfl, rfl, rfl, rfl, rfl, rfl, rfl, rfl⟩

/-! ## Zero payloads (R108) -/

/-- On a decoder in Continuation the checks before the loop change nothing: over the empty view the loop
gives the same answer (R102, R111). -/
theorem decRunOn_continuation {d : Decoder} (hc : d.state = .continuation) (view : List Octet) :
    decRunOn view d = decLoop view 0 d := by
  cases view <;> simp [decRunOn, decPrecheck, decLoop, hc]

theorem overflows_zeroPayload {b : Octet} (hb : b.toNat % 128 = 0) (d : Decoder) :
    overflows b d = false := by
  have hv := d.v.isLt
  rw [overflows_false_iff, hb, Nat.zero_mul]
  exact hv

theorem payloadSum_zeroPayloads (k : Nat) : payloadSum (List.replicate k 0x80#8) = 0 := by
  induction k with
  | zero => rfl
  | succ k ih => rw [List.replicate_succ, payloadSum, ih]; rfl

theorem decLoop_zeroPayloads (k : Nat) {d : Decoder} (hc : d.state = .continuation) :
    decLoop (List.replicate k 0x80#8) 0 d = ⟨{ d with M := d.M + 7 * k }, k, .needsMore⟩ := by
  have hv := d.v.isLt
  rw [decLoop_moreFollow _ 0 d hc (fun b hb => by rw [List.eq_of_mem_replicate hb]; decide)
    (by rw [payloadSum_zeroPayloads, u64Max]; omega)]
  simp [Decoder.afterOctets, payloadSum_zeroPayloads]

theorem decLoop_zeroLast (i : Nat) {d : Decoder} (hc : d.state = .continuation) :
    decLoop [0x00#8] i d = ⟨{ d with M := d.M + 7, state := .done }, i + 1, .none⟩ := by
  have hstep : dContOn 0x00#8 d = { d with M := d.M + 7, state := .done } := by
    simp [dContOn, contribution, payload, moreFollow]
  simp [decLoop, hc, overflows_zeroPayload, hstep]

/-- Settles O29: the run of 0x80 by the loop over more-follow octets, and 0x00 after it. -/
theorem zeroPayloadsAreAccepted : Obligations.ZeroPayloadsAreAccepted := by
  intro k s hf hc
  have hrun := decLoop_zeroPayloads k hc
  constructor
  · exact decRun_leads hf ((decRunOn_continuation hc _).trans hrun) ⟨rfl, rfl, rfl⟩
  · have hlast := decLoop_zeroLast k (d := { s.dec with M := s.dec.M + 7 * k }) hc
    refine decRun_leads hf (r := ⟨{ s.dec with M := s.dec.M + 7 * (k + 1), state := .done }, k + 1,
      .none⟩) ?_ ⟨rfl, rfl, rfl, finishDec_valOut _ _ rfl⟩
    rw [decRunOn_continuation hc, decLoop_append, hrun, if_pos rfl, hlast]
    rfl

/-! ## The overflow test (R109) -/

theorem contribution_lt (b : Octet) {M : Nat} (hM : M ≤ 56) : contribution b M < 2 ^ 63 := by
  have hp := payload_lt b
  calc payload b * 2 ^ M ≤ 127 * 2 ^ 56 :=
        Nat.mul_le_mul (by omega) (Nat.pow_le_pow_right (by omega) hM)
    _ < 2 ^ 63 := by omega

/-- From shift 70 up any payload but zero is too large, whatever the accumulator. -/
theorem overflows_of_seventy_le {b : Octet} {d : Decoder} (hM : 70 ≤ d.M) (hb : 1 ≤ b.toNat % 128) :
    overflows b d = true := by
  rw [overflows_iff]
  have hc : 1 * 2 ^ 70 ≤ b.toNat % 128 * 2 ^ d.M :=
    Nat.mul_le_mul hb (Nat.pow_le_pow_right (by omega) hM)
  omega

/-- A register holding `min(D.M, 70)` gives the same test. -/
theorem overflows_saturated (b : Octet) (d : Decoder) :
    overflows b d = overflows b { d with M := min d.M 70 } := by
  by_cases hM : d.M ≤ 70
  · rw [Nat.min_eq_left hM]
  · by_cases hb : b.toNat % 128 = 0
    · rw [overflows_zeroPayload hb, overflows_zeroPayload hb]
    · rw [overflows_of_seventy_le (by omega) (by omega),
        overflows_of_seventy_le (by simp only; omega) (by omega)]

theorem payloadSum_lt (conts : List Octet) : payloadSum conts < 2 ^ (7 * conts.length) := by
  induction conts with
  | nil => simp [payloadSum]
  | cons b bs ih =>
    have hp := payload_lt b
    rw [payloadSum, List.length_cons, Nat.mul_succ, Nat.pow_add]
    omega

/-- Nine continuation octets fit under every width. -/
theorem assembled_le_u64Max {n : Width} {conts : List Octet} (h8 : n.toNat ≤ 8)
    (hlen : conts.length ≤ 9) : assembled n conts ≤ u64Max := by
  have hm := maxp_le h8
  have hsum : payloadSum conts < 2 ^ 63 :=
    (payloadSum_lt conts).trans_le (Nat.pow_le_pow_right (by omega) (by omega))
  rw [assembled, u64Max]
  omega

/-- Settles O30: the table of R109 row by row, the saturated register, and the nine-octet bound. -/
theorem overflowTestPerShift : Obligations.OverflowTestPerShift := by
  refine ⟨fun b d _ => ⟨fun hb => overflows_zeroPayload hb d,
    fun hM => ⟨contribution_lt b hM, overflows_iff b d⟩, fun hM hb => ?_, fun hM hb => ?_,
    overflows_of_seventy_le, overflows_saturated b d⟩, fun n conts => assembled_le_u64Max⟩
  · rw [overflows_iff, hM]; omega
  · rw [overflows_iff, hM, hb]; omega

/-! ## The round trip (R116, R117) -/

/-- The flag bits kept in octet 0 play no part in its value field (R71, R104). -/
theorem prefixField_keepFlags (n : Width) (old x : Octet) :
    prefixField n ((old &&& flagMask n) ||| x) = prefixField n x := by
  ext i
  simp only [prefixField, flagMask, BitVec.getElem_and, BitVec.getElem_or, BitVec.getElem_not]
  cases (prefixMask n)[i] <;> simp

theorem valueField_keepFlags {n : Width} (h8 : n.toNat ≤ 8) (old : Octet) {p : Nat}
    (hp : p ≤ maxp n) :
    ((old &&& flagMask n) ||| BitVec.ofNat 8 p).toNat % 2 ^ n.toNat = p := by
  have hm := maxp_le h8
  have hpos := Nat.two_pow_pos n.toNat
  have hfield : (BitVec.ofNat 8 p).toNat = p := Nat.mod_eq_of_lt (by omega)
  rw [← prefixField_toNat h8, prefixField_keepFlags, prefixField_toNat h8, hfield]
  exact Nat.mod_eq_of_lt (by rw [maxp] at hp; omega)

theorem canonicalTail_length (r : Nat) :
    (canonicalTail r).length = (remainderDigits r).length := by
  have := List.length_pos_iff.2 (remainderDigits_ne_nil r)
  simp only [canonicalTail, List.length_append, List.length_map, List.length_dropLast,
    List.length_singleton]
  omega

/-- The encoder writes as many octets as `ROCT` counts (R91, R74). -/
theorem canonicalOctets_length (n : Width) (value : U64) (old : Octet) :
    (canonicalOctets n value old).length = requiredOctets value n := by
  rw [canonicalOctets]
  split
  next hshort => rw [requiredOctets_short hshort, List.length_singleton]
  next hlong =>
    rw [requiredOctets_long (by omega), List.length_cons, canonicalTail_length, Nat.add_comm]

/-- The continuation octets of R74 are more-follow octets and a last one, and R73 sums them to the
remainder. -/
theorem canonicalTail_spells (r : Nat) :
    ∃ more last, canonicalTail r = more ++ [last] ∧ (∀ b ∈ more, 128 ≤ b.toNat) ∧
      last.toNat < 128 ∧ payloadSum (more ++ [last]) = r := by
  induction r using Nat.strong_induction_on with
  | _ r ih =>
    by_cases h : r < 128
    · have hlast : (BitVec.ofNat 8 r).toNat = r := Nat.mod_eq_of_lt (by omega)
      refine ⟨[], BitVec.ofNat 8 r, canonicalTail_lt h, by simp, by omega, ?_⟩
      rw [List.nil_append, payloadSum, payloadSum, payload_eq, hlast]
      omega
    · obtain ⟨more, last, htail, hmore, hlast, hsum⟩ := ih (r / 128) (by omega)
      have hfirst : (BitVec.ofNat 8 (r % 128 + 128)).toNat = r % 128 + 128 :=
        Nat.mod_eq_of_lt (by omega)
      refine ⟨BitVec.ofNat 8 (r % 128 + 128) :: more, last, ?_, ?_, hlast, ?_⟩
      · rw [canonicalTail_ge (by omega), htail, List.cons_append]
      · exact List.forall_mem_cons.2 ⟨by omega, hmore⟩
      · rw [List.cons_append, payloadSum, hsum, payload_eq, hfirst]
        omega

/-- The canonical encoding, whatever its flag bits, takes a fresh decoder to Done with the value (R116)
and is consumed whole (R117). -/
theorem decRunOn_canonicalOctets {n : Width} (h8 : n.toNat ≤ 8) (value : U64) (old : Octet) :
    ∃ d, decRunOn (canonicalOctets n value old) (freshDecoder n) =
        ⟨d, requiredOctets value n, .none⟩ ∧ d.state = .done ∧ d.v = value := by
  have hvalue := value.isLt
  rw [← canonicalOctets_length n value old, canonicalOctets]
  split
  next hshort =>
    have hfield := valueField_keepFlags h8 old (Nat.le_of_lt hshort)
    obtain ⟨d, hr, hd, hv⟩ := decRunOn_short (d := freshDecoder n) rfl h8 (hfield.trans_lt hshort) []
    exact ⟨d, hr, hd, BitVec.eq_of_toNat_eq (hv.trans hfield)⟩
  next hlong =>
    have hfield : ((old &&& flagMask n) ||| prefixMask n).toNat % 2 ^ n.toNat = maxp n :=
      valueField_keepFlags h8 old (Nat.le_refl (maxp n))
    obtain ⟨more, last, htail, hmore, hlast, hsum⟩ := canonicalTail_spells (value.toNat - maxp n)
    have hassembled : assembled n (more ++ [last]) = value.toNat := by
      rw [assembled, hsum]; omega
    have hafter := (afterLong_sum (d := freshDecoder n) h8 (more ++ [last])).trans hassembled
    obtain ⟨d, hr, hd, hv⟩ := decLoop_assembles [] 1 rfl hmore hlast
      (hafter.le.trans (by rw [u64Max]; omega))
    refine ⟨d, ?_, hd, BitVec.eq_of_toNat_eq (hv.trans hafter)⟩
    rw [htail, decRunOn_long rfl h8 hfield, hr]
    simp [Nat.add_comm]

theorem exec_encInit_eq {n : Width} {s : State} (value : U64) (h1 : 1 ≤ n.toNat) (h8 : n.toNat ≤ 8)
    (hf : s.encFlight = none) :
    exec (.encInit value n) s =
      .next (finish 0 none .none false { s with enc := freshEncoder value n }) := by
  simp [exec, execEncInit, hf, badWidth_false h1 h8]

/-- A fresh encoder given `ROCT value, n` octets writes the canonical encoding and is Done; the decoder
unit is as free as it was (R74, R44). -/
theorem encRun_writes_canonicalOctets {n : Width} {value : U64} {old : Octet} {off : Nat} {s : State}
    (h1 : 1 ≤ n.toNat) (h8 : n.toNat ≤ 8) (hf : s.encFlight = none)
    (henc : s.enc = freshEncoder value n) (hold : n.toNat < 8 → s.mem.read off = some old) :
    Leads (exec (.encRun off (requiredOctets value n)) s) fun t =>
      t.out.cnt = requiredOctets value n ∧ t.out.err = .none ∧ t.enc.state = .done ∧
      octetsAt t.mem off (requiredOctets value n) = (canonicalOctets n value old).map some ∧
      t.decFlight = s.decFlight := by
  have hlen := canonicalOctets_length n value old
  obtain ⟨t, hrun, hcnt, herr, hdone, hoctets, -⟩ :=
    encoderWritesCanonicalEncoding value n old off _ s h1 h8 hf henc hold hlen.le
  obtain ⟨x, -, rfl⟩ := execEncRun_next hf hrun
  rw [hlen] at hcnt
  rw [hcnt] at hoctets
  exact ⟨_, hrun, hcnt, herr, by simpa using hdone, hoctets, rfl⟩

/-- Settles O51: the encoder writes the canonical encoding (R74), which a fresh decoder takes to Done
with the value. -/
theorem roundTrip : Obligations.RoundTrip := by
  intro n value off s h1 h8 hef hdf hwritten
  obtain ⟨old, hold⟩ : ∃ old, n.toNat < 8 → s.mem.read off = some old := by
    cases hread : s.mem.read off with
    | none => exact ⟨0, fun h => absurd hread (hwritten h)⟩
    | some old => exact ⟨old, fun _ => rfl⟩
  refine ⟨_, exec_encInit_eq value h1 h8 hef, ?_⟩
  obtain ⟨s2, hrun, hcnt, herr, hdone, hoctets, hfree⟩ :=
    encRun_writes_canonicalOctets (s := finish 0 none .none false { s with enc := freshEncoder value n })
      h1 h8 hef rfl hold
  obtain ⟨d, hdec, hd, hv⟩ := decRunOn_canonicalOctets h8 value old
  have hdf2 := hfree.trans hdf
  refine ⟨s2, hrun, hcnt, herr, hdone, canonicalOctets n value old, hoctets,
    _, exec_decInit_eq h1 h8 hdf2, decRun_leads hdf2 hdec ?_⟩
  simp [finishDec_valOut, hd, hv]

end Sys2Proof.Machine
end

/-! Proofs of the family 42_encoder.md: construction and the answers given before any octet is written
(R130, R133 to R135), the micro-steps E.FIRST, E.CONT and E.FINAL (R138 to R140), bit preservation
(R145), resumability and the byte count (R146, R147), and the boundary values (R148). -/

section
namespace Sys2Proof.Machine

/-! ## Construction, and the answers before any octet is written (R130, R133 to R135) -/

theorem exec_encInit_badWidth {n : Width} {s : State} (value : U64)
    (hn : n.toNat < 1 ∨ 8 < n.toNat) (hf : s.encFlight = none) :
    exec (.encInit value n) s =
      .next (raisePrecondition { s with enc := { s.enc with state := .idle } }) := by
  simp [exec, execEncInit, hf, badWidth_true hn]

/-- Settles O37: a legal width constructs, any other leaves the unit Idle. -/
theorem encInitConstructs : Obligations.EncInitConstructs := by
  intro value n s hf
  by_cases hn : 1 ≤ n.toNat ∧ n.toNat ≤ 8
  · refine ⟨_, exec_encInit_eq value hn.1 hn.2 hf, fun _ => ⟨rfl, rfl⟩, fun hbad => by omega, ?_⟩
    exact ⟨rfl, rfl, rfl, rfl, hf, rfl, rfl⟩
  · refine ⟨_, exec_encInit_badWidth value (by omega) hf, fun h => absurd h hn,
      fun _ => ⟨rfl, rfl⟩, ?_⟩
    exact ⟨rfl, rfl, rfl, rfl, hf, rfl, rfl⟩

/-- On a free unit `ENC.RUN` ends as its run on the registers does. -/
theorem exec_encRun_eq {off cap : Nat} {s : State} {x : EncResult} (hf : s.encFlight = none)
    (hx : encRunOn (Config.freeRem s.draws) off cap s.enc s.mem = .ok x) :
    exec (.encRun off cap) s =
      .next (finishEnc x.e x.cnt x.err { s with enc := x.e, mem := x.mem }) :=
  (execEncRun_eq off cap hf).trans (by rw [hx])

/-- A check that ends the operation leaves the registers and the buffer as they are. -/
theorem encRunOn_of_precheck {cap : Nat} {e : Encoder} {err : Err} (r : U64) (off : Nat) (m : Memory)
    (h : encPrecheck cap e = some err) : encRunOn r off cap e m = .ok ⟨e, m, 0, err⟩ := by
  simp [encRunOn, h]

theorem exec_encRun_of_precheck {cap : Nat} {s : State} {err : Err} (off : Nat)
    (hf : s.encFlight = none) (h : encPrecheck cap s.enc = some err) :
    exec (.encRun off cap) s = .next (finishEnc s.enc 0 err s) :=
  exec_encRun_eq hf (encRunOn_of_precheck _ off s.mem h)

/-- Settles O38: each of the three checks, in their order, ends the operation at once. -/
theorem encRunWritesNothingWhen : Obligations.EncRunWritesNothingWhen := by
  intro off cap s hf
  refine ⟨fun hs => ?_, fun hs => ?_, fun hidle hdone => ?_⟩
  · have hp : encPrecheck cap s.enc = some .preconditionViolation := by simp [encPrecheck, hs]
    exact ⟨_, exec_encRun_of_precheck off hf hp, by simp [encDone, hs]⟩
  · have hp : encPrecheck cap s.enc = some .none := by simp [encPrecheck, hs]
    exact ⟨_, exec_encRun_of_precheck off hf hp, by simp [hs]⟩
  · have hp : encPrecheck 0 s.enc = some .needsMore := by simp [encPrecheck, hidle, hdone]
    exact ⟨_, exec_encRun_of_precheck off hf hp, by simp [encDone, hdone]⟩

/-! ## The flag bits of octet 0 (R94, R138) -/

theorem getLsbD_prefixMask (n : Width) {k : Nat} (hk : k < 8) :
    (prefixMask n).getLsbD k = decide (k < n.toNat) := by
  rw [prefixMask, maxp, BitVec.getLsbD_ofNat, Nat.testBit_two_pow_sub_one, decide_eq_true hk,
    Bool.true_and]

/-- Octet 0 as E.FIRST writes it: a value field from below bit `N`, the old bits from there up. -/
theorem getLsbD_keepFlags {n : Width} (old : Octet) {p k : Nat} (hp : p ≤ maxp n) (hk : k < 8) :
    ((old &&& flagMask n) ||| BitVec.ofNat 8 p).getLsbD k =
      if k < n.toNat then p.testBit k else old.getLsbD k := by
  simp only [flagMask, BitVec.getLsbD_or, BitVec.getLsbD_and, BitVec.getLsbD_not,
    getLsbD_prefixMask n hk, BitVec.getLsbD_ofNat, hk]
  split
  next h => simp [h]
  next h =>
    have hpos := Nat.two_pow_pos n.toNat
    have hlt : p < 2 ^ n.toNat := by rw [maxp] at hp; omega
    have hbit : p.testBit k = false :=
      Nat.testBit_lt_two_pow (hlt.trans_le (Nat.pow_le_pow_right (by omega) (by omega)))
    simp [h, hbit]

/-- The same octet in arithmetic (R138). -/
theorem keepFlags_eq {n : Width} (old : Octet) {p : Nat} (hp : p ≤ maxp n) :
    (old &&& flagMask n) ||| BitVec.ofNat 8 p =
      BitVec.ofNat 8 (old.toNat / 2 ^ n.toNat * 2 ^ n.toNat + p) := by
  have hpos := Nat.two_pow_pos n.toNat
  have hlt : p < 2 ^ n.toNat := by rw [maxp] at hp; omega
  apply BitVec.eq_of_getLsbD_eq
  intro k hk
  rw [getLsbD_keepFlags old hp hk, BitVec.getLsbD_ofNat, Nat.mul_comm,
    Nat.testBit_two_pow_mul_add _ hlt]
  split
  next h => simp [hk]
  next h => simp [hk, Nat.testBit_div_two_pow, BitVec.getLsbD, Nat.sub_add_cancel (Nat.le_of_not_lt h)]

/-- The written octet has the old one's flag bits (R145). -/
theorem flagBits_keepFlags {n : Width} (old : Octet) {p : Nat} (hp : p ≤ maxp n) :
    ((old &&& flagMask n) ||| BitVec.ofNat 8 p) &&& flagMask n = old &&& flagMask n := by
  apply BitVec.eq_of_getLsbD_eq
  intro k hk
  rw [BitVec.getLsbD_and, getLsbD_keepFlags old hp hk, BitVec.getLsbD_and, flagMask,
    BitVec.getLsbD_not, getLsbD_prefixMask n hk]
  split <;> simp [*]

/-! ## The micro-steps (R138 to R140) -/

section
variable {r : U64} {a : Nat} {e : Encoder} {m : Memory} {o old : Octet}

/-- E.FIRST on a value that fits the value field, whatever the octet read, if its flag bits are those
of `old` (R138). -/
theorem eFirstOn_short (ho : oldFirstOctet e.N m a = some o)
    (hflags : o &&& flagMask e.N = old &&& flagMask e.N) (h : e.rem.toNat < maxp e.N) :
    eFirstOn r a e m = .ok ⟨eDone r e,
      m.write a ((old &&& flagMask e.N) ||| BitVec.ofNat 8 e.rem.toNat)⟩ := by
  simp [eFirstOn, ho, h, hflags]

/-- E.FIRST on a value from the sentinel on (R138). -/
theorem eFirstOn_long (ho : oldFirstOctet e.N m a = some o)
    (hflags : o &&& flagMask e.N = old &&& flagMask e.N) (h : maxp e.N ≤ e.rem.toNat) :
    eFirstOn r a e m = .ok ⟨longEncoder e.rem e.N,
      m.write a ((old &&& flagMask e.N) ||| prefixMask e.N)⟩ := by
  simp [eFirstOn, ho, hflags, longEncoder, Nat.not_lt.2 h]

/-- Nothing wraps in the subtraction of E.FIRST (R142). -/
theorem longEncoder_rem (value : U64) (n : Width) :
    (longEncoder value n).rem.toNat = value.toNat - maxp n :=
  Nat.mod_eq_of_lt ((Nat.sub_le ..).trans_lt value.isLt)

/-- Nor in the division of E.CONT (R142). -/
theorem eMoreOn_rem (a : Nat) (e : Encoder) (m : Memory) :
    (eMoreOn a e m).e.rem.toNat = e.rem.toNat / 128 :=
  Nat.mod_eq_of_lt ((Nat.div_le_self ..).trans_lt e.rem.isLt)

end

section
variable {s : State} {f : EncFlight} {x : EncStep}

theorem exec_eFirst_eq (hf : s.encFlight = some f) (hs : s.enc.state = .first)
    (hroom : f.cursor < f.cap)
    (hx : eFirstOn (Config.freeRem s.draws) (f.off + f.cursor) s.enc s.mem = .ok x) :
    exec .eFirst s = .next (afterOctet x f s) := by
  simp [exec, execEFirst, hf, hs, hroom, hx]

theorem exec_eCont_more (hf : s.encFlight = some f) (hs : s.enc.state = .continuation)
    (hrem : 128 ≤ s.enc.rem.toNat) (hroom : f.cursor < f.cap) :
    exec .eCont s = .next (afterOctet (eMoreOn (f.off + f.cursor) s.enc s.mem) f s) := by
  simp [exec, execECont, hf, hs, hroom, Nat.not_lt.2 hrem]

theorem exec_eCont_noRoom (hf : s.encFlight = some f) (hs : s.enc.state = .continuation)
    (hrem : 128 ≤ s.enc.rem.toNat) (hroom : f.cap ≤ f.cursor) :
    exec .eCont s = .next (retireEnc f.cursor .needsMore s) := by
  simp [exec, execECont, hf, hs, Nat.not_lt.2 hroom, Nat.not_lt.2 hrem]

theorem exec_eCont_settles (hf : s.encFlight = some f) (hs : s.enc.state = .continuation)
    (hrem : s.enc.rem.toNat < 128) :
    exec .eCont s = .next { s with enc := { s.enc with state := .final } } := by
  simp [exec, execECont, eSettle, hf, hs, hrem]

theorem exec_eFinal_eq (hf : s.encFlight = some f) (hs : s.enc.state = .final)
    (hroom : f.cursor < f.cap) :
    exec .eFinal s = .next (afterOctet
      (eFinalOn (Config.freeRem s.draws) (f.off + f.cursor) s.enc s.mem) f s) := by
  simp [exec, execEFinal, hf, hs, hroom]

theorem exec_eFinal_noRoom (hf : s.encFlight = some f) (hs : s.enc.state = .final)
    (hroom : f.cap ≤ f.cursor) :
    exec .eFinal s = .next (retireEnc f.cursor .needsMore s) := by
  simp [exec, execEFinal, hf, hs, Nat.not_lt.2 hroom]

end

/-- Settles O39: the octet E.FIRST finds has the flag bits of `old`; then its two branches. -/
theorem eFirstWritesFirstOctet : Obligations.EFirstWritesFirstOctet := by
  intro s f old hf hroom hs _ h8 hold
  obtain ⟨o, ho, hflags⟩ := oldFirstOctet_flags h8 hold
  rw [← maxp]
  by_cases h : s.enc.rem.toNat < maxp s.enc.N
  · refine ⟨_, exec_eFirst_eq hf hs hroom (eFirstOn_short ho hflags h), fun _ => ⟨rfl, ?_⟩,
      fun hlong => by omega, rfl, rfl, rfl, rfl, rfl⟩
    rw [afterOctet_mem, keepFlags_eq old h.le]
  · refine ⟨_, exec_eFirst_eq hf hs hroom (eFirstOn_long ho hflags (by omega)),
      fun hshort => by omega, fun _ => ⟨rfl, longEncoder_rem .., ?_⟩, rfl, rfl, rfl, rfl, rfl⟩
    rw [afterOctet_mem, prefixMask, keepFlags_eq old le_rfl]

/-- Settles O40: one equation a branch. -/
theorem eContWritesDividesOrSettles : Obligations.EContWritesDividesOrSettles := by
  intro s f hf hs
  refine ⟨fun hrem hroom => ⟨_, exec_eCont_more hf hs hrem hroom, ?_⟩,
    fun hrem hroom => ⟨_, exec_eCont_noRoom hf hs hrem hroom, ?_⟩, exec_eCont_settles hf hs⟩
  · exact ⟨rfl, eMoreOn_rem (f.off + f.cursor) s.enc s.mem, hs, rfl, rfl, rfl, rfl, rfl⟩
  · simp [encDone, hs]

/-- Settles O41: one equation a branch. -/
theorem eFinalWritesLastOctet : Obligations.EFinalWritesLastOctet := by
  intro s f hf hs
  refine ⟨fun hroom => ⟨_, exec_eFinal_eq hf hs hroom, rfl, rfl, rfl, rfl, rfl, rfl, rfl⟩,
    fun hroom => ⟨_, exec_eFinal_noRoom hf hs hroom, ?_⟩⟩
  simp [encDone, hs]

/-! ## The boundary values (R148) -/

/-- Settles O47: the canonical encodings of the two values, one octet and two. -/
theorem boundaryValues : Obligations.BoundaryValues := by
  intro n old off cap s h1 h8 hf hold hcap
  have hmaxp := maxp_le h8
  have hpos : 1 ≤ maxp n := by
    have := Nat.pow_le_pow_right (n := 2) (by omega) h1
    rw [maxp]; omega
  refine ⟨fun henc => ?_, fun henc => ?_⟩
  · have hvalue : (BitVec.ofNat 64 (maxp n - 1)).toNat = maxp n - 1 := Nat.mod_eq_of_lt (by omega)
    have hoctets : canonicalOctets n (BitVec.ofNat 64 (maxp n - 1)) old =
        [(old &&& flagMask n) ||| BitVec.ofNat 8 (maxp n - 1)] := by
      rw [canonicalOctets, hvalue, if_pos (by omega)]
    obtain ⟨t, hrun, hcnt, -, hdone, hat, -⟩ := encoderWritesCanonicalEncoding _ n old off cap s h1 h8
      hf henc (fun _ => hold) (by rw [hoctets, List.length_singleton]; omega)
    rw [hoctets, List.length_singleton] at hcnt
    rw [hoctets, hcnt, octetsAt_succ] at hat
    exact ⟨t, hrun, hcnt, hdone, _, (List.cons.inj hat).1, valueField_keepFlags h8 old (by omega),
      flagBits_keepFlags old (by omega)⟩
  · have hvalue : (BitVec.ofNat 64 (maxp n)).toNat = maxp n := Nat.mod_eq_of_lt (by omega)
    have hoctets : canonicalOctets n (BitVec.ofNat 64 (maxp n)) old =
        [(old &&& flagMask n) ||| prefixMask n, 0x00#8] := by
      rw [canonicalOctets, hvalue, if_neg (by omega), Nat.sub_self, canonicalTail_lt (by omega)]
    obtain ⟨t, hrun, hcnt, -, hdone, hat, -⟩ := encoderWritesCanonicalEncoding _ n old off cap s h1 h8
      hf henc (fun _ => hold) (by rw [hoctets]; exact hcap)
    rw [hoctets] at hcnt hat
    rw [hcnt] at hat
    obtain ⟨hfirst, hsecond⟩ : t.mem.read off = _ ∧ t.mem.read (off + 1) = some 0x00#8 := by
      simpa [octetsAt, List.range_succ] using hat
    exact ⟨t, hrun, hcnt, hdone, hsecond, _, hfirst, valueField_keepFlags h8 old le_rfl,
      flagBits_keepFlags old le_rfl⟩

/-! ## What a run of the encoder writes (R136, R145) -/

/-- The octets `bs` written from address `a` on, in ascending order. -/
def Memory.writeAll (m : Memory) (a : Nat) : List Octet → Memory
  | [] => m
  | b :: bs => Memory.writeAll (m.write a b) (a + 1) bs

theorem Memory.writeAll_append (m : Memory) (a : Nat) (bs cs : List Octet) :
    m.writeAll a (bs ++ cs) = (m.writeAll a bs).writeAll (a + bs.length) cs := by
  induction bs generalizing m a with
  | nil => rfl
  | cons b bs ih =>
    rw [List.cons_append, writeAll, writeAll, ih, List.length_cons, Nat.add_right_comm, Nat.add_assoc]

theorem Memory.read_writeAll_of_lt (m : Memory) {a c : Nat} (bs : List Octet) (h : c < a) :
    Memory.read (m.writeAll a bs) c = m.read c := by
  induction bs generalizing m a with
  | nil => rfl
  | cons b bs ih => rw [writeAll, ih _ (by omega), read_write, if_neg (by omega)]

/-- What is read of the written octets does not depend on what stood there. -/
theorem Memory.read_writeAll (m : Memory) (a : Nat) {bs : List Octet} {j : Nat} (h : j < bs.length) :
    Memory.read (m.writeAll a bs) (a + j) = bs[j]? := by
  induction bs generalizing m a j with
  | nil => simp at h
  | cons b bs ih =>
    cases j with
    | zero =>
      rw [writeAll, read_writeAll_of_lt _ _ (by omega), read_write, if_pos (Nat.add_zero a),
        List.getElem?_cons_zero]
    | succ j =>
      rw [writeAll, Nat.add_comm j, ← Nat.add_assoc, ih _ _ (by simpa using h), Nat.add_comm 1,
        List.getElem?_cons_succ]

/-- The octets an encoder has still to write; in First it keeps the flag bits of `old` (R74, R79). -/
def octetsLeft (old : Octet) (e : Encoder) : List Octet :=
  match e.state with
  | .first => canonicalOctets e.N e.rem old
  | .continuation => canonicalTail e.rem.toNat
  | .final => [BitVec.ofNat 8 (e.rem.toNat % 128)]
  | .idle => []
  | .done => []

/-- The octet E.FIRST finds at `a`, if the encoder is in First, has the flag bits of `old`. -/
def FindsFlagsOf (old : Octet) (e : Encoder) (m : Memory) (a : Nat) : Prop :=
  e.state = .first → ∃ o, oldFirstOctet e.N m a = some o ∧ o &&& flagMask e.N = old &&& flagMask e.N

section
variable {old : Octet} {e : Encoder} {m : Memory} {a : Nat} {r : U64}

theorem octetsLeft_first (hs : e.state = .first) :
    octetsLeft old e = canonicalOctets e.N e.rem old := by
  simp [octetsLeft, hs]

theorem octetsLeft_continuation (hs : e.state = .continuation) :
    octetsLeft old e = canonicalTail e.rem.toNat := by
  simp [octetsLeft, hs]

/-- A constructed encoder is Done exactly when nothing is left to write. -/
theorem octetsLeft_eq_nil_iff (hi : e.state ≠ .idle) : octetsLeft old e = [] ↔ e.state = .done := by
  have hfirst : canonicalOctets e.N e.rem old ≠ [] :=
    List.length_pos_iff.1 (canonicalOctets_length_pos ..)
  have htail : canonicalTail e.rem.toNat ≠ [] := by simp [canonicalTail]
  rw [octetsLeft]
  split <;> simp_all

/-- The move to Final changes nothing of what is left to write (R139). -/
theorem octetsLeft_eSettle : octetsLeft old (eSettle e) = octetsLeft old e := by
  rcases eSettle_cases e with ⟨hs, hrem, he⟩ | ⟨-, he⟩ <;> rw [he]
  simp [octetsLeft, hs, canonicalTail_lt hrem, Nat.mod_eq_of_lt hrem]

theorem eSettle_ne_idle (hi : e.state ≠ .idle) : (eSettle e).state ≠ .idle := by
  rcases eSettle_cases e with ⟨-, -, he⟩ | ⟨-, he⟩ <;> simp [he, hi]

theorem findsFlagsOf_eSettle (h : FindsFlagsOf old e m a) : FindsFlagsOf old (eSettle e) m a := by
  rcases eSettle_cases e with ⟨-, -, he⟩ | ⟨-, he⟩ <;> rw [he]
  · simp [FindsFlagsOf]
  · exact h

/-- A pass that writes an octet writes the first of those left, and leaves the others
(R138 to R140). -/
theorem eOctetOn_writes_octetsLeft (hi : e.state ≠ .idle) (hd : e.state ≠ .done)
    (hflags : FindsFlagsOf old e m a) :
    ∃ e' b, eOctetOn r a (eSettle e) m = .ok ⟨e', m.write a b⟩ ∧ e'.state ≠ .idle ∧
      e'.state ≠ .first ∧ octetsLeft old e = b :: octetsLeft old e' := by
  match hs : e.state with
  | .first =>
    obtain ⟨o, ho, hkeep⟩ := hflags hs
    have hstep : eOctetOn r a (eSettle e) m = eFirstOn r a e m := by simp [eSettle, eOctetOn, hs]
    rw [hstep]
    by_cases h : e.rem.toNat < maxp e.N
    · refine ⟨_, _, eFirstOn_short ho hkeep h, by simp, by simp, ?_⟩
      rw [octetsLeft_first hs, canonicalOctets, if_pos h]
      rfl
    · refine ⟨_, _, eFirstOn_long ho hkeep (by omega), by simp [longEncoder],
        by simp [longEncoder], ?_⟩
      rw [octetsLeft_first hs, canonicalOctets, if_neg h,
        octetsLeft_continuation (e := longEncoder e.rem e.N) rfl, longEncoder_rem]
  | .continuation =>
    by_cases h : e.rem.toNat < 128
    · exact ⟨eDone r { e with state := .final }, BitVec.ofNat 8 (e.rem.toNat % 128),
        by simp [eSettle, eOctetOn, eFinalOn, hs, h], by simp, by simp,
        by simp [octetsLeft, hs, canonicalTail_lt h, Nat.mod_eq_of_lt h]⟩
    · refine ⟨(eMoreOn a e m).e, BitVec.ofNat 8 (e.rem.toNat % 128 + 128),
        by simp [eSettle, eOctetOn, eMoreOn, hs, h], by simp [eMoreOn, hs], by simp [eMoreOn, hs], ?_⟩
      rw [octetsLeft_continuation hs, canonicalTail_ge (by omega), ← eMoreOn_rem a e m,
        octetsLeft_continuation (e := (eMoreOn a e m).e) hs]
  | .final =>
    exact ⟨eDone r e, BitVec.ofNat 8 (e.rem.toNat % 128), by simp [eSettle, eOctetOn, eFinalOn, hs],
      by simp, by simp, by simp [octetsLeft, hs]⟩
  | .idle => exact absurd hs hi
  | .done => exact absurd hs hd

end

/-- What a run over `cap` octets at `a` leaves: of the octets left to write the first `cap` are in the
buffer, the others are still left (R136, R141). -/
structure EncRunSpells (old : Octet) (cap a w : Nat) (e : Encoder) (m : Memory) (x : EncResult) :
    Prop where
  instanceKept : x.e.state ≠ .idle
  mem : x.mem = m.writeAll a ((octetsLeft old e).take cap)
  cnt : x.cnt = w + ((octetsLeft old e).take cap).length
  left : octetsLeft old x.e = (octetsLeft old e).drop cap
  flags : FindsFlagsOf old x.e x.mem (a + ((octetsLeft old e).take cap).length)
  more : x.e.state ≠ .done → x.err = .needsMore

section
variable {old : Octet} {e : Encoder} {m : Memory} {a w cap : Nat} {r : U64}

/-- A Done encoder has nothing to write, whatever the capacity (R134). -/
theorem encRunSpells_of_done (hd : e.state = .done) :
    EncRunSpells old cap a w e m ⟨e, m, w, .none⟩ := by
  have hnil : octetsLeft old e = [] := (octetsLeft_eq_nil_iff (by simp [hd])).2 hd
  constructor <;> simp [hnil, hd, Memory.writeAll, FindsFlagsOf]

/-- With no capacity nothing is written, and the same is left, be it in Final (R135, R139). -/
theorem encRunSpells_of_noRoom {e' : Encoder} (hi : e'.state ≠ .idle)
    (hflags : FindsFlagsOf old e' m a) (hleft : octetsLeft old e' = octetsLeft old e) :
    EncRunSpells old 0 a w e m ⟨e', m, w, .needsMore⟩ := by
  constructor <;> simp [hi, hleft, hflags, Memory.writeAll]

/-- The loop writes what is left, in order, as far as the capacity goes (R136). -/
theorem encLoop_spells (hi : e.state ≠ .idle) (hflags : FindsFlagsOf old e m a) :
    ∃ x, encLoop r cap a w e m = .ok x ∧ EncRunSpells old cap a w e m x := by
  induction cap generalizing a w e m with
  | zero =>
    by_cases hd : e.state = .done
    · exact ⟨_, encLoop_of_done r 0 a w m hd, encRunSpells_of_done hd⟩
    · exact ⟨_, by rw [encLoop, if_neg hd], encRunSpells_of_noRoom (eSettle_ne_idle hi)
        (findsFlagsOf_eSettle hflags) octetsLeft_eSettle⟩
  | succ cap ih =>
    by_cases hd : e.state = .done
    · exact ⟨_, encLoop_of_done r _ a w m hd, encRunSpells_of_done hd⟩
    · obtain ⟨e', b, hstep, hi', hf', hleft⟩ := eOctetOn_writes_octetsLeft (r := r) hi hd hflags
      obtain ⟨x, hx, hrun⟩ :=
        ih (a := a + 1) (w := w + 1) (m := m.write a b) hi' (fun hs => absurd hs hf')
      refine ⟨x, by simp only [encLoop, if_neg hd, hstep, hx], ?_⟩
      obtain ⟨hkept, hmem, hcnt, hrest, hfind, hmore⟩ := hrun
      have hlen : ((b :: octetsLeft old e').take (cap + 1)).length =
          ((octetsLeft old e').take cap).length + 1 := rfl
      refine ⟨hkept, ?_, ?_, ?_, ?_, hmore⟩ <;> rw [hleft]
      · exact hmem
      · rw [hcnt, hlen]; omega
      · exact hrest
      · rwa [hlen, Nat.add_comm _ 1, ← Nat.add_assoc]

/-- A run of a constructed encoder writes what is left; it does not fault where E.FIRST finds its octet
(R136). -/
theorem encRunOn_spells (hi : e.state ≠ .idle) (hflags : FindsFlagsOf old e m a) :
    ∃ x, encRunOn r a cap e m = .ok x ∧ EncRunSpells old cap a 0 e m x := by
  rcases encRunOn_cases r a cap e m with ⟨err, hp, hx⟩ | ⟨-, hx⟩
  · refine ⟨_, hx, ?_⟩
    rcases encPrecheck_some hp with ⟨hidle, -⟩ | ⟨hd, rfl⟩ | ⟨-, -, rfl, rfl⟩
    · exact absurd hidle hi
    · exact encRunSpells_of_done hd
    · exact encRunSpells_of_noRoom hi hflags rfl
  · rw [hx]
    exact encLoop_spells hi hflags

/-- The run ends Done exactly when the capacity is enough for what was left. -/
theorem EncRunSpells.done_iff {x : EncResult} (h : EncRunSpells old cap a w e m x) :
    x.e.state = .done ↔ (octetsLeft old e).length ≤ cap := by
  rw [← octetsLeft_eq_nil_iff (old := old) h.instanceKept, h.left, List.drop_eq_nil_iff]

end

/-! ## Resumability and the byte count (R146, R147) -/

/-- What R146 says of the result of call `j`, if `k` octets are to be written. -/
def AnswersCall (k : Nat) (caps : List Nat) (j : Nat) (r : Results) : Prop :=
  (k ≤ (caps.take (j + 1)).sum → r.err = .none ∧ r.done = true) ∧
  ((caps.take (j + 1)).sum < k → r.err = .needsMore ∧ r.done = false) ∧
  (k ≤ (caps.take j).sum → r.cnt = 0)

/-- The first call takes its capacity off what is left for the later ones. -/
theorem answersCall_cons {k c j : Nat} {cs : List Nat} {r : Results} (h : AnswersCall (k - c) cs j r) :
    AnswersCall k (c :: cs) (j + 1) r := by
  obtain ⟨hdone, hmore, hnothing⟩ := h
  refine ⟨fun hk => hdone ?_, fun hk => hmore ?_, fun hk => hnothing ?_⟩ <;>
    rw [List.take_succ_cons, List.sum_cons] at hk <;> omega

/-- A call answers as the first of its list: it is Done exactly when its capacity was enough. -/
theorem answersCall_of_spells {old : Octet} {c off : Nat} {cs : List Nat} {s : State} {x : EncResult}
    (hx : encRunOn (Config.freeRem s.draws) off c s.enc s.mem = .ok x)
    (hrun : EncRunSpells old c off 0 s.enc s.mem x) (s' : State) :
    AnswersCall (octetsLeft old s.enc).length (c :: cs) 0 (finishEnc x.e x.cnt x.err s').out := by
  have hsum : ((c :: cs).take (0 + 1)).sum = c := by simp
  rw [AnswersCall, hsum, finishEnc_err, finishEnc_done, finishEnc_cnt]
  refine ⟨fun hk => ?_, fun hk => ?_, fun hk => ?_⟩
  · have hd := hrun.done_iff.2 hk
    exact ⟨(encRunOn_done_iff_none hx).1 hd, (encDone_iff _).2 hd⟩
  · have hd := mt hrun.done_iff.1 (Nat.not_le.2 hk)
    exact ⟨hrun.more hd, by simpa [encDone] using hd⟩
  · have hnil : octetsLeft old s.enc = [] := List.length_eq_zero_iff.1 (Nat.le_zero.1 hk)
    rw [hrun.cnt, hnil]
    simp

theorem encRuns_cons_eq {c off : Nat} {cs : List Nat} {s t u : State} {rs : List Results}
    (hexec : exec (.encRun off c) s = .next t)
    (hruns : encRuns cs (off + t.out.cnt) t = some (rs, u)) :
    encRuns (c :: cs) off s = some (t.out :: rs, u) := by
  simp only [encRuns, hexec, hruns]

/-- The calls together write what one call with all their capacity writes; each takes up where the one
before it ended (R66). -/
theorem encRuns_spells {old : Octet} (caps : List Nat) {off : Nat} {s : State}
    (hf : s.encFlight = none) (hi : s.enc.state ≠ .idle) (hflags : FindsFlagsOf old s.enc s.mem off) :
    ∃ rs t, encRuns caps off s = some (rs, t) ∧
      t.mem = s.mem.writeAll off ((octetsLeft old s.enc).take caps.sum) ∧
      (rs.map (fun r => r.cnt)).sum = ((octetsLeft old s.enc).take caps.sum).length ∧
      rs.length = caps.length ∧
      ∀ (j : Nat) (r : Results), rs[j]? = some r →
        AnswersCall (octetsLeft old s.enc).length caps j r := by
  induction caps generalizing off s with
  | nil => exact ⟨[], s, rfl, by simp [Memory.writeAll], by simp, rfl, by simp⟩
  | cons c cs ih =>
    obtain ⟨x, hx, hrun⟩ := encRunOn_spells (r := Config.freeRem s.draws) (cap := c) hi hflags
    have hanswer := answersCall_of_spells (cs := cs) hx hrun { s with enc := x.e, mem := x.mem }
    have hexec := exec_encRun_eq hf hx
    obtain ⟨hkept, hmem, hcnt, hleft, hfind, -⟩ := hrun
    rw [Nat.zero_add] at hcnt
    rw [← hcnt] at hfind
    obtain ⟨rs, t, hruns, htmem, hsum, hlen, hanswers⟩ :=
      ih (s := finishEnc x.e x.cnt x.err { s with enc := x.e, mem := x.mem }) hf hkept hfind
    simp only [finishEnc_mem, finishEnc_enc, hleft] at htmem hsum hanswers
    refine ⟨_, t, encRuns_cons_eq hexec hruns, ?_, ?_, by simp [hlen], ?_⟩
    · rw [htmem, hmem, hcnt, ← Memory.writeAll_append, ← List.take_add, List.sum_cons]
    · rw [List.map_cons, List.sum_cons, hsum, finishEnc_cnt, hcnt, ← List.length_append,
        ← List.take_add, List.sum_cons]
    · intro j r hr
      cases j with
      | zero => cases hr; exact hanswer
      | succ j => exact answersCall_cons (by simpa using hanswers j r hr)

/-- A run that did not fault found its first octet (R208). -/
theorem findsFlagsOf_of_encRunOn {r : U64} {off cap : Nat} {e : Encoder} {m : Memory} {x : EncResult}
    (hcap : 0 < cap) (hx : encRunOn r off cap e m = .ok x) : ∃ old, FindsFlagsOf old e m off := by
  cases ho : oldFirstOctet e.N m off with
  | some old => exact ⟨old, fun _ => ⟨old, ho, rfl⟩⟩
  | none =>
    refine ⟨0, fun hs => ?_⟩
    obtain ⟨hN, hread⟩ := oldFirstOctet_none.1 ho
    have hloop : encRunOn r off cap e m = encLoop r cap off 0 e m := by
      simp [encRunOn, encPrecheck, hs, hcap.ne']
    rw [hloop, (encLoop_error (by simp [hs])).2 ⟨rfl, hs, hN, hcap, hread⟩] at hx
    cases hx

/-- Settles O48: the pieces and the whole call both write the canonical octets, from the same address. -/
theorem encoderIsResumable : Obligations.EncoderIsResumable := by
  intro value n off caps s whole _ h8 hf henc hsum hwhole
  have hi : s.enc.state ≠ .idle := by simp [henc, freshEncoder]
  obtain ⟨x, hx, rfl⟩ := execEncRun_next hf hwhole
  have hpos : 0 < requiredOctets value n := by
    rw [← canonicalOctets_length n value 0]; exact canonicalOctets_length_pos ..
  obtain ⟨old, hflags⟩ := findsFlagsOf_of_encRunOn hpos hx
  have hlen : (octetsLeft old s.enc).length = requiredOctets value n := by
    rw [henc]; exact canonicalOctets_length n value old
  obtain ⟨y, hy, hrun⟩ := encRunOn_spells (r := Config.freeRem s.draws)
    (cap := requiredOctets value n) hi hflags
  cases hy.symm.trans hx
  have hdone := hrun.done_iff.2 hlen.le
  have hall : (octetsLeft old s.enc).take caps.sum = octetsLeft old s.enc :=
    List.take_of_length_le (by omega)
  obtain ⟨rs, t, hruns, hmem, hcnt, hcalls, hanswers⟩ := encRuns_spells caps hf hi hflags
  rw [hall] at hmem hcnt
  rw [hlen] at hanswers
  refine ⟨rs, t, hruns, fun a => ?_, hcnt.trans hlen, ?_, (encRunOn_done_iff_none hx).1 hdone, hcalls,
    hanswers⟩
  · rw [hmem, finishEnc_mem, hrun.mem, List.take_of_length_le hlen.le]
  · rw [finishEnc_cnt, hrun.cnt, List.take_of_length_le hlen.le, hlen, Nat.zero_add]

/-! ## Bit preservation (R145) -/

/-- The registers after a pass do not depend on the buffer. -/
theorem eOctetOn_regs {r : U64} {a : Nat} {e : Encoder} {m m' : Memory} {x y : EncStep}
    (hx : eOctetOn r a e m = .ok x) (hy : eOctetOn r a e m' = .ok y) : y.e = x.e := by
  match hs : e.state with
  | .first =>
    simp only [eOctetOn, hs] at hx hy
    obtain ⟨-, -, ⟨h, rfl⟩ | ⟨h, rfl⟩⟩ := eFirstOn_ok hx <;>
      obtain ⟨-, -, ⟨h', rfl⟩ | ⟨h', rfl⟩⟩ := eFirstOn_ok hy
    · rfl
    · omega
    · omega
    · rfl
  | .continuation | .final | .idle | .done =>
    simp only [eOctetOn, hs] at hx hy
    cases hx; cases hy; rfl

/-- Nor do the registers, the count and the condition a loop ends with. -/
theorem encLoop_regs {r : U64} {room a w : Nat} {e : Encoder} {m m' : Memory} {x y : EncResult}
    (hx : encLoop r room a w e m = .ok x) (hy : encLoop r room a w e m' = .ok y) :
    y.e = x.e ∧ y.cnt = x.cnt ∧ y.err = x.err := by
  induction room generalizing a w e m m' with
  | zero =>
    rw [encLoop] at hx hy
    split at hx
    next hd => rw [if_pos hd] at hy; cases hx; cases hy; exact ⟨rfl, rfl, rfl⟩
    next hd => rw [if_neg hd] at hy; cases hx; cases hy; exact ⟨rfl, rfl, rfl⟩
  | succ room ih =>
    rw [encLoop] at hx hy
    split at hx
    next hd => rw [if_pos hd] at hy; cases hx; cases hy; exact ⟨rfl, rfl, rfl⟩
    next hd =>
      rw [if_neg hd] at hy
      split at hx
      · cases hx
      next p hp =>
        split at hy
        · cases hy
        next q hq =>
          rw [eOctetOn_regs hp hq] at hy
          exact ih hx hy

theorem encRunOn_regs {r : U64} {off cap : Nat} {e : Encoder} {m m' : Memory} {x y : EncResult}
    (hx : encRunOn r off cap e m = .ok x) (hy : encRunOn r off cap e m' = .ok y) :
    y.e = x.e ∧ y.cnt = x.cnt ∧ y.err = x.err := by
  simp only [encRunOn] at hx hy
  cases hp : encPrecheck cap e with
  | some err => simp only [hp] at hx hy; cases hx; cases hy; exact ⟨rfl, rfl, rfl⟩
  | none => simp only [hp] at hx hy; exact encLoop_regs hx hy

theorem oldFirstOctet_flags_agree {n : Width} {m m' : Memory} {a : Nat} {o o' : Octet}
    (hagree : ∀ x ∈ m.read a, ∀ y ∈ m'.read a, x &&& flagMask n = y &&& flagMask n)
    (ho : oldFirstOctet n m a = some o) (ho' : oldFirstOctet n m' a = some o') :
    o &&& flagMask n = o' &&& flagMask n := by
  rw [oldFirstOctet] at ho ho'
  split at ho
  next h => rw [if_pos h] at ho'; exact hagree o ho o' ho'
  next h => rw [if_neg h] at ho'; cases ho; cases ho'; rfl

/-- Two buffers whose first octets agree in the flag bits get the same octets. -/
theorem encRunOn_octets_agree {r : U64} {off cap j : Nat} {e : Encoder} {m m' : Memory}
    {x y : EncResult}
    (hagree : e.state = .first → ∀ b ∈ m.read off, ∀ b' ∈ m'.read off,
      b &&& flagMask e.N = b' &&& flagMask e.N)
    (hx : encRunOn r off cap e m = .ok x) (hy : encRunOn r off cap e m' = .ok y) (hj : j < x.cnt) :
    y.mem.read (off + j) = x.mem.read (off + j) := by
  rcases encRunOn_cases r off cap e m with ⟨err, -, hrun⟩ | ⟨hp, -⟩
  · cases hrun.symm.trans hx
    cases hj
  · obtain ⟨hi, -, hcap⟩ := encPrecheck_none hp
    obtain ⟨old, hfind⟩ := findsFlagsOf_of_encRunOn hcap hx
    have hfind' : FindsFlagsOf old e m' off := by
      intro hs
      obtain ⟨o, ho, hkeep⟩ := hfind hs
      obtain ⟨old', hother⟩ := findsFlagsOf_of_encRunOn hcap hy
      obtain ⟨o', ho', -⟩ := hother hs
      exact ⟨o', ho', (oldFirstOctet_flags_agree (hagree hs) ho ho').symm.trans hkeep⟩
    obtain ⟨x', hx', hspells⟩ := encRunOn_spells (r := r) (cap := cap) hi hfind
    obtain ⟨y', hy', hspells'⟩ := encRunOn_spells (r := r) (cap := cap) hi hfind'
    cases hx'.symm.trans hx
    cases hy'.symm.trans hy
    rw [hspells.cnt, Nat.zero_add] at hj
    rw [hspells.mem, hspells'.mem, Memory.read_writeAll _ _ hj, Memory.read_writeAll _ _ hj]

theorem encFlight_none_of_encRun {off cap : Nat} {s t : State}
    (h : exec (.encRun off cap) s = .next t) : s.encFlight = none := by
  cases hf : s.encFlight with
  | none => rfl
  | some f => simp [exec, execEncRun, hf] at h

/-- The micro-step E.FIRST leaves what `eFirstOn` does (R138). -/
theorem exec_eFirst_next {s t : State} {f : EncFlight} (hf : s.encFlight = some f)
    (h : exec .eFirst s = .next t) :
    ∃ x, eFirstOn (Config.freeRem s.draws) (f.off + f.cursor) s.enc s.mem = .ok x ∧
      t = afterOctet x f s := by
  simp only [exec, execEFirst, hf] at h
  split at h
  · split at h
    · cases h
    next x hx => cases h; exact ⟨x, hx, rfl⟩
  · cases h

/-- In both branches E.FIRST writes a value field under the old flag bits (R138). -/
theorem eFirstOn_keepsFlags {r : U64} {a : Nat} {e : Encoder} {m : Memory} {x : EncStep}
    (h : eFirstOn r a e m = .ok x) :
    ∃ old p, oldFirstOctet e.N m a = some old ∧ p ≤ maxp e.N ∧
      x.mem = m.write a ((old &&& flagMask e.N) ||| BitVec.ofNat 8 p) := by
  obtain ⟨old, ho, ⟨hshort, rfl⟩ | ⟨-, rfl⟩⟩ := eFirstOn_ok h
  · exact ⟨old, _, ho, hshort.le, by simp⟩
  · exact ⟨old, _, ho, le_rfl, rfl⟩

/-- Settles O45: E.FIRST writes a value field under the old flag bits, and two runs that agree in those
write the same octets. -/
theorem flagBitsArePreserved : Obligations.FlagBitsArePreserved := by
  refine ⟨fun s t f old k hf _ hNk hk hread h => ?_, fun s t u m off cap hagree ht hu => ?_⟩
  · obtain ⟨x, hx, rfl⟩ := exec_eFirst_next hf h
    obtain ⟨o, p, ho, hp, hmem⟩ := eFirstOn_keepsFlags hx
    rw [oldFirstOctet, if_pos (by omega), hread] at ho
    cases ho
    refine ⟨_, by rw [afterOctet_mem, hmem, Memory.read_write, if_pos rfl], ?_⟩
    rw [getLsbD_keepFlags old hp hk, if_neg (by omega)]
  · have hf := encFlight_none_of_encRun ht
    obtain ⟨x, hx, rfl⟩ := execEncRun_next hf ht
    obtain ⟨y, hy, rfl⟩ := execEncRun_next (s := { s with mem := m }) hf hu
    obtain ⟨he, hcnt, herr⟩ := encRunOn_regs hx hy
    exact ⟨by rw [he, hcnt, herr]; rfl, he, fun j hj => encRunOn_octets_agree hagree hx hy hj⟩

end Sys2Proof.Machine
end

/-! Proofs of the family 43_oneshot.md: the one-shot forms give what construction and one `RUN` give
(R160, R161, R163). -/

section
namespace Sys2Proof.Machine

/-! ## `done` of a one-shot form is that of the run on its scratch context (R31, R33) -/

theorem oneShotDone_iff (err : Err) : oneShotDone err = true ↔ err = .none := by simp [oneShotDone]

theorem oneShotDone_decRunOn_fresh (view : List Octet) (n : Width) :
    oneShotDone (decRunOn view (freshDecoder n)).err = decDone (decRunOn view (freshDecoder n)).d := by
  rw [Bool.eq_iff_iff, oneShotDone_iff, decDone_iff]
  exact (decRunOn_done_iff_none (by simp [freshDecoder])).symm

theorem oneShotDone_encRunOn {r : U64} {off cap : Nat} {e : Encoder} {m : Memory} {x : EncResult}
    (h : encRunOn r off cap e m = .ok x) : oneShotDone x.err = encDone x.e := by
  rw [Bool.eq_iff_iff, oneShotDone_iff, encDone_iff]
  exact (encRunOn_done_iff_none h).symm

/-! ## The one-shot forms end as the run on a fresh context (R160, R161) -/

theorem exec_dec1_eq {n : Width} (h1 : 1 ≤ n.toNat) (h8 : n.toNat ≤ 8) (view : List Octet) (s : State) :
    exec (.dec1 n view) s = .next (finishDec (decRunOn view (freshDecoder n)) s) := by
  simp [exec, execDec1, badWidth_false h1 h8, oneShotDone_decRunOn_fresh, finishDec]

theorem exec_enc1_eq {value : U64} {n : Width} {off cap : Nat} {s : State} {x : EncResult}
    (h1 : 1 ≤ n.toNat) (h8 : n.toNat ≤ 8) (hfree : destinationInUse off cap s = false)
    (hx : encRunOn (Config.freeRem s.draws) off cap (freshEncoder value n) s.mem = .ok x) :
    exec (.enc1 value n off cap) s = .next (finishEnc x.e x.cnt x.err { s with mem := x.mem }) := by
  simp [exec, execEnc1, badWidth_false h1 h8, hfree, hx, oneShotDone_encRunOn hx, finishEnc]

/-- Two views that overlap share the address at which the later of them begins. -/
theorem exists_shared_of_viewsOverlap {off cap off' cap' : Nat}
    (h : viewsOverlap off cap off' cap' = true) :
    ∃ a, off ≤ a ∧ a < off + cap ∧ off' ≤ a ∧ a < off' + cap' := by
  simp only [viewsOverlap, Bool.and_eq_true, decide_eq_true_eq] at h
  exact ⟨max off off', by omega⟩

/-- The view is free if it shares no address with that of an operation in progress (R207). -/
theorem destinationInUse_false {off cap : Nat} {s : State}
    (h : ∀ f a, s.encFlight = some f →
      ¬(off ≤ a ∧ a < off + cap ∧ f.off ≤ a ∧ a < f.off + f.cap)) :
    destinationInUse off cap s = false := by
  rw [destinationInUse]
  split
  · rfl
  next f hf =>
    refine Bool.eq_false_iff.2 fun hoverlap => ?_
    obtain ⟨a, ha⟩ := exists_shared_of_viewsOverlap hoverlap
    exact h f a hf ha

/-! ## What a run of the encoder writes and answers (R136) -/

/-- A run writes only the octets it counts (R55). -/
theorem encRunOn_outside {r : U64} {off cap a : Nat} {e : Encoder} {m : Memory} {x : EncResult}
    (h : encRunOn r off cap e m = .ok x) (ha : a < off ∨ off + x.cnt ≤ a) :
    x.mem.read a = m.read a := by
  rcases encRunOn_cases r off cap e m with ⟨err, -, hx⟩ | ⟨hp, hx⟩ <;> rw [hx] at h
  · cases h; rfl
  · exact (encLoop_ends (encPrecheck_none hp).1 h).outside a ha

/-- A run asks for more exactly when the capacity does not take all that is left to write. -/
theorem EncRunSpells.err_eq {old : Octet} {r : U64} {off cap : Nat} {e : Encoder} {m : Memory}
    {x : EncResult} (h : EncRunSpells old cap off 0 e m x) (hx : encRunOn r off cap e m = .ok x) :
    x.err = if (octetsLeft old e).length ≤ cap then .none else .needsMore := by
  split
  next hfits => exact (encRunOn_done_iff_none hx).1 (h.done_iff.2 hfits)
  next hshort => exact h.more (mt h.done_iff.1 hshort)

/-- The buffer, `cnt` and `err` a run leaves, from the octets left to write alone. -/
theorem encRunOn_eq_of_octetsLeft {old : Octet} {off : Nat} {e : Encoder} {m : Memory}
    (hi : e.state ≠ .idle) (hflags : FindsFlagsOf old e m off) (cap : Nat) (r : U64) :
    ∃ e', encRunOn r off cap e m = .ok
      ⟨e', m.writeAll off ((octetsLeft old e).take cap), 0 + ((octetsLeft old e).take cap).length,
        if (octetsLeft old e).length ≤ cap then .none else .needsMore⟩ := by
  obtain ⟨x, hx, hrun⟩ := encRunOn_spells (r := r) (cap := cap) hi hflags
  exact ⟨x.e, by rw [hx, ← hrun.mem, ← hrun.cnt, ← hrun.err_eq hx]⟩

/-- A run on a fresh encoder leaves the same octets, `cnt` and `err` whatever value `E.rem` takes in
Done (R27). -/
theorem encRunOn_fresh_answers (value : U64) {n : Width} {off cap : Nat} {m : Memory}
    (hwritten : n.toNat < 8 → 0 < cap → m.read off ≠ none) :
    ∃ mem cnt err, ∀ r, ∃ e, encRunOn r off cap (freshEncoder value n) m = .ok ⟨e, mem, cnt, err⟩ := by
  rcases Nat.eq_zero_or_pos cap with rfl | hcap
  · exact ⟨m, 0, .needsMore, fun r => ⟨_, encRunOn_of_precheck r off m rfl⟩⟩
  · obtain ⟨old, hold⟩ : ∃ old, oldFirstOctet n m off = some old :=
      Option.ne_none_iff_exists'.1 fun h =>
        have ⟨hn, hread⟩ := oldFirstOctet_none.1 h
        hwritten hn hcap hread
    have hflags : FindsFlagsOf old (freshEncoder value n) m off := fun _ => ⟨old, hold, rfl⟩
    exact ⟨_, _, _, encRunOn_eq_of_octetsLeft (by simp [freshEncoder]) hflags cap⟩

/-! ## Equivalence (R163) -/

/-- Settles O52: both forms end as the run on the context that construction gives; the free value `E.rem`
takes in Done differs between the two runs and reaches no result. -/
theorem oneShotIsInitThenRun : Obligations.OneShotIsInitThenRun := by
  refine ⟨fun n view s h1 h8 => ?_, fun value n off cap s h1 h8 hapart hwritten => ?_⟩
  · refine ⟨_, exec_dec1_eq h1 h8 view s, rfl, rfl, rfl, rfl, rfl, _, exec_decInit_eq h1 h8 rfl,
      decRun_leads rfl rfl ⟨rfl, rfl, rfl, fun hdone => ?_⟩⟩
    have hd : (decRunOn view (freshDecoder n)).d.state = .done := (decDone_iff _).1 hdone
    exact (finishDec_valOut _ _ hd).trans (finishDec_valOut _ _ hd).symm
  · obtain ⟨mem, cnt, err, hrun⟩ := encRunOn_fresh_answers value hwritten
    obtain ⟨e, hx⟩ := hrun (Config.freeRem s.draws)
    obtain ⟨e', hy⟩ := hrun (Config.freeRem (s.draws + 1))
    have hdone : encDone e = encDone e' :=
      (oneShotDone_encRunOn hx).symm.trans (oneShotDone_encRunOn hy)
    exact ⟨_, exec_enc1_eq h1 h8 (destinationInUse_false hapart) hx, rfl, rfl, rfl, rfl,
      fun a ha => encRunOn_outside hx ha, _, exec_encInit_eq value h1 h8 rfl, _,
      exec_encRun_eq rfl hy, rfl, rfl, hdone, rfl⟩

end Sys2Proof.Machine
end

/-! Proofs of the family 70_reset_and_hazards.md: what the block does when the host issues nothing, and
the state after reset (R200). -/

section
namespace Sys2Proof.Machine

/-! ## Reset (R200) -/

/-- A pass of an encoder with no operation in progress does nothing (R8). -/
theorem tickEnc_of_encFlight_none {s : State} (he : s.encFlight = none) : tickEnc s = .next s := by
  simp only [tickEnc, he]

/-- With no operation in progress on either unit, the block left alone does nothing. -/
theorem unattended_of_flights_none {s : State} (hd : s.decFlight = none) (he : s.encFlight = none) :
    unattended s = .next s := by
  simp only [unattended, hd, tickEnc_of_encFlight_none he]

/-- With no act left from the host, a step is what the block does when left alone. -/
theorem step_of_pending_nil {s : State} (hp : s.pending = []) : step s = unattended s := by
  simp only [step, advance, hp]

/-- Settles O6: the reset values by definition; the host has issued nothing and no operation is in
progress, so the step is one of a block left alone. -/
theorem resetIsIdleAndDoesNothing : Obligations.ResetIsIdleAndDoesNothing := by
  refine ⟨rfl, rfl, rfl, rfl, rfl, rfl, ?_⟩
  calc step State.reset
    _ = unattended State.reset := step_of_pending_nil rfl
    _ = .next State.reset := unattended_of_flights_none rfl rfl

end Sys2Proof.Machine
end

/-! Proofs of the statements that belong to no one file of the spec: encoding and decoding of
instructions (R71, R72, R76, R80), the octet rows and the micro-steps (R81, R104 to R106), whole runs of
the two units (R23, R109 to R115, R136, R141), what an instruction can do to either unit and the legal
states it keeps (R22, R26, R29), and the two granularities of a `RUN` (R9). -/

section
namespace Sys2Proof.Machine

/-! ## Words and their decoding (R71, R76, R80) -/

section
variable {m k : Nat} (layout short : BitVec m → BitVec k → Instr) (long : BitVec m → Instr)
  (f : BitVec m) (v : BitVec k)

/-- The row of an octet 0 with flag bits `f` and value field `v`: SHORT below the sentinel, else LONG
(R76). -/
def classRow : Instr := if belowSentinel v then short f v else long f

theorem belowSentinel_allOnes : belowSentinel (BitVec.allOnes k) = false := by simp [belowSentinel]

/-- The fields of an octet 0 come back from where `f ++ v` put them (R71). -/
theorem layoutRow_append :
    (.ok (layout ((f ++ v).extractLsb' k m) ((f ++ v).extractLsb' 0 k)) : Except DecodeError Instr) =
      .ok (layout f v) := by
  rw [BitVec.extractLsb'_append_eq_left, BitVec.extractLsb'_append_eq_right]

theorem classRow_append_short (hv : belowSentinel v = true) :
    (.ok (classRow short long ((f ++ v).extractLsb' k m) ((f ++ v).extractLsb' 0 k)) :
      Except DecodeError Instr) = .ok (short f v) := by
  rw [BitVec.extractLsb'_append_eq_left, BitVec.extractLsb'_append_eq_right, classRow, if_pos hv]

theorem classRow_append_long :
    (.ok (classRow short long ((f ++ BitVec.allOnes k).extractLsb' k m)
      ((f ++ BitVec.allOnes k).extractLsb' 0 k)) : Except DecodeError Instr) = .ok (long f) := by
  rw [BitVec.extractLsb'_append_eq_left, BitVec.extractLsb'_append_eq_right, classRow,
    belowSentinel_allOnes]
  rfl

end

/-- Under width 8 the value field is the whole octet. -/
theorem lowBits_eight (b : Octet) : lowBits 8 b = b := BitVec.extractLsb'_eq_self

/-- A continuation octet's flag and payload come back from where `c ++ p` put them (R72). -/
theorem decodeCont_append (c : BitVec 1) (p : BitVec 7) :
    decodeCont (c ++ p) = if c.getLsbD 0 then .contMore p else .contLast p := by
  have hflag : (c ++ p).getLsbD 7 = c.getLsbD 0 := BitVec.getLsbD_append
  have hpayload : lowBits 7 (c ++ p) = p := BitVec.extractLsb'_append_eq_right
  exact congrArg₂ (fun x y => if x then Instr.contMore y else Instr.contLast y) hflag hpayload

/-- A source view issued with its own length is accepted (R30). -/
theorem decodeCmd_view (view : List Octet) (i : Instr) :
    (if view.length = view.length then .ok i else .error .viewLength : Except DecodeError Instr) =
      .ok i :=
  if_pos rfl

/-- Settles O1: commands and tags by definition, the octet rows by the fields of `f ++ v`. -/
theorem decodeEncodeAgree : Obligations.DecodeEncodeAgree := by
  intro i hwf
  cases i with
  | mpv | roct | decInit | encInit | encRun | enc1 | dFirst | dCont | eFirst | eCont | eFinal => rfl
  | decRun view | dec1 n view => exact decodeCmd_view view _
  | octet0N1 f v => exact layoutRow_append .octet0N1 f v
  | octet0N2 f v => exact layoutRow_append .octet0N2 f v
  | octet0N3 f v => exact layoutRow_append .octet0N3 f v
  | octet0N4 f v => exact layoutRow_append .octet0N4 f v
  | octet0N5 f v => exact layoutRow_append .octet0N5 f v
  | octet0N6 f v => exact layoutRow_append .octet0N6 f v
  | octet0N7 f v => exact layoutRow_append .octet0N7 f v
  | octet0N8 v => exact congrArg (fun v => Except.ok (Instr.octet0N8 v)) (lowBits_eight v)
  | octet0N1Short f v => exact classRow_append_short .octet0N1Short .octet0N1Long f v hwf
  | octet0N2Short f v => exact classRow_append_short .octet0N2Short .octet0N2Long f v hwf
  | octet0N3Short f v => exact classRow_append_short .octet0N3Short .octet0N3Long f v hwf
  | octet0N4Short f v => exact classRow_append_short .octet0N4Short .octet0N4Long f v hwf
  | octet0N5Short f v => exact classRow_append_short .octet0N5Short .octet0N5Long f v hwf
  | octet0N6Short f v => exact classRow_append_short .octet0N6Short .octet0N6Long f v hwf
  | octet0N7Short f v => exact classRow_append_short .octet0N7Short .octet0N7Long f v hwf
  | octet0N8Short v =>
    have hv : belowSentinel v = true := hwf
    simp [encode, decode, decodeOctet0, lowBits_eight, hv]
  | octet0N1Long f => exact classRow_append_long .octet0N1Short .octet0N1Long f
  | octet0N2Long f => exact classRow_append_long .octet0N2Short .octet0N2Long f
  | octet0N3Long f => exact classRow_append_long .octet0N3Short .octet0N3Long f
  | octet0N4Long f => exact classRow_append_long .octet0N4Short .octet0N4Long f
  | octet0N5Long f => exact classRow_append_long .octet0N5Short .octet0N5Long f
  | octet0N6Long f => exact classRow_append_long .octet0N6Short .octet0N6Long f
  | octet0N7Long f => exact classRow_append_long .octet0N7Short .octet0N7Long f
  | octet0N8Long => rfl
  | contMore p => exact congrArg Except.ok (decodeCont_append 1#1 p)
  | contLast p => exact congrArg Except.ok (decodeCont_append 0#1 p)

/-- Settles O2: by the op port; the two operations with a source view compare its length. -/
theorem opPortSelectsOperation : Obligations.OpPortSelectsOperation := by
  intro n v len src dst
  exact ⟨rfl, rfl, rfl, decodeCmd_view src _, rfl, rfl, decodeCmd_view src _, rfl,
    fun h => ⟨if_neg h, if_neg h⟩⟩

/-- Settles O3: each word is evaluated. -/
theorem wordsDecodeAsWrittenOut : Obligations.WordsDecodeAsWrittenOut :=
  ⟨rfl, rfl, rfl, rfl, rfl, rfl, rfl, rfl⟩

theorem belowSentinel_iff {k : Nat} (v : BitVec k) : belowSentinel v = true ↔ v.toNat < 2 ^ k - 1 := by
  have hv := v.isLt
  rw [belowSentinel, bne_iff_ne, ne_eq, ← BitVec.toNat_inj, BitVec.toNat_allOnes]
  omega

section
variable {m k : Nat} {short : BitVec m → BitVec k → Instr} {long : BitVec m → Instr} {f : BitVec m}
  {b : Octet}

theorem lowBits_toNat (k : Nat) (b : Octet) : (lowBits k b).toNat = b.toNat % 2 ^ k := by
  simp [lowBits, BitVec.extractLsb'_toNat]

theorem classRow_eq_short (h : b.toNat % 2 ^ k < 2 ^ k - 1) :
    (.ok (classRow short long f (lowBits k b)) : Except DecodeError Instr) =
      .ok (short f (lowBits k b)) := by
  rw [classRow, if_pos ((belowSentinel_iff _).2 (by rwa [lowBits_toNat]))]

theorem classRow_eq_long (h : b.toNat % 2 ^ k = 2 ^ k - 1) :
    (.ok (classRow short long f (lowBits k b)) : Except DecodeError Instr) = .ok (long f) := by
  rw [classRow, if_neg (mt (belowSentinel_iff _).1 (by rw [lowBits_toNat]; omega))]

end

/-- Settles O4: for each width the row is SHORT or LONG by the value field. -/
theorem octetZeroClassIsStrict : Obligations.OctetZeroClassIsStrict := fun _ =>
  ⟨classRow_eq_short, classRow_eq_long, classRow_eq_short, classRow_eq_long,
    classRow_eq_short, classRow_eq_long, classRow_eq_short, classRow_eq_long,
    classRow_eq_short, classRow_eq_long, classRow_eq_short, classRow_eq_long,
    classRow_eq_short, classRow_eq_long,
    classRow_eq_short (short := fun (_ : BitVec 0) v => .octet0N8Short v)
      (long := fun _ => .octet0N8Long) (f := 0),
    classRow_eq_long (short := fun (_ : BitVec 0) v => .octet0N8Short v)
      (long := fun _ => .octet0N8Long) (f := 0)⟩

/-! ## The octet rows (R71, R72, R76, R104 to R106) -/

theorem takeOctet_eq {t : DecTag} {fl : DecFlight} {s : State} (h : AtOctet t fl s) (b : Octet) :
    takeOctet t b s = .next (decMicro b fl s) := by
  obtain ⟨hf, hcur, hs⟩ := h
  simp [takeOctet, hf, hcur, hs]

/-- The value field of `f ++ v` is `v` (R71). -/
theorem append_mod {m k : Nat} (f : BitVec m) (v : BitVec k) : (f ++ v).toNat % 2 ^ k = v.toNat := by
  have hv : (f ++ v).extractLsb' 0 k = v := BitVec.extractLsb'_append_eq_right
  rw [← congrArg BitVec.toNat hv, BitVec.extractLsb'_toNat, Nat.shiftRight_zero]

section
variable {n : Width} {fl : DecFlight} {s : State} {b : Octet} {p : Nat}

/-- An octet 0 whose value field is `p` does what D.FIRST does: SHORT below the sentinel, else LONG
(R104). -/
theorem takeOctet0_eq (h : AtOctet .first fl s) (hN : s.dec.N = n) (h8 : n.toNat ≤ 8)
    (hp : b.toNat % 2 ^ n.toNat = p) :
    takeOctet0 n b s = .next (if p < maxp n then afterShort p fl s else afterLong fl s) := by
  subst hN hp
  rw [takeOctet0, if_pos rfl, takeOctet_eq h, decMicro_first h.2.2]
  rcases dFirstOn_cases b h8 with ⟨hshort, hd⟩ | ⟨hlong, hd⟩
  · rw [hd, if_pos hshort, afterShort]
  · rw [hd, if_neg (by omega), afterLong, maxp]

/-- An octet 0 of class LONG (R76): its value field holds the sentinel. -/
theorem takeOctet0_long (h : AtOctet .first fl s) (hN : s.dec.N = n) (h8 : n.toNat ≤ 8)
    (hp : b.toNat % 2 ^ n.toNat = maxp n) : takeOctet0 n b s = .next (afterLong fl s) := by
  rw [takeOctet0_eq h hN h8 hp, if_neg (Nat.lt_irrefl _)]

/-- An octet 0 of class SHORT (R76): below the sentinel it is taken, at the sentinel there is no move. -/
theorem takeShort_eq {v : BitVec n.toNat} (h : AtOctet .first fl s) (hN : s.dec.N = n)
    (h8 : n.toNat ≤ 8) (hp : b.toNat % 2 ^ n.toNat = v.toNat) :
    (v.toNat < maxp n → takeShort n v b s = .next (afterShort v.toNat fl s)) ∧
    (v.toNat = maxp n → takeShort n v b s = .refused .notSelected) := by
  have hclass : belowSentinel v = true ↔ v.toNat < maxp n := belowSentinel_iff v
  refine ⟨fun hlt => ?_, fun heq => ?_⟩
  · rw [takeShort, if_pos (hclass.2 hlt), takeOctet0_eq h hN h8 hp, if_pos hlt]
  · rw [takeShort, if_neg (mt hclass.1 (by omega))]

end

theorem append_allOnes_mod {m k : Nat} (f : BitVec m) :
    (f ++ BitVec.allOnes k).toNat % 2 ^ k = 2 ^ k - 1 := by
  rw [append_mod, BitVec.toNat_allOnes]

/-- Settles O55: whatever its flag bits, the value field of a LONG row holds the sentinel. -/
theorem longOctetsEnterContinuation : Obligations.LongOctetsEnterContinuation := by
  intro s fl h
  refine ⟨fun hN f => ?_, fun hN f => ?_, fun hN f => ?_, fun hN f => ?_, fun hN f => ?_,
    fun hN f => ?_, fun hN f => ?_, fun hN => ?_⟩
  case refine_8 => exact takeOctet0_long h hN (by decide) rfl
  all_goals exact takeOctet0_long h hN (by decide) (append_allOnes_mod f)

/-- Settles O56: whatever its flag bits, the value field of a SHORT row is `v`. -/
theorem shortOctetsAreDone : Obligations.ShortOctetsAreDone := by
  intro s fl h
  refine ⟨fun hN f v => ?_, fun hN f v => ?_, fun hN f v => ?_, fun hN f v => ?_, fun hN f v => ?_,
    fun hN f v => ?_, fun hN f v => ?_, fun hN v => ?_⟩
  case refine_8 => exact takeShort_eq h hN (by decide) (Nat.mod_eq_of_lt v.isLt)
  all_goals exact takeShort_eq h hN (by decide) (append_mod f v)

/-- Settles O57: whatever its flag bits, the value field of a layout row is `v`. -/
theorem layoutOctetsAreShortOrLong : Obligations.LayoutOctetsAreShortOrLong := by
  intro s fl h
  refine ⟨fun hN f v => ?_, fun hN f v => ?_, fun hN f v => ?_, fun hN f v => ?_, fun hN f v => ?_,
    fun hN f v => ?_, fun hN f v => ?_, fun hN v => ?_⟩
  case refine_8 => exact takeOctet0_eq h hN (by decide) (Nat.mod_eq_of_lt v.isLt)
  all_goals exact takeOctet0_eq h hN (by decide) (append_mod f v)

/-- The fields of a continuation octet put together from its flag and payload (R72). -/
theorem payload_append (c : BitVec 1) (p : BitVec 7) : payload (c ++ p) = p.toNat :=
  (payload_eq _).trans (append_mod c p)

theorem moreFollow_append (c : BitVec 1) (p : BitVec 7) : moreFollow (c ++ p) = c.getLsbD 0 :=
  BitVec.getLsbD_append

section
variable {fl : DecFlight} {s : State} {c : BitVec 1} {p : BitVec 7}

theorem overflows_append (d : Decoder) :
    overflows (c ++ p) d = true ↔ u64Max < d.v.toNat + p.toNat * 2 ^ d.M := by
  rw [overflows, contribution, payload_append, decide_eq_true_iff]

/-- A continuation octet whose sum fits: its flag chooses the state after it (R105). -/
theorem takeOctet_accepts {t : DecTag} (h : AtOctet .continuation fl s)
    (ht : (if c.getLsbD 0 then .continuation else .done) = t)
    (hfit : s.dec.v.toNat + p.toNat * 2 ^ s.dec.M ≤ u64Max) :
    takeOctet .continuation (c ++ p) s = .next { s with
      dec := { s.dec with
        v := BitVec.ofNat 64 (s.dec.v.toNat + p.toNat * 2 ^ s.dec.M), M := s.dec.M + 7, state := t }
      decFlight := some { fl with cursor := fl.cursor + 1 } } := by
  have ho : overflows (c ++ p) s.dec = false :=
    Bool.eq_false_iff.2 (mt (overflows_append s.dec).1 (Nat.not_lt.2 hfit))
  rw [takeOctet_eq h, decMicro_accepts h.2.2 ho, dContOn, contribution, payload_append,
    moreFollow_append, ht]

/-- A continuation octet whose sum does not fit (R106). -/
theorem takeOctet_fails (h : AtOctet .continuation fl s)
    (hbig : u64Max < s.dec.v.toNat + p.toNat * 2 ^ s.dec.M) :
    takeOctet .continuation (c ++ p) s = .next (retireDec ⟨dFail s.dec, fl.cursor, .tooLarge⟩ s) := by
  rw [takeOctet_eq h, decMicro_overflows h.2.2 ((overflows_append s.dec).2 hbig)]

end

/-- Settles O58: both rows are the micro-step D.CONT, the flag choosing the state after it. -/
theorem continuationOctetsAccumulate : Obligations.ContinuationOctetsAccumulate := by
  intro s fl p h
  refine ⟨fun hfit => ⟨takeOctet_accepts h h.2.2.symm hfit, takeOctet_accepts h rfl hfit⟩, ?_⟩
  rintro hbig i (rfl | rfl) <;>
    exact ⟨_, takeOctet_fails h hbig, rfl, rfl, rfl, rfl, rfl, rfl, rfl⟩

/-! ## The octet rows are the micro-steps (R81) -/

/-- Both classes of an octet 0 take the octet that the two fields make up (R71, R76). -/
theorem exec_classRow {m k : Nat} (short : BitVec m → BitVec k → Instr) (long : BitVec m → Instr)
    (b : Octet) (s : State) (take : BitVec (m + k) → Out)
    (hshort : ∀ f v, exec (short f v) s =
      if belowSentinel v then take (f ++ v) else .refused .notSelected)
    (hlong : ∀ f, exec (long f) s = take (f ++ BitVec.allOnes k)) :
    exec (classRow short long (b.extractLsb' k m) (b.extractLsb' 0 k)) s =
      take (b.extractLsb' 0 (m + k)) := by
  rw [← BitVec.extractLsb'_append_extractLsb'_eq_extractLsb' (Nat.zero_add k).symm]
  by_cases hv : belowSentinel (b.extractLsb' 0 k) = true
  · rw [classRow, if_pos hv, hshort, if_pos hv]
  · have hones : b.extractLsb' 0 k = BitVec.allOnes k := by simpa [belowSentinel] using hv
    rw [classRow, if_neg hv, hlong, hones]

theorem exec_classRow_eight (b : Octet) (s : State) :
    exec (if belowSentinel (lowBits 8 b) then .octet0N8Short (lowBits 8 b) else .octet0N8Long) s =
      takeOctet0 8 b s := by
  rw [lowBits_eight]
  by_cases hv : belowSentinel b = true
  · rw [if_pos hv, exec, execOctet0N8Short, takeShort, if_pos hv]
  · have hones : b = BitVec.allOnes 8 := by simpa [belowSentinel] using hv
    rw [if_neg hv, exec, execOctet0N8Long, hones]

/-- An octet 0 run as its class, whichever it is, is the octet taken under the width (R76, R81). -/
theorem runWord_octet0 {n : Width} (h1 : 1 ≤ n.toNat) (h8 : n.toNat ≤ 8) (b : Octet) (s : State) :
    runWord (.octet0 n b) s = takeOctet0 n b s := by
  have hb : takeOctet0 n (b.extractLsb' 0 8) s = takeOctet0 n b s :=
    congrArg (takeOctet0 n · s) (lowBits_eight b)
  rw [← hb]
  rcases width_cases h1 h8 with rfl | rfl | rfl | rfl | rfl | rfl | rfl | rfl
  · exact exec_classRow .octet0N1Short .octet0N1Long b s (takeOctet0 1 · s) (fun _ _ => rfl)
      fun _ => rfl
  · exact exec_classRow .octet0N2Short .octet0N2Long b s (takeOctet0 2 · s) (fun _ _ => rfl)
      fun _ => rfl
  · exact exec_classRow .octet0N3Short .octet0N3Long b s (takeOctet0 3 · s) (fun _ _ => rfl)
      fun _ => rfl
  · exact exec_classRow .octet0N4Short .octet0N4Long b s (takeOctet0 4 · s) (fun _ _ => rfl)
      fun _ => rfl
  · exact exec_classRow .octet0N5Short .octet0N5Long b s (takeOctet0 5 · s) (fun _ _ => rfl)
      fun _ => rfl
  · exact exec_classRow .octet0N6Short .octet0N6Long b s (takeOctet0 6 · s) (fun _ _ => rfl)
      fun _ => rfl
  · exact exec_classRow .octet0N7Short .octet0N7Long b s (takeOctet0 7 · s) (fun _ _ => rfl)
      fun _ => rfl
  · exact (exec_classRow_eight b s).trans hb.symm

/-- The flag and the payload of a continuation octet make it up (R72). -/
theorem flag_append_payload (b : Octet) : BitVec.ofBool (b.getLsbD 7) ++ lowBits 7 b = b := by
  revert b; decide

/-- A continuation octet run as its class, whichever it is, is the octet taken (R72, R81). -/
theorem runWord_cont (b : Octet) (s : State) :
    runWord (.cont b) s = takeOctet .continuation b s := by
  have hrun : runWord (.cont b) s = exec (decodeCont b) s := rfl
  have hb := flag_append_payload b
  rw [hrun, decodeCont]
  cases hflag : b.getLsbD 7 <;> rw [hflag] at hb
  · exact congrArg (takeOctet .continuation · s) hb
  · exact congrArg (takeOctet .continuation · s) hb

section
variable {s : State} {f : DecFlight} {b : Octet}

theorem tickDec_octet (hf : s.decFlight = some f) (hb : f.view[f.cursor]? = some b)
    (hd : s.dec.state ≠ .done) : tickDec s = runWord (octetWord b s.dec) s := by
  simp only [tickDec, hf, if_neg hd, hb]

theorem atOctet_of_getElem? {t : DecTag} (hf : s.decFlight = some f)
    (hb : f.view[f.cursor]? = some b) (hs : s.dec.state = t) : AtOctet t f s :=
  ⟨hf, (List.getElem?_eq_some_iff.1 hb).1, hs⟩

/-- A pass of the decoder over an octet is the micro-step the tag selects (R75, R110). -/
theorem tickDec_eq_decMicro (hf : s.decFlight = some f) (hb : f.view[f.cursor]? = some b)
    (h1 : 1 ≤ s.dec.N.toNat) (h8 : s.dec.N.toNat ≤ 8)
    (hs : s.dec.state = .first ∨ s.dec.state = .continuation) :
    tickDec s = .next (decMicro b f s) := by
  rcases hs with hs | hs
  · rw [tickDec_octet hf hb (by simp [hs])]
    simp only [octetWord, hs]
    rw [runWord_octet0 h1 h8, takeOctet0, if_pos rfl, takeOctet_eq (atOctet_of_getElem? hf hb hs)]
  · rw [tickDec_octet hf hb (by simp [hs])]
    simp only [octetWord, hs]
    rw [runWord_cont, takeOctet_eq (atOctet_of_getElem? hf hb hs)]

end

/-- Settles O12: both are the decoder's micro-step on the octet under the cursor. -/
theorem octetClassIsMicroStep : Obligations.OctetClassIsMicroStep := by
  intro s f b ⟨hdec, _⟩ hf hb
  refine ⟨fun hs => ?_, fun hs => ?_⟩
  · obtain ⟨h1, h8⟩ := hdec.1 (by simp [hs])
    exact (tickDec_eq_decMicro hf hb h1 h8 (.inl hs)).trans (decMicroAtCursor_eq hf hb hs).symm
  · obtain ⟨h1, h8⟩ := hdec.1 (by simp [hs])
    exact (tickDec_eq_decMicro hf hb h1 h8 (.inr hs)).trans (decMicroAtCursor_eq hf hb hs).symm

/-! ## No move without an operation in progress (R81, log 11) -/

section
variable {s : State} (hf : s.decFlight = none)
include hf

theorem decMicroAtCursor_refused (t : DecTag) : decMicroAtCursor t s = .refused .notSelected := by
  simp only [decMicroAtCursor, hf]

theorem takeOctet_refused (t : DecTag) (b : Octet) : takeOctet t b s = .refused .notSelected := by
  simp only [takeOctet, hf]

theorem takeOctet0_refused (n : Width) (b : Octet) : takeOctet0 n b s = .refused .notSelected := by
  rw [takeOctet0, takeOctet_refused hf, ite_self]

theorem takeShort_refused {k : Nat} (n : Width) (v : BitVec k) (b : Octet) :
    takeShort n v b s = .refused .notSelected := by
  rw [takeShort, takeOctet0_refused hf, ite_self]

/-- The layout row, the LONG row and the SHORT row of one width. -/
theorem octet0_refused {k : Nat} (n : Width) (v : BitVec k) (b b' : Octet) :
    takeOctet0 n b s = .refused .notSelected ∧ takeOctet0 n b' s = .refused .notSelected ∧
      takeShort n v b s = .refused .notSelected :=
  ⟨takeOctet0_refused hf n b, takeOctet0_refused hf n b', takeShort_refused hf n v b⟩

end

theorem encoderMicro_refused {s : State} (hf : s.encFlight = none) :
    execEFirst s = .refused .notSelected ∧ execECont s = .refused .notSelected ∧
      execEFinal s = .refused .notSelected := by
  simp only [execEFirst, execECont, execEFinal, hf, and_self]

/-- Settles O59: every one of these instructions looks at the operation in progress first. -/
theorem microStepsNeedAnOperationInProgress : Obligations.MicroStepsNeedAnOperationInProgress := by
  refine ⟨fun s hf => ⟨decMicroAtCursor_refused hf _, decMicroAtCursor_refused hf _, ?_⟩,
    fun s hf => encoderMicro_refused hf⟩
  exact ⟨fun _ v => octet0_refused hf 1 v _ _, fun _ v => octet0_refused hf 2 v _ _,
    fun _ v => octet0_refused hf 3 v _ _, fun _ v => octet0_refused hf 4 v _ _,
    fun _ v => octet0_refused hf 5 v _ _, fun _ v => octet0_refused hf 6 v _ _,
    fun _ v => octet0_refused hf 7 v _ _, fun v => octet0_refused hf 8 v _ _,
    fun _ => ⟨takeOctet_refused hf _ _, takeOctet_refused hf _ _⟩⟩

/-! ## No move on a busy unit or a view in use (R65, R207, log 12) -/

/-- A step carries out the act at the head of the host's list (R14). -/
theorem step_of_pending_cons {s : State} {act : HostAct} {rest : List HostAct}
    (hp : s.pending = act :: rest) : step s = perform act { s with pending := rest } := by
  simp only [step, advance, hp]

theorem viewsOverlap_of_shared {off cap off' cap' a : Nat} (h : off ≤ a ∧ a < off + cap)
    (h' : off' ≤ a ∧ a < off' + cap') : viewsOverlap off cap off' cap' = true := by
  simp only [viewsOverlap, Bool.and_eq_true, decide_eq_true_eq]
  omega

/-- Settles O53: a busy unit is refused first; a write or an `ENC1` meets the view in use. -/
theorem noMoveOnABusyUnitOrView : Obligations.NoMoveOnABusyUnitOrView := by
  refine ⟨fun n view s hf => ?_, fun value n off cap s hf => ?_, fun a b f rest s hf hp => ?_,
    fun value n off cap a f s h1 h8 hf h h' g g' => ?_⟩
  · have hbusy := Option.isSome_iff_ne_none.2 hf
    exact ⟨if_pos hbusy, if_pos hbusy⟩
  · have hbusy := Option.isSome_iff_ne_none.2 hf
    exact ⟨if_pos hbusy, if_pos hbusy⟩
  · have hstep : step s = if f.off ≤ a ∧ a < f.off + f.cap then .refused .viewInUse
        else .next { s with pending := rest, mem := s.mem.write a b } := by
      rw [step_of_pending_cons hp]
      simp only [perform, hostWrite, hf]
    exact ⟨fun hin => hstep.trans (if_pos hin), fun hout => hstep.trans (if_neg hout)⟩
  · have huse : destinationInUse off cap s = true := by
      simp only [destinationInUse, hf]
      exact viewsOverlap_of_shared ⟨h, h'⟩ ⟨g, g'⟩
    simp [exec, execEnc1, badWidth_false h1 h8, huse]

/-! ## A width outside 1..8 (R82, R174) -/

/-- An operation that takes `n` without being an `INIT` checks it and changes nothing. -/
theorem exec_of_badWidth {n : Width} {value : U64} {view : List Octet} {off cap : Nat} {i : Instr}
    (hn : badWidth n = true)
    (hi : i = .mpv n ∨ i = .roct value n ∨ i = .dec1 n view ∨ i = .enc1 value n off cap)
    (s : State) :
    exec i s = .next (raisePrecondition s) := by
  rcases hi with rfl | rfl | rfl | rfl <;> exact if_pos hn

/-- Settles O18: the width is checked first, and `raisePrecondition` answers. -/
theorem badWidthIsPreconditionViolation : Obligations.BadWidthIsPreconditionViolation := by
  intro n value view off cap s hn
  have hbad : n.toNat < 1 ∨ 8 < n.toNat := by omega
  exact ⟨fun i hi => ⟨_, exec_of_badWidth (badWidth_true hbad) hi s, rfl, rfl, rfl, rfl, rfl, rfl⟩,
    fun hf => ⟨_, exec_decInit_badWidth hbad hf, rfl, rfl, rfl, rfl, rfl, rfl⟩,
    fun hf => ⟨_, exec_encInit_badWidth value hbad hf, rfl, rfl, rfl, rfl, rfl, rfl⟩⟩

/-! ## What a step carries out (R110, R136) -/

theorem runWord_of_decode {w : InstrWord} {i : Instr} (h : decode w = .ok i) (s : State) :
    runWord w s = exec i s := by
  simp only [runWord, h]

section
variable {s : State} {f : DecFlight}

theorem tickDec_done (hf : s.decFlight = some f) (hd : s.dec.state = .done) :
    tickDec s = .next (retireDec ⟨s.dec, f.cursor, .none⟩ s) := by
  simp only [tickDec, hf, if_pos hd]

theorem tickDec_end (hf : s.decFlight = some f) (hd : s.dec.state ≠ .done)
    (hend : f.view.length ≤ f.cursor) :
    tickDec s = .next (retireDec ⟨s.dec, f.cursor, .needsMore⟩ s) := by
  simp only [tickDec, hf, if_neg hd, List.getElem?_eq_none hend]

theorem tickDec_of_decFlight_none (hf : s.decFlight = none) : tickDec s = .next s := by
  simp only [tickDec, hf]

end

section
variable {s : State} {f : EncFlight}

theorem tickEnc_done (hf : s.encFlight = some f) (hd : s.enc.state = .done) :
    tickEnc s = .next (retireEnc f.cursor .none s) := by
  simp only [tickEnc, hf, if_pos hd]

theorem tickEnc_micro (hf : s.encFlight = some f) (hd : s.enc.state ≠ .done) :
    tickEnc s = runWord (.encTag s.enc.state.code) s := by
  simp only [tickEnc, hf, if_neg hd]

end

/-- Settles O9: the act at the head of the list by its kind, a pass by what it finds. -/
theorem stepRunsDecodedInstruction : Obligations.StepRunsDecodedInstruction := by
  refine ⟨fun s p rest i hp hi => ?_, fun s rest f b i hp hf hd hb hi => ?_, fun s rest f hp hf => ?_,
    fun s rest f hp hf => ?_, fun s u rest hp hdec henc => ?_⟩ <;> rw [step_of_pending_cons hp]
  · exact runWord_of_decode hi _
  · exact (tickDec_octet (s := { s with pending := rest }) hf hb hd).trans (runWord_of_decode hi _)
  · exact ⟨tickDec_done (s := { s with pending := rest }) hf,
      tickDec_end (s := { s with pending := rest }) hf⟩
  · exact ⟨tickEnc_done (s := { s with pending := rest }) hf, fun hd i hi =>
      (tickEnc_micro (s := { s with pending := rest }) hf hd).trans (runWord_of_decode hi _)⟩
  · cases u with
    | decoder => exact tickDec_of_decFlight_none (s := { s with pending := rest }) (hdec rfl)
    | encoder => exact tickEnc_of_encFlight_none (s := { s with pending := rest }) (henc rfl)

/-! ## Everything an instruction can do -/

/-- The next states of an instruction, said once: what each operation and each micro-step leaves
(R100, R104 to R106, R110, R130, R136, R138 to R140, R160, R161). -/
inductive Move : Instr → State → State → Prop
  /-- `MPV`, `ROCT`, `DEC1`, and any `n` refused outside an `INIT`: the result ports only. -/
  | answer {i s} (cnt val err done) : Move i s (finish cnt val err done s)
  | decInitBad {s} (n) (hfree : s.decFlight = none) (hn : badWidth n = true) :
    Move (.decInit n) s (raisePrecondition { s with dec := { s.dec with state := .idle } })
  | decInit {s} (n) (hfree : s.decFlight = none) (hn : badWidth n = false) :
    Move (.decInit n) s (finish 0 none .none false { s with dec := freshDecoder n })
  | decRun {s} (view) (hfree : s.decFlight = none) :
    Move (.decRun view) s
      (finishDec (decRunOn view s.dec) { s with dec := (decRunOn view s.dec).d })
  | decOctet {i s t f} (b) (hat : AtOctet t f s) (ht : t = .first ∨ t = .continuation) :
    Move i s (decMicro b f s)
  | encInitBad {s} (value n) (hfree : s.encFlight = none) (hn : badWidth n = true) :
    Move (.encInit value n) s (raisePrecondition { s with enc := { s.enc with state := .idle } })
  | encInit {s} (value n) (hfree : s.encFlight = none) (hn : badWidth n = false) :
    Move (.encInit value n) s (finish 0 none .none false { s with enc := freshEncoder value n })
  | encRun {s off cap x} (hfree : s.encFlight = none)
    (hx : encRunOn (Config.freeRem s.draws) off cap s.enc s.mem = .ok x) :
    Move (.encRun off cap) s (finishEnc x.e x.cnt x.err { s with enc := x.e, mem := x.mem })
  | enc1 {s value n off cap x}
    (hx : encRunOn (Config.freeRem s.draws) off cap (freshEncoder value n) s.mem = .ok x) :
    Move (.enc1 value n off cap) s
      (finish x.cnt none x.err (oneShotDone x.err) { s with mem := x.mem })
  | encOctet {i s f x} (hf : s.encFlight = some f) (hroom : f.cursor < f.cap)
    (hidle : s.enc.state ≠ .idle) (hdone : s.enc.state ≠ .done)
    (hx : eOctetOn (Config.freeRem s.draws) (f.off + f.cursor) s.enc s.mem = .ok x) :
    Move i s (afterOctet x f s)
  | encSettle {i s f} (hf : s.encFlight = some f) (hs : s.enc.state = .continuation)
    (hrem : s.enc.rem.toNat < 128) : Move i s { s with enc := { s.enc with state := .final } }
  | encNoRoom {i s f} (hf : s.encFlight = some f) (hroom : f.cap ≤ f.cursor)
    (hs : s.enc.state = .continuation ∧ 128 ≤ s.enc.rem.toNat ∨ s.enc.state = .final) :
    Move i s (retireEnc f.cursor .needsMore s)

section
variable {s t : State}

theorem move_of_decInit {n : Width} (h : execDecInit n s = .next t) : Move (.decInit n) s t := by
  simp only [execDecInit] at h
  split_ifs at h with hbusy hn <;> cases h
  · exact .decInitBad n (by simpa using hbusy) hn
  · exact .decInit n (by simpa using hbusy) (by simpa using hn)

theorem decFlight_none_of_decRun {view : List Octet} (h : execDecRun view s = .next t) :
    s.decFlight = none := by
  cases hf : s.decFlight with
  | none => rfl
  | some f => simp [execDecRun, hf] at h

theorem move_of_decRun {view : List Octet} (h : execDecRun view s = .next t) :
    Move (.decRun view) s t := by
  have hfree := decFlight_none_of_decRun h
  cases (execDecRun_eq view hfree).symm.trans h
  exact .decRun view hfree

theorem move_of_dec1 {n : Width} {view : List Octet} (i : Instr) (h : execDec1 n view s = .next t) :
    Move i s t := by
  simp only [execDec1] at h
  split_ifs at h <;> cases h
  · exact .answer ..
  · exact .answer ..

theorem move_of_takeOctet {d : DecTag} {b : Octet} (i : Instr) (hd : d = .first ∨ d = .continuation)
    (h : takeOctet d b s = .next t) : Move i s t := by
  obtain ⟨f, hf, hs, hcur, rfl⟩ := takeOctet_next h
  exact .decOctet b ⟨hf, hcur, hs⟩ hd

theorem move_of_takeOctet0 {n : Width} {b : Octet} (i : Instr) (h : takeOctet0 n b s = .next t) :
    Move i s t :=
  move_of_takeOctet i (.inl rfl) (takeOctet0_next h).2

theorem move_of_decMicroAtCursor {d : DecTag} (i : Instr) (hd : d = .first ∨ d = .continuation)
    (h : decMicroAtCursor d s = .next t) : Move i s t := by
  obtain ⟨f, b, hf, hb, hs, rfl⟩ := decMicroAtCursor_next h
  exact .decOctet b (atOctet_of_getElem? hf hb hs) hd

theorem move_of_encInit {value : U64} {n : Width} (h : execEncInit value n s = .next t) :
    Move (.encInit value n) s t := by
  simp only [execEncInit] at h
  split_ifs at h with hbusy hn <;> cases h
  · exact .encInitBad value n (by simpa using hbusy) hn
  · exact .encInit value n (by simpa using hbusy) (by simpa using hn)

theorem move_of_encRun {off cap : Nat} (h : execEncRun off cap s = .next t) :
    Move (.encRun off cap) s t := by
  have hfree := encFlight_none_of_encRun (s := s) h
  obtain ⟨x, hx, rfl⟩ := execEncRun_next hfree h
  exact .encRun hfree hx

theorem move_of_enc1 {value : U64} {n : Width} {off cap : Nat}
    (h : execEnc1 value n off cap s = .next t) : Move (.enc1 value n off cap) s t := by
  simp only [execEnc1] at h
  split_ifs at h
  · cases h; exact .answer ..
  · split at h <;> cases h
    next x hx => exact .enc1 hx

theorem move_of_eFirst (h : execEFirst s = .next t) : Move .eFirst s t := by
  cases hf : s.encFlight with
  | none => simp [execEFirst, hf] at h
  | some f =>
    obtain ⟨x, hx, rfl⟩ := exec_eFirst_next hf h
    simp only [execEFirst, hf] at h
    split_ifs at h with hsel
    exact .encOctet hf hsel.2 (by simp [hsel.1]) (by simp [hsel.1])
      (by simpa [eOctetOn, hsel.1] using hx)

theorem move_of_eCont (h : execECont s = .next t) : Move .eCont s t := by
  simp only [execECont] at h
  split at h
  · cases h
  next f hf =>
    split_ifs at h with hs hrem hroom <;> cases h
    · have hsettle : eSettle s.enc = { s.enc with state := .final } := by simp [eSettle, hs, hrem]
      rw [hsettle]
      exact .encSettle hf hs hrem
    · exact .encOctet hf hroom (by simp [hs]) (by simp [hs]) (by simp [eOctetOn, hs])
    · exact .encNoRoom hf (by omega) (.inl ⟨hs, by omega⟩)

theorem move_of_eFinal (h : execEFinal s = .next t) : Move .eFinal s t := by
  simp only [execEFinal] at h
  split at h
  · cases h
  next f hf =>
    split_ifs at h with hs hroom <;> cases h
    · exact .encOctet hf hroom (by simp [hs]) (by simp [hs]) (by simp [eOctetOn, hs])
    · exact .encNoRoom hf (by omega) (.inr hs)

/-- Whatever the instruction, its next state is one of those listed. -/
theorem move_of_exec {i : Instr} (h : exec i s = .next t) : Move i s t := by
  cases i with
  | mpv n => cases (exec_mpv_eq n s).symm.trans h; exact .answer ..
  | roct value n => cases (exec_roct_eq value n s).symm.trans h; exact .answer ..
  | decInit => exact move_of_decInit h
  | decRun => exact move_of_decRun h
  | encInit => exact move_of_encInit h
  | encRun => exact move_of_encRun h
  | dec1 => exact move_of_dec1 _ h
  | enc1 => exact move_of_enc1 h
  | dFirst => exact move_of_decMicroAtCursor _ (.inl rfl) h
  | dCont => exact move_of_decMicroAtCursor _ (.inr rfl) h
  | eFirst => exact move_of_eFirst h
  | eCont => exact move_of_eCont h
  | eFinal => exact move_of_eFinal h
  | octet0N1 | octet0N2 | octet0N3 | octet0N4 | octet0N5 | octet0N6 | octet0N7 | octet0N8
  | octet0N1Long | octet0N2Long | octet0N3Long | octet0N4Long | octet0N5Long | octet0N6Long
  | octet0N7Long | octet0N8Long => exact move_of_takeOctet0 _ h
  | octet0N1Short | octet0N2Short | octet0N3Short | octet0N4Short | octet0N5Short | octet0N6Short
  | octet0N7Short | octet0N8Short => exact move_of_takeOctet0 _ (takeShort_next h)
  | contMore | contLast => exact move_of_takeOctet _ (.inr rfl) h

end

/-! ## What every instruction keeps (R22, R26, R144) -/

theorem dContOn_done_or_continuation (b : Octet) (d : Decoder) :
    (dContOn b d).state = .done ∨ (dContOn b d).state = .continuation := by
  rw [dContOn_state]; split <;> simp

/-- Idle, Failed and Done stay as they are under `DEC.RUN` (R101 to R103). -/
theorem decRunOn_of_terminal {d : Decoder}
    (hs : d.state = .idle ∨ d.state = .done ∨ d.state = .failed) (view : List Octet) :
    (decRunOn view d).d = d := by
  rcases decRunOn_cases view d with ⟨err, -, hr⟩ | ⟨hp, -⟩
  · rw [hr]
  · obtain ⟨-, hi, hf, hd⟩ := decPrecheck_none hp
    rcases hs with hs | hs | hs <;> contradiction

/-- Idle and Done stay as they are under `ENC.RUN` (R133, R134). -/
theorem encRunOn_of_terminal {r : U64} {off cap : Nat} {e : Encoder} {m : Memory} {x : EncResult}
    (hs : e.state = .idle ∨ e.state = .done) (hx : encRunOn r off cap e m = .ok x) : x.e = e := by
  rcases encRunOn_cases r off cap e m with ⟨err, -, hr⟩ | ⟨hp, -⟩
  · cases hr.symm.trans hx; rfl
  · obtain ⟨hi, hd, -⟩ := encPrecheck_none hp
    rcases hs with hs | hs <;> contradiction

theorem encRunOn_N {r : U64} {off cap : Nat} {e : Encoder} {m : Memory} {x : EncResult}
    (hx : encRunOn r off cap e m = .ok x) : x.e.N = e.N := by
  rcases encRunOn_cases r off cap e m with ⟨err, -, hr⟩ | ⟨hp, hr⟩
  · cases hr.symm.trans hx; rfl
  · exact (encLoop_ends (encPrecheck_none hp).1 (hr.symm.trans hx)).width

section
variable {i : Instr} {s t : State}

/-- Of the moves only a `DEC.INIT` takes the decoder out of Idle, Done or Failed, and one with a bad `n`
leads to Idle. -/
theorem Move.decInit_of_terminal (h : Move i s t) (hmoved : t.dec.state ≠ s.dec.state)
    (hs : s.dec.state = .idle ∨ s.dec.state = .done ∨ s.dec.state = .failed) :
    ∃ n, i = .decInit n ∧ (badWidth n = true → t.dec.state = .idle) := by
  cases h with
  | decInitBad n => exact ⟨n, rfl, fun _ => rfl⟩
  | decInit n _ hn => exact ⟨n, rfl, fun hbad => by simp [hn] at hbad⟩
  | decRun view => simp [decRunOn_of_terminal hs] at hmoved
  | decOctet b hat ht =>
    rw [hat.2.2] at hs
    rcases ht with rfl | rfl <;> simp at hs
  | answer | encInitBad | encInit | encRun | enc1 | encOctet | encSettle | encNoRoom =>
    exact absurd rfl hmoved

theorem Move.encInit_of_terminal (h : Move i s t) (hmoved : t.enc.state ≠ s.enc.state)
    (hs : s.enc.state = .idle ∨ s.enc.state = .done) :
    ∃ value n, i = .encInit value n ∧ (badWidth n = true → t.enc.state = .idle) := by
  cases h with
  | encInitBad value n => exact ⟨value, n, rfl, fun _ => rfl⟩
  | encInit value n _ hn => exact ⟨value, n, rfl, fun hbad => by simp [hn] at hbad⟩
  | encRun _ hx => simp [encRunOn_of_terminal hs hx] at hmoved
  | encOctet _ _ hidle hdone => rcases hs with hs | hs <;> contradiction
  | encSettle _ hc => simp [hc] at hs
  | decOctet b => simp [(decMicro_only b _ s).enc] at hmoved
  | answer | decInitBad | decInit | decRun | enc1 | encNoRoom => exact absurd rfl hmoved

theorem Move.dec_N (h : Move i s t) (hi : ∀ n, i ≠ .decInit n) : t.dec.N = s.dec.N := by
  cases h with
  | decInitBad n => exact absurd rfl (hi n)
  | decInit n => exact absurd rfl (hi n)
  | decRun view => exact decRunOn_N view s.dec
  | decOctet b => exact (decMicro_only b _ s).width
  | answer | encInitBad | encInit | encRun | enc1 | encOctet | encSettle | encNoRoom => rfl

theorem Move.enc_N (h : Move i s t) (hi : ∀ value n, i ≠ .encInit value n) : t.enc.N = s.enc.N := by
  cases h with
  | encInitBad value n => exact absurd rfl (hi value n)
  | encInit value n => exact absurd rfl (hi value n)
  | encRun _ hx => exact encRunOn_N hx
  | encOctet _ _ hidle hdone hx => exact (eOctetOn_ok hidle hdone hx).1
  | decOctet b => rw [(decMicro_only b _ s).enc]
  | answer | decInitBad | decInit | decRun | enc1 | encSettle | encNoRoom => rfl

end

/-- Settles O33: the only move out of these states is a construction, and out of Idle a bad `n` does
not lead. -/
theorem terminalDecoderStatesAreLeftByInitOnly :
    Obligations.TerminalDecoderStatesAreLeftByInitOnly := by
  intro i s t h hmoved
  refine ⟨fun hs => ?_, fun hs => ?_⟩
  · obtain ⟨n, hi, -⟩ := (move_of_exec h).decInit_of_terminal hmoved (.inr hs)
    exact ⟨n, hi⟩
  · obtain ⟨n, hi, hbad⟩ := (move_of_exec h).decInit_of_terminal hmoved (.inl hs)
    have hn : badWidth n = false := Bool.eq_false_iff.2 fun hn => hmoved ((hbad hn).trans hs.symm)
    exact ⟨n, hi, legal_of_badWidth_false hn⟩

/-- Settles O60: likewise for the encoder. -/
theorem terminalEncoderStatesAreLeftByInitOnly :
    Obligations.TerminalEncoderStatesAreLeftByInitOnly := by
  intro i s t h hmoved
  refine ⟨fun hs => ?_, fun hs => ?_⟩
  · obtain ⟨value, n, hi, -⟩ := (move_of_exec h).encInit_of_terminal hmoved (.inr hs)
    exact ⟨value, n, hi⟩
  · obtain ⟨value, n, hi, hbad⟩ := (move_of_exec h).encInit_of_terminal hmoved (.inl hs)
    have hn : badWidth n = false := Bool.eq_false_iff.2 fun hn => hmoved ((hbad hn).trans hs.symm)
    exact ⟨value, n, hi, legal_of_badWidth_false hn⟩

/-- Settles O34: no move but a construction writes a width register. -/
theorem widthsAreWrittenByInitOnly : Obligations.WidthsAreWrittenByInitOnly :=
  fun _ _ _ h => ⟨(move_of_exec h).dec_N, (move_of_exec h).enc_N⟩

/-! ## Legal states (R29) -/

/-- Settles O7: Idle, with nothing written and no operation in progress. -/
theorem resetIsLegal : Obligations.ResetIsLegal :=
  ⟨by decide, by decide, reset_mem_wf, by simp [State.reset], by simp [State.reset]⟩

theorem decRunOn_legal {d : Decoder} (h : d.legal) (view : List Octet) : (decRunOn view d).d.legal := by
  rcases decRunOn_cases view d with ⟨err, -, hr⟩ | ⟨hp, hr⟩ <;> rw [hr]
  · exact h
  · obtain ⟨-, hi, hf, -⟩ := decPrecheck_none hp
    exact (decLoop_legal view 0 d h hi hf).1

theorem freshDecoder_legal {n : Width} (hn : badWidth n = false) : (freshDecoder n).legal :=
  ⟨fun _ => legal_of_badWidth_false hn, rfl, by simp [freshDecoder]⟩

theorem freshEncoder_legal {n : Width} (value : U64) (hn : badWidth n = false) :
    (freshEncoder value n).legal false :=
  ⟨fun _ => legal_of_badWidth_false hn, by simp [freshEncoder], by simp [freshEncoder]⟩

theorem encRunOn_legal {r : U64} {off cap : Nat} {e : Encoder} {m : Memory} {x : EncResult}
    (h : e.legal false) (hx : encRunOn r off cap e m = .ok x) : x.e.legal false := by
  rcases encRunOn_cases r off cap e m with ⟨err, -, hr⟩ | ⟨hp, hr⟩
  · cases hr.symm.trans hx; exact h
  · obtain ⟨hi, -, -⟩ := encPrecheck_none hp
    have hends := encLoop_ends hi (hr.symm.trans hx)
    exact ⟨fun _ => hends.width ▸ h.1 hi, fun hs _ => hends.settled hs, hends.final_lt h.2.2⟩

theorem encRunOn_wf {r : U64} {off cap : Nat} {e : Encoder} {m : Memory} {x : EncResult}
    (h : m.wf) (hx : encRunOn r off cap e m = .ok x) : Memory.wf x.mem := by
  rcases encRunOn_cases r off cap e m with ⟨err, -, hr⟩ | ⟨hp, hr⟩
  · cases hr.symm.trans hx; exact h
  · exact (encLoop_ends (encPrecheck_none hp).1 (hr.symm.trans hx)).canonical h

/-- The cursor moves on over an octet inside the view, and no octet leads back to First (R41, R111). -/
theorem decFlight_legal_succ {d : Decoder} {f : DecFlight} (hcur : f.cursor < f.view.length)
    (hs : d.state = .done ∨ d.state = .continuation) :
    ∀ g ∈ some { f with cursor := f.cursor + 1 }, DecFlight.legal d g := by
  rintro _ ⟨⟩
  rcases hs with hs | hs <;> exact ⟨by simp [hs], by simp [hs], hcur, by simp [hs]⟩

theorem decMicro_legal {d : DecTag} {f : DecFlight} {s : State} (b : Octet) (h : s.legal)
    (hat : AtOctet d f s) (hd : d = .first ∨ d = .continuation) : (decMicro b f s).legal := by
  obtain ⟨hdec, henc, hmem, -, hef⟩ := h
  obtain ⟨-, hcur, hs⟩ := hat
  rcases hd with rfl | rfl
  · rw [decMicro_first hs]
    exact ⟨dFirstOn_legal b hdec (by simp [hs]), henc, hmem,
      decFlight_legal_succ hcur (dFirstOn_state b s.dec), hef⟩
  · cases ho : overflows b s.dec with
    | false =>
      rw [decMicro_accepts hs ho]
      exact ⟨dContOn_legal hdec hs ho, henc, hmem,
        decFlight_legal_succ hcur (dContOn_done_or_continuation b s.dec), hef⟩
    | true =>
      rw [decMicro_overflows hs ho]
      exact ⟨⟨fun _ => hdec.1 (by simp [hs]), hdec.2.1, by simp⟩, henc, hmem, by simp, hef⟩

theorem afterOctet_legal {s : State} {f : EncFlight} {x : EncStep} {r : U64} {a : Nat} (h : s.legal)
    (hroom : f.cursor < f.cap) (hidle : s.enc.state ≠ .idle) (hdone : s.enc.state ≠ .done)
    (hx : eOctetOn r a s.enc s.mem = .ok x) : (afterOctet x f s).legal := by
  obtain ⟨hdec, henc, hmem, hdf, -⟩ := h
  obtain ⟨hN, ⟨b, hb⟩, hst⟩ := eOctetOn_ok hidle hdone hx
  have hs : x.e.state = .done ∨ x.e.state = .continuation := hst.imp_right And.left
  refine ⟨hdec, ⟨fun _ => hN ▸ henc.1 hidle, fun _ hfree => by simp at hfree, ?_⟩,
    by rw [afterOctet_mem, hb]; exact Memory.write_wf a b hmem, hdf, ?_⟩
  · rcases hs with hs | hs <;> simp [hs]
  · rintro _ ⟨⟩
    rcases hs with hs | hs <;> exact ⟨by simp [hs], hroom, by simp [hs]⟩

/-- Every move keeps the invariant. -/
theorem Move.legal {i : Instr} {s t : State} (hmove : Move i s t) (h : s.legal) : t.legal := by
  obtain ⟨hdec, henc, hmem, hdf, hef⟩ := id h
  cases hmove with
  | answer => exact h
  | decInitBad _ hfree => exact ⟨⟨by simp, hdec.2.1, by simp⟩, henc, hmem, by simp [hfree], hef⟩
  | decInit n hfree hn => exact ⟨freshDecoder_legal hn, henc, hmem, by simp [hfree], hef⟩
  | decRun view hfree => exact ⟨decRunOn_legal hdec view, henc, hmem, by simp [hfree], hef⟩
  | decOctet b hat ht => exact decMicro_legal b h hat ht
  | encInitBad _ _ hfree => exact ⟨hdec, ⟨by simp, by simp, by simp⟩, hmem, hdf, by simp [hfree]⟩
  | encInit value n hfree hn =>
    exact ⟨hdec, by simpa [hfree] using freshEncoder_legal value hn, hmem, hdf, by simp [hfree]⟩
  | encRun hfree hx =>
    rw [hfree] at henc
    exact ⟨hdec, by simpa [hfree] using encRunOn_legal henc hx, encRunOn_wf hmem hx, hdf,
      by simp [hfree]⟩
  | enc1 hx => exact ⟨hdec, henc, encRunOn_wf hmem hx, hdf, hef⟩
  | encOctet hf hroom hidle hdone hx => exact afterOctet_legal h hroom hidle hdone hx
  | encSettle hf hs hrem =>
    refine ⟨hdec, ⟨fun _ => henc.1 (by simp [hs]), by simp, fun _ => hrem⟩, hmem, hdf, ?_⟩
    exact fun g hg => ⟨by simp, (hef g hg).2.1, by simp⟩
  | encNoRoom hf hroom hs =>
    refine ⟨hdec, ⟨henc.1, fun hc _ => ?_, henc.2.2⟩, hmem, hdf, by simp⟩
    rcases hs with ⟨-, hrem⟩ | hfinal
    · exact hrem
    · simp [hfinal] at hc

theorem runWord_legal {w : InstrWord} {s t : State} (h : s.legal) (ht : runWord w s = .next t) :
    t.legal := by
  simp only [runWord] at ht
  split at ht
  · cases ht
  · exact (move_of_exec ht).legal h

/-- A return frees the unit; the registers stay (R110). -/
theorem tickDec_legal {s t : State} (h : s.legal) (ht : tickDec s = .next t) : t.legal := by
  obtain ⟨hdec, henc, hmem, -, hef⟩ := id h
  simp only [tickDec] at ht
  split at ht
  · cases ht; exact h
  · split at ht
    · cases ht; exact ⟨hdec, henc, hmem, by simp, hef⟩
    · split at ht
      · cases ht; exact ⟨hdec, henc, hmem, by simp, hef⟩
      · exact runWord_legal h ht

theorem tickEnc_legal {s t : State} (h : s.legal) (ht : tickEnc s = .next t) : t.legal := by
  obtain ⟨hdec, henc, hmem, hdf, -⟩ := id h
  simp only [tickEnc] at ht
  split at ht
  · cases ht; exact h
  · split at ht
    next hdone => cases ht; exact ⟨hdec, ⟨henc.1, by simp [hdone], henc.2.2⟩, hmem, hdf, by simp⟩
    · exact runWord_legal h ht

/-- A `DEC.RUN` begun passed the checks: the decoder was constructed, and there is an octet to read
(R41, R111). -/
theorem beginDecRun_legal {view : List Octet} {s t : State} (h : s.legal)
    (ht : beginDecRun view s = .next t) : t.legal := by
  obtain ⟨hdec, henc, hmem, -, hef⟩ := id h
  simp only [beginDecRun] at ht
  split at ht
  · cases ht
  · split at ht <;> cases ht
    · exact h
    next hp =>
      obtain ⟨hview, hidle, hfailed, -⟩ := decPrecheck_none hp
      refine ⟨hdec, henc, hmem, ?_, hef⟩
      rintro _ ⟨⟩
      exact ⟨hidle, hfailed, Nat.zero_le _, fun _ => ⟨rfl, List.length_pos_iff.2 hview⟩⟩

theorem beginEncRun_legal {off cap : Nat} {s t : State} (h : s.legal)
    (ht : beginEncRun off cap s = .next t) : t.legal := by
  obtain ⟨hdec, henc, hmem, hdf, -⟩ := id h
  simp only [beginEncRun] at ht
  split at ht
  · cases ht
  · split at ht <;> cases ht
    · exact h
    next hp =>
      obtain ⟨hidle, -, hcap⟩ := encPrecheck_none hp
      refine ⟨hdec, ⟨henc.1, by simp, henc.2.2⟩, hmem, hdf, ?_⟩
      rintro _ ⟨⟩
      exact ⟨hidle, Nat.zero_le _, fun _ => ⟨rfl, hcap⟩⟩

theorem beginInstr_legal {i : Instr} {s t : State} (h : s.legal) (ht : beginInstr i s = .next t) :
    t.legal := by
  unfold beginInstr at ht
  split at ht
  · exact beginDecRun_legal h ht
  · exact beginEncRun_legal h ht
  · exact (move_of_exec ht).legal h

theorem hostWrite_legal {a : Nat} {b : Octet} {s t : State} (h : s.legal)
    (ht : hostWrite a b s = .next t) : t.legal := by
  obtain ⟨hdec, henc, hmem, hdf, hef⟩ := h
  have hwf := Memory.write_wf a b hmem
  simp only [hostWrite] at ht
  split at ht
  · cases ht; exact ⟨hdec, henc, hwf, hdf, hef⟩
  · split at ht <;> cases ht
    exact ⟨hdec, henc, hwf, hdf, hef⟩

theorem tick_legal {u : UnitId} {s t : State} (h : s.legal) (ht : tick u s = .next t) : t.legal := by
  cases u with
  | decoder => exact tickDec_legal h ht
  | encoder => exact tickEnc_legal h ht

theorem perform_legal {act : HostAct} {s t : State} (h : s.legal) (ht : perform act s = .next t) :
    t.legal := by
  cases act with
  | issue p => exact runWord_legal h ht
  | issueStepwise p =>
    simp only [perform] at ht
    split at ht
    · cases ht
    · exact beginInstr_legal h ht
  | tick u => exact tick_legal h ht
  | hostWrite a b => exact hostWrite_legal h ht

/-- Settles O8: whatever the step carries out, an act of the host or a pass, keeps the invariant; the
host's list is no part of it. -/
theorem stepKeepsLegal : Obligations.StepKeepsLegal := by
  intro s t h ht
  cases hp : s.pending with
  | cons act rest =>
    rw [step_of_pending_cons hp] at ht
    exact perform_legal (s := { s with pending := rest }) h ht
  | nil =>
    rw [step_of_pending_nil hp, unattended] at ht
    split at ht
    · exact tickDec_legal h ht
    · exact tickEnc_legal h ht

/-! ## Whole runs of the decoder (R23, R109 to R115) -/

/-- Settles O26: by what a run of the registers gives, whatever the view. -/
theorem decRunCompletesWithFrame : Obligations.DecRunCompletesWithFrame := by
  intro view s hf
  refine decRun_leads hf rfl ⟨decRunOn_cnt_le view s.dec, decDone_iff _, fun hdone => ?_,
    decRunOn_N view s.dec, rfl, rfl, hf, rfl, rfl⟩
  exact finishDec_valOut _ _ ((decDone_iff _).1 hdone)

/-- What is neither Idle nor ended waits for an octet. -/
theorem waits_of_ne {d : Decoder} (hi : d.state ≠ .idle) (hf : d.state ≠ .failed)
    (hd : d.state ≠ .done) : d.state = .first ∨ d.state = .continuation := by
  cases hs : d.state <;> simp_all

/-- A run short of octets on a view that is not empty is one of the loop (R111). -/
theorem decRunOn_needsMore {view : List Octet} {d : Decoder} (hview : view ≠ [])
    (h : (decRunOn view d).err = .needsMore) :
    (decRunOn view d).cnt = view.length ∧ (decRunOn view d).d.state = .continuation := by
  rcases decRunOn_cases view d with ⟨err, hp, hr⟩ | ⟨hp, hr⟩ <;> rw [hr] at h ⊢
  · rcases decPrecheck_some hp with ⟨-, rfl⟩ | ⟨-, rfl⟩ | ⟨-, -, hnil, -⟩ | ⟨-, -, rfl⟩
    · cases h
    · cases h
    · exact absurd hnil hview
    · cases h
  · obtain ⟨-, hi, hf, -⟩ := decPrecheck_none hp
    have hends := decLoop_ends view 0 d hi hf
    obtain ⟨hcnt, hdone, hfailed⟩ := hends.more_iff.1 h
    have hfirst := mt hends.first_iff.1 (fun h => hview h.2)
    exact ⟨by omega, (waits_of_ne hends.instanceKept hfailed hdone).resolve_left hfirst⟩

/-- The next state of a `DEC.RUN`, where there is one. -/
theorem exec_decRun_next {view : List Octet} {s t : State} (h : exec (.decRun view) s = .next t) :
    t = finishDec (decRunOn view s.dec) { s with dec := (decRunOn view s.dec).d } := by
  cases (execDecRun_eq view (decFlight_none_of_decRun h)).symm.trans h
  rfl

/-- Settles O27: the loop asks for more only when the view is used up. -/
theorem decRunNeedsMoreConsumedAll : Obligations.DecRunNeedsMoreConsumedAll := by
  intro view s t _ hview h herr
  cases exec_decRun_next h
  obtain ⟨hcnt, hs⟩ := decRunOn_needsMore hview herr
  exact ⟨hcnt, hs, by simp [decDone, hs]⟩

/-! ### The octets a run reads (R112) -/

/-- How many octets of the view a run read: those it counted, and the offending one (R106). -/
def DecResult.octetsRead (r : DecResult) : Nat := if r.err = .tooLarge then r.cnt + 1 else r.cnt

/-- Where the loop starts counting plays no part but in the count. -/
theorem decLoop_start (bs : List Octet) (i : Nat) (d : Decoder) :
    decLoop bs i d =
      ⟨(decLoop bs 0 d).d, i + (decLoop bs 0 d).cnt, (decLoop bs 0 d).err⟩ := by
  induction bs generalizing i d with
  | nil => simp only [decLoop]; split <;> rfl
  | cons b bs ih =>
    simp only [decLoop]
    split
    · rfl
    · split
      · rw [ih, ih 1]; simp [Nat.add_assoc]
      · split
        · rfl
        · rw [ih, ih 1]; simp [Nat.add_assoc]

theorem octetsRead_start (bs : List Octet) (i : Nat) (d : Decoder) :
    (decLoop bs i d).octetsRead = i + (decLoop bs 0 d).octetsRead := by
  rw [decLoop_start, DecResult.octetsRead, DecResult.octetsRead]
  dsimp only
  split <;> omega

theorem octetsRead_le {bs : List Octet} {i : Nat} {d : Decoder} {r : DecResult}
    (h : DecLoopEnds bs i d r) : r.octetsRead ≤ i + bs.length := by
  rw [DecResult.octetsRead]
  split
  · exact h.large_lt ‹_›
  · exact h.cnt_le

/-- The octets a run read are enough for it. -/
theorem decLoop_take_octetsRead (bs : List Octet) (d : Decoder) :
    decLoop (bs.take (decLoop bs 0 d).octetsRead) 0 d = decLoop bs 0 d := by
  induction bs generalizing d with
  | nil => rw [List.take_nil]
  | cons b bs ih =>
    have hnext (d' : Decoder) :
        decLoop (bs.take (decLoop bs 0 d').octetsRead) 1 d' = decLoop bs 1 d' := by
      rw [decLoop_start, ih, ← decLoop_start]
    by_cases hd : d.state = .done
    · simp [decLoop_of_done, hd]
    · by_cases hf : d.state = .first
      · have hstep (bs : List Octet) : decLoop (b :: bs) 0 d = decLoop bs 1 (dFirstOn b d) := by
          simp [decLoop, hf]
        rw [hstep, octetsRead_start, Nat.add_comm, List.take_succ_cons, hstep, hnext]
      · by_cases ho : overflows b d = true
        · simp [decLoop, hd, hf, ho, DecResult.octetsRead]
        · have hstep (bs : List Octet) : decLoop (b :: bs) 0 d = decLoop bs 1 (dContOn b d) := by
            simp [decLoop, hd, hf, ho]
          rw [hstep, octetsRead_start, Nat.add_comm, List.take_succ_cons, hstep, hnext]

/-- Once the integer has ended or failed, whatever follows the octets read plays no part. -/
theorem decLoop_take_append {bs : List Octet} {d : Decoder}
    (hended : (decLoop bs 0 d).err ≠ .needsMore) (extra : List Octet) :
    decLoop (bs.take (decLoop bs 0 d).octetsRead ++ extra) 0 d = decLoop bs 0 d := by
  rw [decLoop_append, decLoop_take_octetsRead, if_neg hended]

/-- Over the empty view nothing changes and nothing is counted, whatever the state (R101, R102). -/
theorem decRunOn_nil (d : Decoder) : ∃ err, decRunOn [] d = ⟨d, 0, err⟩ := by
  rcases decRunOn_cases [] d with ⟨err, -, hr⟩ | ⟨hp, -⟩
  · exact ⟨err, hr⟩
  · exact absurd rfl (decPrecheck_none hp).1

/-- A decoder that waits for an octet runs as the loop does, over the empty view too. -/
theorem decRunOn_eq_decLoop {d : Decoder} (hs : d.state = .first ∨ d.state = .continuation)
    (view : List Octet) : decRunOn view d = decLoop view 0 d := by
  rcases hs with hs | hs
  · cases view <;> simp [decRunOn, decPrecheck, decLoop, hs]
  · exact decRunOn_continuation hs view

/-- Settles O28: the run was one of the loop, which the octets it counted are enough for. -/
theorem octetsPastTheEndPlayNoPart : Obligations.OctetsPastTheEndPlayNoPart := by
  intro view extra s t hf hs h hdone
  cases exec_decRun_next h
  rw [finishDec_dec] at hdone
  rcases decRunOn_cases view s.dec with ⟨err, -, hr⟩ | ⟨hp, hr⟩
  · rw [hr] at hdone; exact absurd hdone hs
  · obtain ⟨-, hi, hfailed, -⟩ := decPrecheck_none hp
    have hwaits := waits_of_ne hi hfailed hs
    rw [hr] at hdone
    have hnone := (decLoop_ends view 0 s.dec hi hfailed).none_iff.2 hdone
    have hsame := decLoop_take_append (bs := view) (d := s.dec) (by simp [hnone]) extra
    have hread : (decLoop view 0 s.dec).octetsRead = (decLoop view 0 s.dec).cnt := by
      simp [DecResult.octetsRead, hnone]
    rw [hread] at hsame
    refine (execDecRun_eq _ hf).trans ?_
    rw [finishDec_cnt, hr, decRunOn_eq_decLoop hwaits, hsame]

/-! ### Resumability (R115) -/

/-- Pieces with nothing in them change nothing (R102). -/
theorem decRuns_of_flatten_nil {pieces : List (List Octet)} (h : pieces.flatten = []) (c : Nat)
    {s : State} (hf : s.decFlight = none) :
    ∃ u, decRuns pieces c s = some (c, u) ∧ u.dec = s.dec := by
  induction pieces generalizing s with
  | nil => exact ⟨s, rfl, rfl⟩
  | cons p ps ih =>
    obtain ⟨rfl, hps⟩ := List.append_eq_nil_iff.1 h
    obtain ⟨err, hr⟩ := decRunOn_nil s.dec
    obtain ⟨u, hu, hdec⟩ := ih hps (s := finishDec ⟨s.dec, 0, err⟩ s) hf
    refine ⟨u, ?_, hdec⟩
    have hexec : exec (.decRun []) s = .next (finishDec ⟨s.dec, 0, err⟩ s) :=
      (execDecRun_eq [] hf).trans (by rw [hr])
    simp only [decRuns, hexec]
    exact hu

/-- A decoder that asks for more waits for an octet (R111). -/
theorem waits_of_needsMore {bs : List Octet} {i : Nat} {d : Decoder} {r : DecResult}
    (h : DecLoopEnds bs i d r) (hmore : r.err = .needsMore) :
    r.d.state = .first ∨ r.d.state = .continuation := by
  obtain ⟨-, hdone, hfailed⟩ := h.more_iff.1 hmore
  exact waits_of_ne h.instanceKept hfailed hdone

/-- Pieces that hold no more than the octets read give what one call over them all gives. -/
theorem decRuns_eq_decLoop (pieces : List (List Octet)) (c : Nat) {s : State}
    (hf : s.decFlight = none) (hs : s.dec.state = .first ∨ s.dec.state = .continuation)
    (hread : (decLoop pieces.flatten 0 s.dec).octetsRead = pieces.flatten.length) :
    ∃ u, decRuns pieces c s = some (c + (decLoop pieces.flatten 0 s.dec).cnt, u) ∧
      u.dec = (decLoop pieces.flatten 0 s.dec).d := by
  induction pieces generalizing c s with
  | nil =>
    have hnil : decLoop [] 0 s.dec = ⟨s.dec, 0, .needsMore⟩ := by
      rcases hs with hs | hs <;> simp [decLoop, hs]
    exact ⟨s, by rw [List.flatten_nil, hnil]; rfl, by rw [List.flatten_nil, hnil]⟩
  | cons p ps ih =>
    have hends := decLoop_ends p 0 s.dec (by rcases hs with hs | hs <;> simp [hs])
      (by rcases hs with hs | hs <;> simp [hs])
    have hexec := execDecRun_eq p hf
    rw [decRunOn_eq_decLoop hs] at hexec
    rw [List.flatten_cons, decLoop_append] at hread ⊢
    rw [List.length_append] at hread
    generalize decLoop p 0 s.dec = r at *
    have hruns : decRuns (p :: ps) c s =
        decRuns ps (c + r.cnt) (finishDec r { s with dec := r.d }) := by
      simp only [decRuns, exec, hexec, finishDec_cnt]
    rw [hruns]
    by_cases hmore : r.err = .needsMore
    · obtain ⟨hcnt, -⟩ := hends.more_iff.1 hmore
      rw [if_pos hmore, octetsRead_start] at hread
      rw [if_pos hmore, decLoop_start, ← Nat.add_assoc]
      exact ih _ (s := finishDec r { s with dec := r.d }) hf (waits_of_needsMore hends hmore)
        (by simp only [finishDec_dec]; omega)
    · have hle := octetsRead_le hends
      rw [if_neg hmore] at hread ⊢
      exact decRuns_of_flatten_nil (List.length_eq_zero_iff.1 (by omega)) _
        (s := finishDec r { s with dec := r.d }) hf

/-- Settles O36: the octets read, cut into pieces, hold no more than those read. -/
theorem decoderIsResumable : Obligations.DecoderIsResumable := by
  intro n s stream pieces t _ _ hf hfresh h hpieces
  have hs : s.dec.state = .first ∨ s.dec.state = .continuation := .inl (by rw [hfresh]; rfl)
  have hends := decLoop_ends stream 0 s.dec (by simp [hfresh, freshDecoder])
    (by simp [hfresh, freshDecoder])
  cases exec_decRun_next h
  simp only [decRunOn_eq_decLoop hs, finishDec_err, finishDec_cnt, finishDec_dec] at hpieces ⊢
  have hflatten : pieces.flatten = stream.take (decLoop stream 0 s.dec).octetsRead := hpieces
  have hrun := decLoop_take_octetsRead stream s.dec
  have hlen := octetsRead_le hends
  rw [← hflatten] at hrun
  obtain ⟨u, hu, hdec⟩ := decRuns_eq_decLoop pieces 0 hf hs (by
    rw [hrun, hflatten, List.length_take]; omega)
  rw [hrun, Nat.zero_add] at hu
  exact ⟨u, hu, hdec.trans (by rw [hrun])⟩

/-! ### A saturated shift register (R24, R109) -/

/-- The two registers differ at most in `D.M`, and there only from 70 on. -/
structure SameUpToSaturation (d d' : Decoder) : Prop where
  state : d'.state = d.state
  N : d'.N = d.N
  v : d'.v = d.v
  M : min d'.M 70 = min d.M 70

/-- Registers that agree up to saturation, with the same `cnt` and `err`. -/
structure SameAnswer (r r' : DecResult) : Prop where
  regs : SameUpToSaturation r.d r'.d
  cnt : r'.cnt = r.cnt
  err : r'.err = r.err

section
variable {d d' : Decoder} (h : SameUpToSaturation d d')
include h

theorem SameUpToSaturation.overflows_eq (b : Octet) : overflows b d' = overflows b d := by
  have hsat : { d' with M := min d'.M 70 } = { d with M := min d.M 70 } := by
    rw [Decoder.mk.injEq]; exact ⟨h.state, h.N, h.v, h.M⟩
  rw [overflows_saturated b d', overflows_saturated b d, hsat]

/-- Where the sum fits the contributions agree: past shift 70 they are both 0. -/
theorem SameUpToSaturation.contribution_eq {b : Octet} (ho : overflows b d = false) :
    contribution b d'.M = contribution b d.M := by
  have hM := h.M
  by_cases hlt : d.M < 70
  · rw [show d'.M = d.M by omega]
  · by_cases hb : b.toNat % 128 = 0
    · rw [contribution, contribution, payload_eq, hb, Nat.zero_mul, Nat.zero_mul]
    · rw [overflows_of_seventy_le (by omega) (by omega)] at ho
      cases ho

theorem SameUpToSaturation.after_dFirstOn (b : Octet) :
    SameUpToSaturation (dFirstOn b d) (dFirstOn b d') := by
  obtain ⟨-, hN, -, hM⟩ := h
  simp only [dFirstOn, hN]
  split
  · exact ⟨rfl, rfl, rfl, hM⟩
  · exact ⟨rfl, rfl, rfl, rfl⟩

theorem SameUpToSaturation.after_dContOn {b : Octet} (ho : overflows b d = false) :
    SameUpToSaturation (dContOn b d) (dContOn b d') := by
  have hM := h.M
  refine ⟨rfl, h.N, ?_, by rw [dContOn_M, dContOn_M]; omega⟩
  simp only [dContOn, h.v, h.contribution_eq ho]

theorem SameUpToSaturation.after_decLoop (bs : List Octet) (i : Nat) :
    SameAnswer (decLoop bs i d) (decLoop bs i d') := by
  induction bs generalizing i d d' with
  | nil =>
    simp only [decLoop, h.state]
    split <;> exact ⟨h, rfl, rfl⟩
  | cons b bs ih =>
    simp only [decLoop, h.state, h.overflows_eq]
    split
    · exact ⟨h, rfl, rfl⟩
    · split
      · exact ih (h.after_dFirstOn b) _
      · split
        · exact ⟨⟨rfl, h.N, h.v, h.M⟩, rfl, rfl⟩
        next ho => exact ih (h.after_dContOn (Bool.eq_false_iff.2 ho)) _

theorem SameUpToSaturation.after_decRunOn (view : List Octet) :
    SameAnswer (decRunOn view d) (decRunOn view d') := by
  have hp : decPrecheck view d' = decPrecheck view d := by simp only [decPrecheck, h.state]
  rcases decRunOn_cases view d with ⟨err, hq, hr⟩ | ⟨hq, hr⟩
  · rw [hr, decRunOn_of_precheck (hp.trans hq)]
    exact ⟨h, rfl, rfl⟩
  · rw [hr, decRunOn, hp, hq]
    exact h.after_decLoop view 0

end

/-- The result ports show nothing of `D.M`. -/
theorem SameAnswer.out_eq {r r' : DecResult} (h : SameAnswer r r') {s s' : State}
    (hdraws : s'.draws = s.draws) : (finishDec r' s').out = (finishDec r s).out := by
  have hdone : decDone r'.d = decDone r.d := by rw [decDone, h.regs.state, decDone]
  have hvalue : decValue r'.d = decValue r.d := by rw [decValue, hdone, h.regs.v, decValue]
  simp only [finishDec, finish, hdone, hvalue, h.cnt, h.err, hdraws]

/-- Settles O31: every micro-step keeps the registers alike up to saturation. -/
theorem saturatingShiftIsExact : Obligations.SaturatingShiftIsExact := by
  intro view s t u _ _ ht hu
  cases exec_decRun_next ht
  cases exec_decRun_next hu
  have hsame : SameUpToSaturation s.dec { s.dec with M := min s.dec.M 70 } :=
    ⟨rfl, rfl, rfl, by dsimp only; omega⟩
  have hanswer := hsame.after_decRunOn view
  exact ⟨hanswer.out_eq rfl, hanswer.regs.state, hanswer.regs.v, hanswer.regs.M⟩

/-! ### The accumulator (R23, R107) -/

/-- On an octet 0 of class SHORT the accumulator is the value field, and `D.M` stays (R104). -/
theorem decRunOn_short_regs {d : Decoder} {b : Octet} (hs : d.state = .first) (h8 : d.N.toNat ≤ 8)
    (hb : b.toNat % 2 ^ d.N.toNat < maxp d.N) (extra : List Octet) :
    (decRunOn (b :: extra) d).d.v.toNat = b.toNat % 2 ^ d.N.toNat ∧
      (decRunOn (b :: extra) d).d.M = d.M := by
  have hm := maxp_le h8
  rw [decRunOn_first hs]
  rcases dFirstOn_cases b h8 with ⟨-, he⟩ | ⟨heq, -⟩
  · rw [he, decLoop_of_done extra 1 rfl]
    exact ⟨Nat.mod_eq_of_lt (by omega), rfl⟩
  · omega

/-- On an octet 0 of class LONG the accumulator is the sum that the octets counted spell (R73, R107). -/
theorem decRunOn_long_regs {d : Decoder} {b : Octet} (hs : d.state = .first) (h8 : d.N.toNat ≤ 8)
    (hb : b.toNat % 2 ^ d.N.toNat = maxp d.N) (conts : List Octet) :
    1 ≤ (decRunOn (b :: conts) d).cnt ∧
      (decRunOn (b :: conts) d).d.v.toNat =
        assembled d.N (conts.take ((decRunOn (b :: conts) d).cnt - 1)) ∧
      (decRunOn (b :: conts) d).d.M = 7 * ((decRunOn (b :: conts) d).cnt - 1) := by
  have hle := (decLoop_ends conts 1 d.afterLong (by simp [Decoder.afterLong])
    (by simp [Decoder.afterLong])).start_le
  obtain ⟨hv, hM, -⟩ := decLoop_sum conts 1 d.afterLong rfl
  rw [afterLong_sum h8] at hv
  rw [decRunOn_long hs h8 hb]
  exact ⟨hle, hv, hM.trans (Nat.zero_add _)⟩

/-- The octet that ends a run with TooLarge is the first not counted, and its sum does not fit (R106). -/
theorem decRunOn_tooLarge {d : Decoder} {view : List Octet}
    (hs : d.state = .continuation ∨ d.state = .first) (h : (decRunOn view d).err = .tooLarge) :
    ∃ b, view[(decRunOn view d).cnt]? = some b ∧ overflows b (decRunOn view d).d = true := by
  rcases hs with hs | hs
  · rw [decRunOn_continuation hs] at h ⊢
    exact (decLoop_sum view 0 d hs).2.2 h
  · cases view with
    | nil => simp [decRunOn, decPrecheck, hs] at h
    | cons b0 conts =>
      rw [decRunOn_first hs] at h ⊢
      rcases dFirstOn_state b0 d with hst | hst
      · simp [decLoop_of_done, hst] at h
      · have hle := (decLoop_ends conts 1 (dFirstOn b0 d) (by simp [hst]) (by simp [hst])).start_le
        obtain ⟨-, -, hlarge⟩ := decLoop_sum conts 1 (dFirstOn b0 d) hst
        obtain ⟨b, hb, ho⟩ := hlarge h
        refine ⟨b, ?_, ho⟩
        obtain ⟨k, hk⟩ := Nat.exists_eq_add_of_le' hle
        rw [hk] at hb ⊢
        exact hb

/-- Settles O32: from Continuation by the loop's sum, from First by the class of octet 0. -/
theorem accumulatorNeverWraps : Obligations.AccumulatorNeverWraps := by
  intro view s t h
  cases exec_decRun_next h
  refine ⟨fun hs => ?_, fun b0 conts hs _ h8 hview => ?_, fun hs herr => ?_, fun hs => ?_⟩
  · obtain ⟨hv, hM, -⟩ := decLoop_sum view 0 s.dec hs
    rw [← decRunOn_continuation hs] at hv hM
    exact ⟨hv, hM⟩
  · subst hview
    exact ⟨fun hshort => decRunOn_short_regs hs h8 hshort conts,
      fun hlong => decRunOn_long_regs hs h8 hlong conts⟩
  · obtain ⟨b, hb, ho⟩ := decRunOn_tooLarge hs herr
    have hbig := (overflows_iff b _).1 ho
    exact ⟨b, hb, by rw [u64Max]; exact Nat.lt_of_lt_of_le (by omega) hbig⟩
  · rw [finishDec_dec, decRunOn_of_terminal (by rcases hs with h | h | h <;> simp [h])]

/-! ## Whole runs of the encoder (R136, R141, R208) -/

/-- A run faults exactly where E.FIRST reads an octet that was never written (R208). -/
theorem encRunOn_error {r : U64} {off cap : Nat} {e : Encoder} {m : Memory} {f : Fault} :
    encRunOn r off cap e m = .error f ↔
      f = .unwrittenOctet ∧ e.state = .first ∧ e.N.toNat < 8 ∧ 0 < cap ∧ m.read off = none := by
  rcases encRunOn_cases r off cap e m with ⟨err, hp, hr⟩ | ⟨hp, hr⟩ <;> rw [hr]
  · refine ⟨fun h => (by cases h), fun ⟨_, hs, _, hcap, _⟩ => ?_⟩
    rcases encPrecheck_some hp with ⟨hidle, -⟩ | ⟨hdone, -⟩ | ⟨-, -, hzero, -⟩
    · simp [hs] at hidle
    · simp [hs] at hdone
    · omega
  · exact encLoop_error (encPrecheck_none hp).1

theorem encRunOn_cnt_le {r : U64} {off cap : Nat} {e : Encoder} {m : Memory} {x : EncResult}
    (hx : encRunOn r off cap e m = .ok x) : x.cnt ≤ cap := by
  rcases encRunOn_cases r off cap e m with ⟨err, -, hr⟩ | ⟨hp, hr⟩
  · cases hr.symm.trans hx; exact Nat.zero_le cap
  · have hle := (encLoop_ends (encPrecheck_none hp).1 (hr.symm.trans hx)).cnt_le
    omega

/-- No encode is too large (R150). -/
theorem encRunOn_err_ne_tooLarge {r : U64} {off cap : Nat} {e : Encoder} {m : Memory} {x : EncResult}
    (hx : encRunOn r off cap e m = .ok x) : x.err ≠ .tooLarge := by
  rcases encRunOn_cases r off cap e m with ⟨err, hp, hr⟩ | ⟨hp, hr⟩
  · cases hr.symm.trans hx
    rcases encPrecheck_some hp with ⟨-, rfl⟩ | ⟨-, rfl⟩ | ⟨-, -, -, rfl⟩ <;> simp
  · have hends := encLoop_ends (encPrecheck_none hp).1 (hr.symm.trans hx)
    by_cases hdone : x.e.state = .done
    · rw [hends.none_iff.2 hdone]; decide
    · rw [(hends.more hdone).1]; decide

/-- Settles O42: the run does not fault, and its frame is that of the run on the registers. -/
theorem encRunCompletesWithFrame : Obligations.EncRunCompletesWithFrame := by
  intro off cap s hf hwritten
  cases hx : encRunOn (Config.freeRem s.draws) off cap s.enc s.mem with
  | error f =>
    obtain ⟨-, hs, hN, hcap, hnone⟩ := encRunOn_error.1 hx
    exact absurd hnone (hwritten hs hN hcap)
  | ok x =>
    exact ⟨_, exec_encRun_eq hf hx, encRunOn_cnt_le hx, fun a => encRunOn_outside hx, encDone_iff _,
      encRunOn_err_ne_tooLarge hx, encRunOn_N hx, rfl, hf, rfl, rfl⟩

/-- In Final one octet of room is enough (R140). -/
theorem encLoop_final {r : U64} {room a w : Nat} {e : Encoder} (m : Memory) (hs : e.state = .final) :
    encLoop r (room + 1) a w e m =
      .ok ⟨eDone r e, (eFinalOn r a e m).mem, w + 1, .none⟩ := by
  have hsettle : eSettle e = e := by simp [eSettle, hs]
  simp only [encLoop, hs, hsettle, eOctetOn, reduceCtorEq, if_false]
  exact encLoop_of_done r room (a + 1) (w + 1) _ rfl

/-- A run short of room on a view that is not empty has filled it, and is settled (R141). -/
theorem encRunOn_needsMore {r : U64} {off cap : Nat} {e : Encoder} {m : Memory} {x : EncResult}
    (hcap : 1 ≤ cap) (hx : encRunOn r off cap e m = .ok x) (hmore : x.err = .needsMore) :
    x.cnt = cap ∧ (x.e.state = .continuation ∧ 128 ≤ x.e.rem.toNat ∨
      x.e.state = .final ∧ x.e.rem.toNat < 128) := by
  rcases encRunOn_cases r off cap e m with ⟨err, hp, hr⟩ | ⟨hp, hr⟩
  · cases hr.symm.trans hx
    rcases encPrecheck_some hp with ⟨-, rfl⟩ | ⟨-, rfl⟩ | ⟨-, -, hzero, -⟩
    · cases hmore
    · cases hmore
    · omega
  · obtain ⟨hidle, -, -⟩ := encPrecheck_none hp
    have hloop := hr.symm.trans hx
    have hends := encLoop_ends hidle hloop
    have hdone : x.e.state ≠ .done := by
      rw [ne_eq, ← hends.none_iff, hmore]; decide
    have hstart : e.state ≠ .final := by
      intro hs
      obtain ⟨room, rfl⟩ := Nat.exists_eq_add_of_le' hcap
      cases (encLoop_final m hs).symm.trans hloop
      exact hdone rfl
    obtain ⟨-, hcnt⟩ := hends.more hdone
    refine ⟨by omega, ?_⟩
    match hs : x.e.state with
    | .idle => exact absurd hs hends.instanceKept
    | .first => have := (hends.first_iff.1 hs).2; omega
    | .continuation => exact .inl ⟨rfl, hends.settled hs⟩
    | .final => exact .inr ⟨rfl, hends.final_lt (fun h => absurd h hstart) hs⟩
    | .done => exact absurd hs hdone

/-- Settles O44: by what the loop can end with. -/
theorem encRunNeedsMoreFilledTheView : Obligations.EncRunNeedsMoreFilledTheView := by
  intro off cap s t hf hcap h hmore
  obtain ⟨x, hx, rfl⟩ := execEncRun_next hf h
  exact encRunOn_needsMore hcap hx hmore

/-! ## The one fault (R208, log 5) -/

theorem execEncRun_fault {off cap : Nat} {s : State} {e : Fault} (hf : s.encFlight = none) :
    execEncRun off cap s = .fault e ↔
      encRunOn (Config.freeRem s.draws) off cap s.enc s.mem = .error e := by
  rw [execEncRun_eq off cap hf]
  cases encRunOn (Config.freeRem s.draws) off cap s.enc s.mem <;> simp

theorem execEnc1_fault {value : U64} {n : Width} {off cap : Nat} {s : State} {e : Fault}
    (hf : s.encFlight = none) :
    execEnc1 value n off cap s = .fault e ↔ badWidth n = false ∧
      encRunOn (Config.freeRem s.draws) off cap (freshEncoder value n) s.mem = .error e := by
  have huse : destinationInUse off cap s = false := by simp only [destinationInUse, hf]
  simp only [execEnc1, huse]
  cases badWidth n <;>
    cases encRunOn (Config.freeRem s.draws) off cap (freshEncoder value n) s.mem <;> simp

theorem execEFirst_fault {s : State} {f : EncFlight} {e : Fault} (hf : s.encFlight = some f) :
    execEFirst s = .fault e ↔ s.enc.state = .first ∧ f.cursor < f.cap ∧
      eFirstOn (Config.freeRem s.draws) (f.off + f.cursor) s.enc s.mem = .error e := by
  simp only [execEFirst, hf]
  split
  next hsel =>
    cases eFirstOn (Config.freeRem s.draws) (f.off + f.cursor) s.enc s.mem <;> simp [hsel]
  next hsel => simp; tauto

section
variable (s : State) (e : Fault)

theorem takeOctet_ne_fault (t : DecTag) (b : Octet) : takeOctet t b s ≠ .fault e := by
  simp only [takeOctet]
  split
  · simp
  · split <;> simp

theorem takeOctet0_ne_fault (n : Width) (b : Octet) : takeOctet0 n b s ≠ .fault e := by
  simp only [takeOctet0]
  split
  · exact takeOctet_ne_fault s e _ b
  · simp

theorem takeShort_ne_fault {k : Nat} (n : Width) (v : BitVec k) (b : Octet) :
    takeShort n v b s ≠ .fault e := by
  simp only [takeShort]
  split
  · exact takeOctet0_ne_fault s e n b
  · simp

theorem decMicroAtCursor_ne_fault (t : DecTag) : decMicroAtCursor t s ≠ .fault e := by
  simp only [decMicroAtCursor]
  split
  · simp
  · split
    · simp
    · split <;> simp

theorem execDecInit_ne_fault (n : Width) : execDecInit n s ≠ .fault e := by
  simp only [execDecInit]
  split_ifs <;> simp

theorem execDecRun_ne_fault (view : List Octet) : execDecRun view s ≠ .fault e := by
  simp only [execDecRun]
  split_ifs <;> simp

theorem execDec1_ne_fault (n : Width) (view : List Octet) : execDec1 n view s ≠ .fault e := by
  simp only [execDec1]
  split_ifs <;> simp

theorem execEncInit_ne_fault (value : U64) (n : Width) : execEncInit value n s ≠ .fault e := by
  simp only [execEncInit]
  split_ifs <;> simp

theorem execECont_ne_fault : execECont s ≠ .fault e := by
  simp only [execECont]
  split
  · simp
  · split_ifs <;> simp

theorem execEFinal_ne_fault : execEFinal s ≠ .fault e := by
  simp only [execEFinal]
  split
  · simp
  · split_ifs <;> simp

end

/-- Only the three instructions that run E.FIRST can fault (R208). -/
theorem exec_fault_only {i : Instr} {s : State} {e : Fault} (h : exec i s = .fault e) :
    i = .eFirst ∨ (∃ off cap, i = .encRun off cap) ∨ ∃ value n off cap, i = .enc1 value n off cap := by
  cases i with
  | eFirst => exact .inl rfl
  | encRun off cap => exact .inr (.inl ⟨off, cap, rfl⟩)
  | enc1 value n off cap => exact .inr (.inr ⟨value, n, off, cap, rfl⟩)
  | mpv n => cases (exec_mpv_eq n s).symm.trans h
  | roct value n => cases (exec_roct_eq value n s).symm.trans h
  | decInit n => exact absurd h (execDecInit_ne_fault s e n)
  | decRun view => exact absurd h (execDecRun_ne_fault s e view)
  | dec1 n view => exact absurd h (execDec1_ne_fault s e n view)
  | encInit value n => exact absurd h (execEncInit_ne_fault s e value n)
  | dFirst | dCont => exact absurd h (decMicroAtCursor_ne_fault s e _)
  | eCont => exact absurd h (execECont_ne_fault s e)
  | eFinal => exact absurd h (execEFinal_ne_fault s e)
  | octet0N1 | octet0N2 | octet0N3 | octet0N4 | octet0N5 | octet0N6 | octet0N7 | octet0N8
  | octet0N1Long | octet0N2Long | octet0N3Long | octet0N4Long | octet0N5Long | octet0N6Long
  | octet0N7Long | octet0N8Long => exact absurd h (takeOctet0_ne_fault s e _ _)
  | octet0N1Short | octet0N2Short | octet0N3Short | octet0N4Short | octet0N5Short | octet0N6Short
  | octet0N7Short | octet0N8Short => exact absurd h (takeShort_ne_fault s e _ _ _)
  | contMore | contLast => exact absurd h (takeOctet_ne_fault s e _ _)

/-- Settles O43: `ENC.RUN`, `ENC1` and E.FIRST fault where E.FIRST reads an octet never written, and no
other instruction runs E.FIRST. -/
theorem onlyAnUnwrittenFlagOctetFaults : Obligations.OnlyAnUnwrittenFlagOctetFaults := by
  refine ⟨fun off cap s hf => ?_, fun value n off cap s hf => ?_, fun f s hf => ?_,
    fun i s e h => exec_fault_only h⟩
  · exact (execEncRun_fault hf).trans (encRunOn_error.trans (and_iff_right rfl))
  · have hfresh := encRunOn_error (r := Config.freeRem s.draws) (off := off) (cap := cap)
      (e := freshEncoder value n) (m := s.mem) (f := .unwrittenOctet)
    refine (execEnc1_fault hf).trans ⟨fun ⟨hn, herr⟩ => ?_, fun ⟨h1, h8, hcap, hread⟩ => ?_⟩
    · obtain ⟨-, -, h8, hcap, hread⟩ := hfresh.1 herr
      exact ⟨(legal_of_badWidth_false hn).1, h8, hcap, hread⟩
    · exact ⟨badWidth_false h1 h8.le, hfresh.2 ⟨rfl, rfl, h8, hcap, hread⟩⟩
  · have herr := eFirstOn_error (r := Config.freeRem s.draws) (a := f.off + f.cursor) (e := s.enc)
      (m := s.mem) (f := .unwrittenOctet)
    rw [oldFirstOctet_none] at herr
    refine (execEFirst_fault hf).trans ⟨fun ⟨hs, hroom, h⟩ => ?_, fun ⟨hs, hN, hroom, hread⟩ => ?_⟩
    · obtain ⟨-, hN, hread⟩ := herr.1 h
      exact ⟨hs, hN, hroom, hread⟩
    · exact ⟨hs, hroom, herr.2 ⟨rfl, hN, hread⟩⟩

/-! ## Counts and the length width (R6, log 9) -/

/-- `MPV` counts up to 255, `ROCT` up to 11, an `INIT` nothing, a `RUN` and a one-shot form no more than
their view holds. -/
theorem cnt_le_of_exec {value : U64} {n : Width} {view : List Octet} {off cap : Nat} {i : Instr}
    {s t : State} (hi : i = .mpv n ∨ i = .roct value n ∨ i = .decInit n ∨ i = .decRun view ∨
      i = .encInit value n ∨ i = .encRun off cap ∨ i = .dec1 n view ∨ i = .enc1 value n off cap)
    (h : exec i s = .next t) : t.out.cnt ≤ 255 ∨ t.out.cnt ≤ view.length ∨ t.out.cnt ≤ cap := by
  rcases hi with rfl | rfl | rfl | rfl | rfl | rfl | rfl | rfl
  · cases (exec_mpv_eq n s).symm.trans h
    cases hn : badWidth n
    · exact .inl (by simpa using maxp_le (legal_of_badWidth_false hn).2)
    · exact .inl (by simp)
  · cases (exec_roct_eq value n s).symm.trans h
    have hle := requiredOctets_le_eleven value n
    refine .inl ?_
    rw [finish_cnt]
    split <;> omega
  · simp only [exec, execDecInit] at h
    split_ifs at h <;> cases h <;> simp
  · cases exec_decRun_next h
    exact .inr (.inl (decRunOn_cnt_le view s.dec))
  · simp only [exec, execEncInit] at h
    split_ifs at h <;> cases h <;> simp
  · obtain ⟨x, hx, rfl⟩ := execEncRun_next (encFlight_none_of_encRun h) h
    exact .inr (.inr (encRunOn_cnt_le hx))
  · simp only [exec, execDec1] at h
    split_ifs at h <;> cases h
    · exact .inl (Nat.zero_le _)
    · exact .inr (.inl (decRunOn_cnt_le view (freshDecoder n)))
  · simp only [exec, execEnc1] at h
    split_ifs at h
    · cases h; exact .inl (Nat.zero_le _)
    · split at h <;> cases h
      next x hx => exact .inr (.inr (encRunOn_cnt_le hx))

/-- Settles O54: each bound is below `2 ^ L`. -/
theorem countsFitTheLengthWidth : Obligations.CountsFitTheLengthWidth := by
  intro L value n view off cap i s t hL hview hcap hi h
  have h255 : 2 ^ 8 ≤ 2 ^ L := Nat.pow_le_pow_right (by omega) hL
  rcases cnt_le_of_exec hi h with hle | hle | hle <;> omega

/-! ## The two granularities of a `RUN` (R9) -/

/-- No operation is in progress on the unit. -/
def UnitId.free (u : UnitId) (s : State) : Prop :=
  match u with
  | .decoder => s.decFlight = none
  | .encoder => s.encFlight = none

/-- The host lets the unit take `k` passes and then goes on with `rest`. -/
def State.beforePasses (u : UnitId) (k : Nat) (rest : List HostAct) (s : State) : State :=
  { s with pending := List.replicate k (.tick u) ++ rest }

/-- A pass of the unit takes `s` to `s'`, whatever the host does next. -/
def Passes (u : UnitId) (s s' : State) : Prop :=
  ∀ acts, tick u { s with pending := acts } = .next { s' with pending := acts }

section
variable {u : UnitId} {s s' : State}

theorem passes_of_free (h : u.free s) : Passes u s s := by
  intro acts
  cases u with
  | decoder => exact tickDec_of_decFlight_none h
  | encoder => exact tickEnc_of_encFlight_none h

theorem steps_beforePasses_succ (k : Nat) (rest : List HostAct) :
    steps (k + 1) (s.beforePasses u (k + 1) rest) =
      Then (tick u (s.beforePasses u k rest)) (steps k) := rfl

theorem steps_of_passes (k : Nat) (rest : List HostAct) (h : Passes u s s') :
    steps (k + 1) (s.beforePasses u (k + 1) rest) = steps k (s'.beforePasses u k rest) := by
  rw [steps_beforePasses_succ, State.beforePasses, h]
  rfl

/-- Passes of a free unit are used up and change nothing (R8). -/
theorem steps_of_free (k : Nat) (rest : List HostAct) (h : u.free s) :
    steps k (s.beforePasses u k rest) = .next { s with pending := rest } := by
  induction k with
  | zero => rfl
  | succ k ih => rw [steps_of_passes k rest (passes_of_free h), ih]

/-- A pass that returns leaves the later ones nothing to do. -/
theorem steps_of_return (k : Nat) (rest : List HostAct) (h : Passes u s s') (hfree : u.free s') :
    steps (k + 1) (s.beforePasses u (k + 1) rest) = .next { s' with pending := rest } := by
  rw [steps_of_passes k rest h, steps_of_free k rest hfree]

end

/-! ### The decoder's passes (R110, R112) -/

section
variable {s : State} {f : DecFlight}

theorem passes_dec_done (hf : s.decFlight = some f) (hd : s.dec.state = .done) :
    Passes .decoder s (retireDec ⟨s.dec, f.cursor, .none⟩ s) :=
  fun acts => tickDec_done (s := { s with pending := acts }) hf hd

theorem passes_dec_end (hf : s.decFlight = some f) (hd : s.dec.state ≠ .done)
    (hend : f.view.length ≤ f.cursor) :
    Passes .decoder s (retireDec ⟨s.dec, f.cursor, .needsMore⟩ s) :=
  fun acts => tickDec_end (s := { s with pending := acts }) hf hd hend

theorem decMicro_pending (b : Octet) (f : DecFlight) (s : State) (acts : List HostAct) :
    decMicro b f { s with pending := acts } = { decMicro b f s with pending := acts } := by
  simp only [decMicro]
  split
  · rfl
  · split <;> rfl

theorem passes_decMicro {b : Octet} (hf : s.decFlight = some f) (hb : f.view[f.cursor]? = some b)
    (h1 : 1 ≤ s.dec.N.toNat) (h8 : s.dec.N.toNat ≤ 8)
    (hs : s.dec.state = .first ∨ s.dec.state = .continuation) :
    Passes .decoder s (decMicro b f s) := by
  intro acts
  rw [← decMicro_pending]
  exact tickDec_eq_decMicro (s := { s with pending := acts }) hf hb h1 h8 hs

/-- Passes enough for the octets left give what the loop gives, and the return. -/
theorem steps_eq_decLoop (k : Nat) (rest : List HostAct) (hf : s.decFlight = some f)
    (hcur : f.cursor ≤ f.view.length) (hk : f.view.length < f.cursor + k)
    (h1 : 1 ≤ s.dec.N.toNat) (h8 : s.dec.N.toNat ≤ 8)
    (hs : s.dec.state = .first ∨ s.dec.state = .continuation ∨ s.dec.state = .done) :
    steps k (s.beforePasses .decoder k rest) = .next
      { retireDec (decLoop (f.view.drop f.cursor) f.cursor s.dec) s with pending := rest } := by
  induction k generalizing s f with
  | zero => omega
  | succ k ih =>
    by_cases hd : s.dec.state = .done
    · rw [decLoop_of_done _ _ hd, steps_of_return k rest (passes_dec_done hf hd) rfl]
    rcases Nat.eq_or_lt_of_le hcur with hend | hlt
    · rw [List.drop_of_length_le hend.ge, decLoop, if_neg hd,
        steps_of_return k rest (passes_dec_end hf hd hend.ge) rfl]
    have hb : f.view[f.cursor]? = some f.view[f.cursor] := List.getElem?_eq_getElem hlt
    rw [List.drop_eq_getElem_cons hlt, decLoop, if_neg hd]
    generalize f.view[f.cursor] = b at hb ⊢
    have hnext (d : Decoder) (hN : d.N = s.dec.N) (hst : d.state = .done ∨ d.state = .continuation)
        (hpass : Passes .decoder s
          { s with dec := d, decFlight := some { f with cursor := f.cursor + 1 } }) :
        steps (k + 1) (s.beforePasses .decoder (k + 1) rest) = .next
          { retireDec (decLoop (f.view.drop (f.cursor + 1)) (f.cursor + 1) d) s with
            pending := rest } := by
      rw [steps_of_passes k rest hpass]
      exact ih (f := { f with cursor := f.cursor + 1 }) rfl hlt (by dsimp only; omega) (hN ▸ h1)
        (hN ▸ h8) (.inr hst.symm)
    rcases hs with hs | hs | hs
    · have hpass := passes_decMicro hf hb h1 h8 (.inl hs)
      rw [decMicro_first hs] at hpass
      rw [if_pos hs, hnext _ (dFirstOn_N s.dec b) (dFirstOn_state b s.dec) hpass]
    · have hpass := passes_decMicro hf hb h1 h8 (.inr hs)
      rw [if_neg (by simp [hs])]
      cases ho : overflows b s.dec with
      | true =>
        rw [decMicro_overflows hs ho] at hpass
        rw [if_pos rfl, steps_of_return k rest hpass rfl]
      | false =>
        rw [decMicro_accepts hs ho] at hpass
        rw [if_neg (by decide),
          hnext _ (dContOn_N s.dec b) (dContOn_done_or_continuation b s.dec) hpass]
    · exact absurd hs hd

end

theorem decode_decRun (view : List Octet) :
    decode (.cmd ⟨3, 0, 0, view.length, view, 0⟩) = .ok (.decRun view) :=
  decodeCmd_view view _

/-- An operation issued whole runs whole. -/
theorem step_issue {s : State} {p : Ports} {rest : List HostAct} {i : Instr}
    (hi : decode (.cmd p) = .ok i) :
    step { s with pending := .issue p :: rest } = exec i { s with pending := rest } := by
  rw [step_of_pending_cons rfl, perform, runWord_of_decode hi]

/-- An operation issued stepwise is begun, and the unit's passes follow. -/
theorem steps_issueStepwise {s : State} {p : Ports} {rest : List HostAct} {u : UnitId} {i : Instr}
    (k : Nat) (hi : decode (.cmd p) = .ok i) :
    steps (k + 1)
        { s with pending := .issueStepwise p :: List.replicate k (.tick u) ++ rest } =
      Then (beginInstr i (s.beforePasses u k rest)) (steps k) := by
  rw [steps, List.cons_append, step_of_pending_cons rfl]
  simp only [perform, hi]
  rfl

section
variable {s : State} {view : List Octet}

theorem beginDecRun_ends {err : Err} (hf : s.decFlight = none)
    (hp : decPrecheck view s.dec = some err) :
    beginDecRun view s = .next (finishDec ⟨s.dec, 0, err⟩ s) := by
  simp [beginDecRun, hf, hp]

theorem beginDecRun_begins (hf : s.decFlight = none) (hp : decPrecheck view s.dec = none) :
    beginDecRun view s = .next { s with decFlight := some ⟨view, 0⟩ } := by
  simp [beginDecRun, hf, hp]

end

/-- Settles O10: a check that fails ends both at once; otherwise the passes are those of the loop. -/
theorem stepwiseDecRunIsAtomicDecRun : Obligations.StepwiseDecRunIsAtomicDecRun := by
  intro s view rest ⟨hdec, _⟩ hf
  refine (steps_issueStepwise _ (decode_decRun view)).trans
    (.trans ?_ (step_issue (decode_decRun view)).symm)
  refine .trans ?_ (execDecRun_eq (s := { s with pending := rest }) view hf).symm
  rw [beginInstr]
  rcases decRunOn_cases view s.dec with ⟨err, hp, hr⟩ | ⟨hp, hr⟩
  · rw [beginDecRun_ends (s := s.beforePasses _ _ rest) hf hp, hr]
    exact steps_of_free (u := .decoder) (s := finishDec ⟨s.dec, 0, err⟩ s) _ rest hf
  · obtain ⟨-, hi, hfailed, hdone⟩ := decPrecheck_none hp
    obtain ⟨h1, h8⟩ := hdec.1 hi
    have hwaits := waits_of_ne hi hfailed hdone
    rw [beginDecRun_begins (s := s.beforePasses _ _ rest) hf hp, hr]
    refine (steps_eq_decLoop (s := { s with decFlight := some ⟨view, 0⟩ }) (view.length + 1) rest rfl
      (Nat.zero_le _) (by dsimp only; omega) h1 h8
      (hwaits.imp_right .inl)).trans ?_
    rw [List.drop_zero, retireDec, ← hf]
    rfl

/-! ### The encoder's passes (R136, R143) -/

/-- What an `ENC.RUN` leads to, from what its run on the registers gives; the unit is free after it. -/
def encOutcome (s : State) : Except Fault EncResult → Out
  | .error f => .fault f
  | .ok x => .next (finishEnc x.e x.cnt x.err { s with enc := x.e, mem := x.mem, encFlight := none })

theorem execEncRun_eq_encOutcome (off cap : Nat) {s : State} (hf : s.encFlight = none) :
    execEncRun off cap s =
      encOutcome s (encRunOn (Config.freeRem s.draws) off cap s.enc s.mem) := by
  rw [execEncRun_eq off cap hf]
  cases encRunOn (Config.freeRem s.draws) off cap s.enc s.mem with
  | error f => rfl
  | ok x => simp only [encOutcome, ← hf]

section
variable {s : State}

theorem runWord_first (hs : s.enc.state = .first) :
    runWord (.encTag s.enc.state.code) s = exec .eFirst s := by
  rw [hs]; rfl

theorem runWord_continuation (hs : s.enc.state = .continuation) :
    runWord (.encTag s.enc.state.code) s = exec .eCont s := by
  rw [hs]; rfl

theorem runWord_final (hs : s.enc.state = .final) :
    runWord (.encTag s.enc.state.code) s = exec .eFinal s := by
  rw [hs]; rfl

end

theorem eSettle_of_not {e : Encoder} (h : ¬(e.state = .continuation ∧ e.rem.toNat < 128)) :
    eSettle e = e := if_neg h

/-- What a pass that has an octet to write and room for it leads to. -/
def octetOutcome (f : EncFlight) (s : State) : Except Fault EncStep → Out
  | .error e => .fault e
  | .ok x => .next (afterOctet x f s)

section
variable {s : State} {f : EncFlight}

/-- The micro-step the tag selects writes the octet that `eOctetOn` writes (R138 to R140). -/
theorem tickEnc_octet (hf : s.encFlight = some f) (hi : s.enc.state ≠ .idle)
    (hd : s.enc.state ≠ .done) (hn : ¬(s.enc.state = .continuation ∧ s.enc.rem.toNat < 128))
    (hroom : f.cursor < f.cap) :
    tickEnc s = octetOutcome f s
      (eOctetOn (Config.freeRem s.draws) (f.off + f.cursor) s.enc s.mem) := by
  rw [tickEnc_micro hf hd]
  match hs : s.enc.state with
  | .first =>
    rw [← hs, runWord_first hs, eOctetOn, hs]
    simp only [exec, execEFirst, hf, hs, hroom, and_self, if_true]
    cases eFirstOn (Config.freeRem s.draws) (f.off + f.cursor) s.enc s.mem <;> rfl
  | .continuation =>
    rw [← hs, runWord_continuation hs, exec_eCont_more hf hs (by simpa [hs] using hn) hroom,
      eOctetOn, hs]
    rfl
  | .final =>
    rw [← hs, runWord_final hs, exec_eFinal_eq hf hs hroom, eOctetOn, hs]
    rfl
  | .idle => exact absurd hs hi
  | .done => exact absurd hs hd

/-- The micro-step the tag selects raises NeedsMore where it has an octet to write and no room (R141). -/
theorem tickEnc_noRoom (hf : s.encFlight = some f) (hi : s.enc.state ≠ .idle)
    (hd : s.enc.state ≠ .done) (hfirst : s.enc.state ≠ .first)
    (hn : ¬(s.enc.state = .continuation ∧ s.enc.rem.toNat < 128)) (hroom : f.cap ≤ f.cursor) :
    tickEnc s = .next (retireEnc f.cursor .needsMore s) := by
  rw [tickEnc_micro hf hd]
  match hs : s.enc.state with
  | .continuation =>
    rw [← hs, runWord_continuation hs, exec_eCont_noRoom hf hs (by simpa [hs] using hn) hroom]
  | .final => rw [← hs, runWord_final hs, exec_eFinal_noRoom hf hs hroom]
  | .first => exact absurd hs hfirst
  | .idle => exact absurd hs hi
  | .done => exact absurd hs hd

theorem tickEnc_settles (hf : s.encFlight = some f)
    (h : s.enc.state = .continuation ∧ s.enc.rem.toNat < 128) :
    tickEnc s = .next { s with enc := eSettle s.enc } := by
  obtain ⟨hs, hrem⟩ := h
  rw [tickEnc_micro hf (by simp [hs]), runWord_continuation hs, exec_eCont_settles hf hs hrem, eSettle,
    if_pos ⟨hs, hrem⟩]

end

/-- The passes that may be taken beyond one an octet: the return, and before it the move to Final
(R139, R143). -/
def Encoder.passesBeyondOctets (e : Encoder) : Nat :=
  if e.state = .final ∨ e.state = .done then 1 else 2

theorem passesBeyondOctets_bounds (e : Encoder) :
    1 ≤ e.passesBeyondOctets ∧ e.passesBeyondOctets ≤ 2 := by
  rw [Encoder.passesBeyondOctets]; split <;> omega

theorem encLoop_eSettle (r : U64) (room a w : Nat) (e : Encoder) (m : Memory) :
    encLoop r room a w (eSettle e) m = encLoop r room a w e m := by
  by_cases h : e.state = .continuation ∧ e.rem.toNat < 128
  · cases room <;> simp [encLoop, eSettle, h]
  · rw [eSettle_of_not h]

/-- The last octet leaves only the return (R140). -/
theorem passesBeyondOctets_le {r : U64} {a : Nat} {e : Encoder} {m : Memory} {x : EncStep}
    (hd : e.state ≠ .done) (hx : eOctetOn r a e m = .ok x) :
    x.e.passesBeyondOctets ≤ e.passesBeyondOctets := by
  by_cases hs : e.state = .final
  · simp only [eOctetOn, hs] at hx
    cases hx
    simp [Encoder.passesBeyondOctets, eFinalOn, hs]
  · have hle := (passesBeyondOctets_bounds x.e).2
    simpa [Encoder.passesBeyondOctets, hs, hd] using hle

theorem encOutcome_afterOctet (x : EncStep) (f : EncFlight) (s : State) (rest : List HostAct)
    (r : Except Fault EncResult) :
    encOutcome { afterOctet x f s with pending := rest } r =
      encOutcome { s with pending := rest } r := by
  cases r <;> rfl

section
variable {s : State} {f : EncFlight}

/-- Passes enough for the room left give what the loop gives, and the return. -/
theorem steps_eq_encLoop (k : Nat) (rest : List HostAct) (hf : s.encFlight = some f)
    (hi : s.enc.state ≠ .idle) (hcur : f.cursor ≤ f.cap)
    (hfirst : s.enc.state = .first → f.cursor < f.cap)
    (hk : f.cap + s.enc.passesBeyondOctets ≤ f.cursor + k) :
    steps k (s.beforePasses .encoder k rest) = encOutcome { s with pending := rest }
      (encLoop (Config.freeRem s.draws) (f.cap - f.cursor) (f.off + f.cursor) f.cursor s.enc
        s.mem) := by
  induction k generalizing s f with
  | zero =>
    have hpos := (passesBeyondOctets_bounds s.enc).1
    omega
  | succ k ih =>
    by_cases hd : s.enc.state = .done
    · have hpass : Passes .encoder s (retireEnc f.cursor .none s) :=
        fun acts => tickEnc_done (s := { s with pending := acts }) hf hd
      rw [steps_of_return k rest hpass rfl, encLoop_of_done _ _ _ _ _ hd]
      rfl
    by_cases hsettles : s.enc.state = .continuation ∧ s.enc.rem.toNat < 128
    · have hpass : Passes .encoder s { s with enc := eSettle s.enc } :=
        fun acts => tickEnc_settles (s := { s with pending := acts }) hf hsettles
      have hfinal : eSettle s.enc = { s.enc with state := .final } := if_pos hsettles
      rw [steps_of_passes k rest hpass, ← encLoop_eSettle, hfinal]
      have htwo : s.enc.passesBeyondOctets = 2 := by simp [Encoder.passesBeyondOctets, hsettles.1]
      exact ih (s := { s with enc := { s.enc with state := .final } }) hf (by simp) hcur (by simp)
        (by simp only [Encoder.passesBeyondOctets]; simp; omega)
    have hself := eSettle_of_not hsettles
    rcases Nat.eq_or_lt_of_le hcur with hfull | hroom
    · have hpass : Passes .encoder s (retireEnc f.cursor .needsMore s) := fun acts =>
        tickEnc_noRoom (s := { s with pending := acts }) hf hi hd
          (fun hs => by have := hfirst hs; omega) hsettles hfull.ge
      rw [steps_of_return k rest hpass rfl, ← hfull, Nat.sub_self, encLoop, if_neg hd, hself]
      rfl
    · obtain ⟨room, hroom'⟩ : ∃ room, f.cap - f.cursor = room + 1 :=
        ⟨f.cap - f.cursor - 1, by omega⟩
      have htick (acts : List HostAct) :=
        tickEnc_octet (s := { s with pending := acts }) hf hi hd hsettles hroom
      rw [hroom', encLoop, if_neg hd, hself]
      cases hx : eOctetOn (Config.freeRem s.draws) (f.off + f.cursor) s.enc s.mem with
      | error e =>
        rw [steps_beforePasses_succ, tick, State.beforePasses, htick]
        simp only [hx]
        rfl
      | ok x =>
        have hpass : Passes .encoder s (afterOctet x f s) := fun acts => by
          rw [tick, htick]
          simp only [hx]
          rfl
        obtain ⟨-, -, hst⟩ := eOctetOn_ok hi hd hx
        have hs : x.e.state = .done ∨ x.e.state = .continuation := hst.imp_right And.left
        have hle := passesBeyondOctets_le hd hx
        have hrest := ih (s := afterOctet x f s) (f := { f with cursor := f.cursor + 1 }) rfl
          (by rcases hs with hs | hs <;> simp [hs]) hroom
          (by rcases hs with hs | hs <;> simp [hs]) (by simp only [afterOctet_enc]; omega)
        rw [steps_of_passes k rest hpass, hrest, encOutcome_afterOctet]
        simp only [afterOctet_enc, afterOctet_mem, afterOctet_draws, ← Nat.sub_sub, hroom',
          Nat.add_sub_cancel, Nat.add_assoc]

end

section
variable {s : State} {off cap : Nat}

theorem beginEncRun_ends {err : Err} (hf : s.encFlight = none)
    (hp : encPrecheck cap s.enc = some err) :
    beginEncRun off cap s = .next (finishEnc s.enc 0 err s) := by
  simp [beginEncRun, hf, hp]

theorem beginEncRun_begins (hf : s.encFlight = none) (hp : encPrecheck cap s.enc = none) :
    beginEncRun off cap s = .next { s with encFlight := some ⟨off, cap, 0⟩ } := by
  simp [beginEncRun, hf, hp]

end

theorem decode_encRun (off cap : Nat) :
    decode (.cmd ⟨5, 0, 0, cap, [], off⟩) = .ok (.encRun off cap) := rfl

/-- Settles O11: a check that fails ends both at once; otherwise the passes are those of the loop. -/
theorem stepwiseEncRunIsAtomicEncRun : Obligations.StepwiseEncRunIsAtomicEncRun := by
  intro s off cap rest _ hf
  refine (steps_issueStepwise _ (decode_encRun off cap)).trans
    (.trans ?_ (step_issue (decode_encRun off cap)).symm)
  refine .trans ?_ (execEncRun_eq_encOutcome (s := { s with pending := rest }) off cap hf).symm
  dsimp only
  rw [beginInstr]
  rcases encRunOn_cases (Config.freeRem s.draws) off cap s.enc s.mem with ⟨err, hp, hr⟩ | ⟨hp, hr⟩
  · rw [beginEncRun_ends (s := s.beforePasses _ _ rest) hf hp, hr, encOutcome, ← hf]
    exact steps_of_free (u := .encoder) (s := finishEnc s.enc 0 err s) _ rest hf
  · obtain ⟨hi, -, hcap⟩ := encPrecheck_none hp
    have hle := (passesBeyondOctets_bounds s.enc).2
    rw [beginEncRun_begins (s := s.beforePasses _ _ rest) hf hp, hr]
    refine (steps_eq_encLoop (s := { s with encFlight := some ⟨off, cap, 0⟩ }) (cap + 2) rest rfl hi
      (Nat.zero_le _) (fun _ => hcap) (by dsimp only; omega)).trans ?_
    simp only [Nat.sub_zero, Nat.add_zero]
    cases encLoop (Config.freeRem s.draws) cap off 0 s.enc s.mem <;> rfl

end Sys2Proof.Machine
end
